-- ==== Sys2Proof/Word.lean ====
section
/-! DEFINITION. The word types: 32-bit words, bytes, and the group of eight words that the
accumulator, the working variables and one row of the trace share (spec 00_scope.md R5, R8 to R10;
10_state.md R23, R24). -/

namespace Sys2Proof

/-- A word of `K`, `HINIT`, `H`, `W`, `a..h`: 32 bits, unsigned (R5 `WORD_BITS`, R8). -/
abbrev Word := BitVec 32

/-- A byte of `BLK`, `CHUNK` or a payload. -/
abbrev Byte := BitVec 8

/-- A 6-bit index: the address width of `W`, `K`, `TR`, `BLK`, `CHUNK` (20_memory.md R50). -/
abbrev Index := BitVec 6

/-- Eight words under the names of the working variables. For `V` these are the names R24 gives;
for `H`, `HPRE` and a row `TR[t]`, index 0 is `a`, index 1 is `b`, up to index 7, `h` (R10). -/
structure Octet where
  a : Word
  b : Word
  c : Word
  d : Word
  e : Word
  f : Word
  g : Word
  h : Word
  deriving DecidableEq, Repr

/-- The eight words in index order, 0 first. -/
def Octet.toList (x : Octet) : List Word := [x.a, x.b, x.c, x.d, x.e, x.f, x.g, x.h]

/-- The word at index `j`, `j = 0 .. 7` (R10: `a = V[0]`, `b = V[1]`, ..., `h = V[7]`). -/
def Octet.get (x : Octet) (j : Fin 8) : Word :=
  match j with
  | 0 => x.a
  | 1 => x.b
  | 2 => x.c
  | 3 => x.d
  | 4 => x.e
  | 5 => x.f
  | 6 => x.g
  | 7 => x.h

end Sys2Proof
end

