-- ==== Sys2Proof/Config.lean ====
section
/-! DEFINITION. What is fixed for this hardware (spec 00_scope.md R5) and the free values: the
contents of the arrays that a reset leaves unspecified (10_state.md R39, R40). -/

namespace Sys2Proof

/-- Identification string (R1). -/
def Config.identity : String := "SHA256-CORE/1"

/-- `CHUNK_MAX`: most bytes one `PUSH` delivers (R5). -/
@[simp] abbrev Config.chunkMax : Nat := 64

/-- `PAD_THRESHOLD`: buffer fill at or above which padding needs two blocks (R5). -/
@[simp] abbrev Config.padThreshold : Nat := 56

/-- `TERMINATOR` (R5). -/
@[simp] abbrev Config.terminator : Byte := 0x80#8

/-- Free value (log 1): `V[j]` (j = 0 .. 7) after hardware reset number `n`. Unspecified: R39, R40. -/
opaque Config.unspecV (n : Nat) (j : Nat) : Word

/-- Free value (log 1): `HPRE[j]` after hardware reset number `n`. Unspecified: R36, R40. -/
opaque Config.unspecHpre (n : Nat) (j : Nat) : Word

/-- Free value (log 1): `W[i]` after hardware reset number `n`. Unspecified: R39, R40. -/
opaque Config.unspecW (n : Nat) (i : Nat) : Word

/-- Free value (log 1): `TR[t][j]` after hardware reset number `n`. Unspecified: R36, R40. -/
opaque Config.unspecTr (n : Nat) (t : Nat) (j : Nat) : Word

/-- Free value (log 1): `CHUNK[k]` after hardware reset number `n`. Unspecified: R35, R40. -/
opaque Config.unspecChunk (n : Nat) (k : Nat) : Byte

end Sys2Proof
end

