-- ==== Sys2Proof/Machine/Tables.lean ====
section
/-! DEFINITION. The constant tables `K` and `HINIT`, read-only, never written by any operation
(spec 10_state.md R21, R22, R42). The spec supplies their values from general knowledge (its G1,
G2); log 15. -/

namespace Sys2Proof.Machine

def kRow0 : List Word := [0x428a2f98, 0x71374491, 0xb5c0fbcf, 0xe9b5dba5, 0x3956c25b, 0x59f111f1, 0x923f82a4, 0xab1c5ed5]
def kRow1 : List Word := [0xd807aa98, 0x12835b01, 0x243185be, 0x550c7dc3, 0x72be5d74, 0x80deb1fe, 0x9bdc06a7, 0xc19bf174]
def kRow2 : List Word := [0xe49b69c1, 0xefbe4786, 0x0fc19dc6, 0x240ca1cc, 0x2de92c6f, 0x4a7484aa, 0x5cb0a9dc, 0x76f988da]
def kRow3 : List Word := [0x983e5152, 0xa831c66d, 0xb00327c8, 0xbf597fc7, 0xc6e00bf3, 0xd5a79147, 0x06ca6351, 0x14292967]
def kRow4 : List Word := [0x27b70a85, 0x2e1b2138, 0x4d2c6dfc, 0x53380d13, 0x650a7354, 0x766a0abb, 0x81c2c92e, 0x92722c85]
def kRow5 : List Word := [0xa2bfe8a1, 0xa81a664b, 0xc24b8b70, 0xc76c51a3, 0xd192e819, 0xd6990624, 0xf40e3585, 0x106aa070]
def kRow6 : List Word := [0x19a4c116, 0x1e376c08, 0x2748774c, 0x34b0bcb5, 0x391c0cb3, 0x4ed8aa4a, 0x5b9cca4f, 0x682e6ff3]
def kRow7 : List Word := [0x748f82ee, 0x78a5636f, 0x84c87814, 0x8cc70208, 0x90befffa, 0xa4506ceb, 0xbef9a3f7, 0xc67178f2]

/-- The round constants `K[0..63]`, row-wise (R21). -/
def kList : List Word := kRow0 ++ kRow1 ++ kRow2 ++ kRow3 ++ kRow4 ++ kRow5 ++ kRow6 ++ kRow7

/-- `K[t]`, `t = 0 .. 63` (R21). -/
def kConst (t : Index) : Word := kList.getD t.toNat 0#32

/-- `HINIT[0..7]` (R22). -/
def hinit : Octet :=
  { a := 0x6a09e667, b := 0xbb67ae85, c := 0x3c6ef372, d := 0xa54ff53a,
    e := 0x510e527f, f := 0x9b05688c, g := 0x1f83d9ab, h := 0x5be0cd19 }

/-- Whether `n` is a prime, by trial division: for the definition that R21 and R22 give of the two
tables. -/
def isPrime (n : Nat) : Bool :=
  decide (2 ≤ n) && (List.range n).all (fun d => decide (d < 2) || decide (n % d ≠ 0))

/-- The primes below `n`, in rising order; below 312 they are the first 64, 2 to 311 (R21). -/
def primesBelow (n : Nat) : List Nat := (List.range n).filter isPrime

end Sys2Proof.Machine
end

