-- ==== Sys2Proof/Machine/State.lean ====
section
/-! DEFINITION. The state of one engine as plain data, and its value after reset (spec 10_state.md
R20 to R43; ports: 30_encoding.md R71, R84, 45_inspection.md R195). -/

namespace Sys2Proof.Machine

/-- The driver's state machine `ST`, four legal states and no reserved code (R29). -/
inductive DriverState where
  | reading
  | paddingShort
  | paddingSplit
  | done
  deriving DecidableEq, Repr

/-- The 2-bit code of `ST` (R29), as `STATUS` shows it. -/
def DriverState.code : DriverState → BitVec 2
  | .reading => 0#2
  | .paddingShort => 1#2
  | .paddingSplit => 2#2
  | .done => 3#2

/-- The hardware's own faults: what `ERR` can record (60_exceptions.md R207). Raising one is a NEXT
state of the machine, not a stop. -/
inductive Cause where
  | illegalCommand
  | notReading
  | badCount
  | digestNotReady
  | sourceAbort
  | lengthOverflow
  deriving DecidableEq, Repr

/-- The cause codes of `ERR` (R207). -/
def Cause.code : Cause → BitVec 4
  | .illegalCommand => 1#4
  | .notReading => 2#4
  | .badCount => 3#4
  | .digestNotReady => 4#4
  | .sourceAbort => 5#4
  | .lengthOverflow => 6#4

/-- The phase codes of `PH` (30_encoding.md R76). -/
abbrev phIdle : BitVec 4 := 0#4
abbrev phAbs : BitVec 4 := 1#4
abbrev phPad1 : BitVec 4 := 2#4
abbrev phPadA : BitVec 4 := 3#4
abbrev phPadB : BitVec 4 := 4#4
abbrev phLdw : BitVec 4 := 5#4
abbrev phExp : BitVec 4 := 6#4
abbrev phSeed : BitVec 4 := 7#4
abbrev phRnd : BitVec 4 := 8#4
abbrev phFold : BitVec 4 := 9#4

/-- Byte memory: the written bytes by address, addresses strictly rising; an address not listed
holds no value (R39; log 2). -/
abbrev Memory := List Host.Cell

/-- One command transfer on the port `CMD`: a word and the payload bytes that follow it (R71).
`wait` is how many engine steps the host lets pass before it presents the word (DESIGN CHOICE,
log 4): with 0 the word is presented now. -/
structure Transfer where
  wait : Nat
  word : BitVec 16
  payload : List Byte
  deriving DecidableEq, Repr

/-- What the response port carries (30_encoding.md R84). -/
inductive Response where
  /-- The 32 digest bytes, byte 0 first (R53). -/
  | digest (bytes : List Byte)
  /-- The status word (R37). -/
  | status (word : BitVec 32)
  deriving DecidableEq, Repr

/-- One inspection record (45_inspection.md R195). -/
structure InspRecord where
  seq : BitVec 64
  w : Vector Word 64
  tr : Vector Octet 64
  hpre : Octet
  hpost : Octet
  deriving DecidableEq, Repr

/-- The complete state of one engine (R20), its ports, and one counter of the model's own. -/
structure State where
  /-- `H[0..7]` (R23). -/
  h : Octet
  /-- `V[0..7]` = `a..h` (R24). -/
  v : Octet
  /-- `W[0..63]` (R25). -/
  w : Vector Word 64
  /-- `BLK[0..63]` (R26). -/
  blk : Memory
  /-- `LEN` (R27). -/
  len : BitVec 64
  /-- `FILL` (R28). -/
  fill : BitVec 6
  /-- `ST` (R29). -/
  st : DriverState
  /-- `SEQ` (R30). -/
  seq : BitVec 64
  /-- `ERR` (R31). -/
  err : BitVec 4
  /-- `PH` (R32). -/
  ph : BitVec 4
  /-- `IDX` (R33). -/
  idx : Index
  /-- `SPLITB` (R34). -/
  splitb : Bool
  /-- `CHUNK[0..63]` (R35). -/
  chunk : Vector Byte 64
  /-- `CNT` (R35). -/
  cnt : BitVec 7
  /-- `POS` (R35). -/
  pos : BitVec 7
  /-- `LAST` (R35). -/
  last : Bool
  /-- `TR[0..63][0..7]` (R36). -/
  tr : Vector Octet 64
  /-- `HPRE[0..7]` (R36). -/
  hpre : Octet
  /-- The command port: what the host presents, in order (R71, R161; log 4). -/
  cmd : List Transfer
  /-- The response port: what has been placed on it, oldest first (R84; log 5). -/
  rsp : List Response
  /-- The inspection port: the records emitted, oldest first (R195, R196; log 5). -/
  insp : List InspRecord
  /-- The reset line: asserted from outside, seen at the next step (R230; log 7). -/
  rst : Bool
  /-- The model's own: how many hardware resets there have been; picks the free values (log 1). -/
  resets : Nat
  deriving DecidableEq, Repr

/-- Why a run of the MODEL stops in a state where the machine has no value to go on with. -/
inductive Fault where
  /-- Raised by `LDW`: it reads byte `addr` of `BLK`, which nothing has written since reset. The spec
  says a model faults there (R39, 93_implementation_defined.md U1) and no reachable state does it.
  Safe: the model stops where the hardware would go on with a value nobody knows (log 2). -/
  | blkUnwritten (addr : Nat)
  deriving DecidableEq, Repr

/-- Why the model gives a step no result. -/
inductive Refusal where
  /-- Raised by an arm of `exec` that has no meaning yet; no arm is left that does. Safe. -/
  | notModelled (mnemonic : String)
  /-- Raised by `step`: `PH` holds 10..15, which the spec says a model refuses (R77, U7). Safe. -/
  | reservedPhase
  /-- Raised by `step`: `ERR` holds 7..15, which the spec says a model refuses (R207, U8). Safe. -/
  | reservedErr
  /-- Raised by `LDW` and `EXP`: `IDX` is outside the range of its phase (R77, U7). Safe. -/
  | indexOutOfRange
  /-- Raised by `step` and `ABS`: `CNT > 64` or `POS > CNT`, which the spec says a model refuses
  (R41, U7). Safe. -/
  | latchOutOfRange
  /-- Raised by `step`, `PUSH` and `FINAL`: the payload length is not the one the transport delivers,
  which the spec says cannot be expressed or is refused (U10, D23). Safe. -/
  | payloadMismatch
  /-- Raised by `PAD1` when `FILL` is at least 56: its precondition fails and its writes would clash,
  so the rule gives no effect (R111; log 8). No reachable state does it. Safe. -/
  | padShortOverfull
  /-- Raised by `FOLD` in `ST = DONE`, for which the rule names no next phase: it "cannot occur here"
  (R143; log 8). Safe. -/
  | foldInDone
  deriving DecidableEq, Repr

/-- What a step or a meaning answers. -/
abbrev Outcome := Host.Outcome State Fault Refusal

/-- An array of 64 free words. -/
def unspecWords (f : Nat → Word) : Vector Word 64 := ⟨((List.range 64).map f).toArray, by simp⟩

/-- An array of 64 free bytes. -/
def unspecBytes (f : Nat → Byte) : Vector Byte 64 := ⟨((List.range 64).map f).toArray, by simp⟩

/-- Eight free words. -/
def unspecOctet (f : Nat → Word) : Octet :=
  { a := f 0, b := f 1, c := f 2, d := f 3, e := f 4, f := f 5, g := f 6, h := f 7 }

/-- Sixty-four rows of free words. -/
def unspecRows (f : Nat → Nat → Word) : Vector Octet 64 :=
  ⟨((List.range 64).map (fun t => unspecOctet (f t))).toArray, by simp⟩

/-- The state after hardware reset number `n` (R40, R230): every register the spec gives a value has
it, the arrays it leaves unspecified hold the free values of that reset (log 1), `BLK` holds nothing
(log 2), and the ports are empty (log 4, log 5, log 7). -/
def State.powerOn (n : Nat) : State :=
  { h := hinit
    v := unspecOctet (Config.unspecV n)
    w := unspecWords (Config.unspecW n)
    blk := []
    len := 0#64
    fill := 0#6
    st := .reading
    seq := 0#64
    err := 0#4
    ph := phIdle
    idx := 0#6
    splitb := false
    chunk := unspecBytes (Config.unspecChunk n)
    cnt := 0#7
    pos := 0#7
    last := false
    tr := unspecRows (Config.unspecTr n)
    hpre := unspecOctet (Config.unspecHpre n)
    cmd := []
    rsp := []
    insp := []
    rst := false
    resets := n }

/-- The machine right after reset (R40, R230). -/
def State.reset : State := State.powerOn 0

end Sys2Proof.Machine
end

