-- ==== Sys2Proof/Machine/Flags.lean ====
section
/-! DEFINITION. The engine has no condition codes; its only flags are the indications of the status
word (spec 10_state.md R37). -/

namespace Sys2Proof.Machine

/-- `READY`: 1 if `PH = IDLE` (R37). -/
def readyFlag (s : State) : Bool := decide (s.ph = phIdle)

/-- `DONE`: 1 if `ST = DONE` and `PH = IDLE` and `ERR = 0` (R37). -/
def doneFlag (s : State) : Bool :=
  decide (s.st = .done) && decide (s.ph = phIdle) && decide (s.err = 0#4)

/-- The status word: `ST` 1:0, `READY` 2, `DONE` 3, `ERR` 7:4, `FILL` 13:8, 31:14 read as 0 (R37,
U4). -/
def statusWord (s : State) : BitVec 32 :=
  (0#18 ++ s.fill ++ s.err ++ BitVec.ofBool (doneFlag s) ++ BitVec.ofBool (readyFlag s)
    ++ s.st.code : BitVec 32)

end Sys2Proof.Machine
end

