-- ==== Sys2Proof/Syntax.lean ====
section
/-! DEFINITION. The instructions: one constructor per row of spec/opcode_table.json. Rows of format
`CMD` are host commands, rows of format `UOP` are micro-operations of the sequencer
(30_encoding.md R70, R72, R76, R82). -/

namespace Sys2Proof

inductive Instr where
  /-- `INIT`, word `0x1000` (R162). -/
  | init
  /-- `PUSH`, word `0x2000 + 0x80 LAST + COUNT` (R71, R73, R163). The payload is not part of the
  word: it follows on the command port. -/
  | push (last : Bool) (count : BitVec 7)
  /-- `DIGEST`, word `0x3000` (R166). -/
  | digest
  /-- `STATUS`, word `0x4000` (R167). -/
  | status
  /-- `ABORT`, word `0x5000` (R168). -/
  | abort
  /-- `FINAL`, the pseudo-instruction for word `0x2080`, `PUSH 0, LAST` (R82). DESIGN CHOICE (log 3):
  the word decodes to this constructor; its meaning is that of `push true 0`. -/
  | final
  /-- `IDLE`, phase code 0 (R76, R161). -/
  | idle
  /-- `ABS`, phase code 1 (R164). -/
  | abs
  /-- `PAD1`, phase code 2 (R111). -/
  | pad1
  /-- `PADA`, phase code 3 (R112). -/
  | padA
  /-- `PADB`, phase code 4 (R113). -/
  | padB
  /-- `LDW`, phase code 5; its operand is the register `IDX` (R126). -/
  | ldw
  /-- `EXP`, phase code 6; its operand is the register `IDX` (R127). -/
  | exp
  /-- `SEED`, phase code 7 (R141). -/
  | seed
  /-- `RND`, phase code 8; its operand is the register `IDX` (R142). -/
  | rnd
  /-- `FOLD`, phase code 9 (R143). -/
  | fold
  deriving DecidableEq, Repr

/-- The format of an instruction: `CMD` or `UOP` (R70). -/
inductive Format where
  | cmd
  | uop
  deriving DecidableEq, Repr

/-- Which of the two formats an instruction has (R72, R76, R82). -/
def Instr.format : Instr → Format
  | .init => .cmd
  | .push _ _ => .cmd
  | .digest => .cmd
  | .status => .cmd
  | .abort => .cmd
  | .final => .cmd
  | .idle => .uop
  | .abs => .uop
  | .pad1 => .uop
  | .padA => .uop
  | .padB => .uop
  | .ldw => .uop
  | .exp => .uop
  | .seed => .uop
  | .rnd => .uop
  | .fold => .uop

end Sys2Proof
end

