-- ==== Sys2Proof/WellFormed.lean ====
section
/-! DEFINITION. Well-formed instructions: those that some word stands for. The field widths of
`push` are in its type (`COUNT` is 7 bits, R71, and counts 65..127 do decode, R73), so one check is
left: the word `0x2080` has the one constructor `final` (DESIGN CHOICE, log 3), so `push true 0` is
the meaning of `FINAL` under a second name and no word decodes to it. -/

namespace Sys2Proof

/-- The instruction is the canonical name of its word. -/
def Instr.wellFormed : Instr → Bool
  | .push last count => !(last && count == 0#7)
  | .init => true
  | .digest => true
  | .status => true
  | .abort => true
  | .final => true
  | .idle => true
  | .abs => true
  | .pad1 => true
  | .padA => true
  | .padB => true
  | .ldw => true
  | .exp => true
  | .seed => true
  | .rnd => true
  | .fold => true

end Sys2Proof
end

