-- ==== Sys2Proof/Decode.lean ====
section
/-! DEFINITION. Decoding, total on all words and rejecting by name, and after it the encoder, both
from the encoding tables of spec 30_encoding.md (R71 to R76). -/

namespace Sys2Proof

/-- Why a word is no instruction. -/
inductive DecodeError where
  /-- `OPC` is 0x0 or 0x6..0xF (R75). -/
  | reservedOpcode
  /-- `OPC` is 0x2 and a bit of `RSV` is set, or another command has a bit of 11:0 set (R74, R75). -/
  | reservedBitsSet
  /-- `PH` is 10..15 (R77). -/
  | reservedPhase
  deriving DecidableEq, Repr

/-- An encoded instruction: a 16-bit command word or a 4-bit phase code (R70). -/
inductive Encoded where
  | cmd (word : BitVec 16)
  | uop (code : BitVec 4)
  deriving DecidableEq, Repr

/-- Field `OPC`, bits 15:12 of a command word (R71). -/
def cmdOpc (word : BitVec 16) : BitVec 4 := word.extractLsb' 12 4

/-- Field `RSV`, bits 11:8 of a command word (R71). -/
def cmdRsv (word : BitVec 16) : BitVec 4 := word.extractLsb' 8 4

/-- Field `LAST`, bit 7 of a command word (R71, R73). -/
def cmdLast (word : BitVec 16) : Bool := word.getLsbD 7

/-- Field `COUNT`, bits 6:0 of a command word (R71, R73). -/
def cmdCount (word : BitVec 16) : BitVec 7 := word.extractLsb' 0 7

/-- A command with no operand: bits 11:0 must be 0 (R74). -/
def decodeNoOperand (word : BitVec 16) (i : Instr) : Except DecodeError Instr :=
  if word.extractLsb' 0 12 = 0#12 then .ok i else .error .reservedBitsSet

/-- A `PUSH` word: `RSV` must be 0 (R71, R75); the word with `LAST = 1` and `COUNT = 0` is `FINAL`
(R82, log 3). -/
def decodePush (word : BitVec 16) : Except DecodeError Instr :=
  if cmdRsv word = 0#4 then
    if cmdLast word = true ∧ cmdCount word = 0#7 then .ok .final
    else .ok (.push (cmdLast word) (cmdCount word))
  else .error .reservedBitsSet

/-- The command opcode map (R72); every other word is illegal (R75). -/
def decodeCommand (word : BitVec 16) : Except DecodeError Instr :=
  if cmdOpc word = 0x1#4 then decodeNoOperand word .init
  else if cmdOpc word = 0x2#4 then decodePush word
  else if cmdOpc word = 0x3#4 then decodeNoOperand word .digest
  else if cmdOpc word = 0x4#4 then decodeNoOperand word .status
  else if cmdOpc word = 0x5#4 then decodeNoOperand word .abort
  else .error .reservedOpcode

/-- The micro-operation codes (R76); 10..15 are reserved (R77). -/
def decodeUop (code : BitVec 4) : Except DecodeError Instr :=
  if code = 0#4 then .ok .idle
  else if code = 1#4 then .ok .abs
  else if code = 2#4 then .ok .pad1
  else if code = 3#4 then .ok .padA
  else if code = 4#4 then .ok .padB
  else if code = 5#4 then .ok .ldw
  else if code = 6#4 then .ok .exp
  else if code = 7#4 then .ok .seed
  else if code = 8#4 then .ok .rnd
  else if code = 9#4 then .ok .fold
  else .error .reservedPhase

/-- Decode either format. -/
def decode : Encoded → Except DecodeError Instr
  | .cmd word => decodeCommand word
  | .uop code => decodeUop code

/-- The word of `PUSH`: `0x2000 + 0x80 LAST + COUNT` (R72), laid out by the fields of R71. -/
def encodePush (last : Bool) (count : BitVec 7) : BitVec 16 :=
  (0x2#4 ++ 0x0#4 ++ BitVec.ofBool last ++ count : BitVec 16)

/-- The encoding of every instruction (R72, R76, R82). -/
def encode : Instr → Encoded
  | .init => .cmd 0x1000#16
  | .push last count => .cmd (encodePush last count)
  | .digest => .cmd 0x3000#16
  | .status => .cmd 0x4000#16
  | .abort => .cmd 0x5000#16
  | .final => .cmd 0x2080#16
  | .idle => .uop 0#4
  | .abs => .uop 1#4
  | .pad1 => .uop 2#4
  | .padA => .uop 3#4
  | .padB => .uop 4#4
  | .ldw => .uop 5#4
  | .exp => .uop 6#4
  | .seed => .uop 7#4
  | .rnd => .uop 8#4
  | .fold => .uop 9#4

/-- How many payload bytes the transport delivers with a command word: `w[6:0]` when `OPC` is 0x2,
legal word or not, and none otherwise (R71, R80, 92_eei_decisions.md D23). -/
def payloadLength (word : BitVec 16) : Nat :=
  if cmdOpc word = 0x2#4 then (cmdCount word).toNat else 0

/-- The instruction the decoder reads from the bits of an opcode-table row: rows of up to one byte
are `UOP` (a 4-bit code), rows of two bytes are `CMD`. -/
def decodeTableWord (nbits w : Nat) : Option Instr :=
  if nbits ≤ 8 then
    if w < 16 then (decodeUop (BitVec.ofNat 4 w)).toOption else none
  else if nbits ≤ 16 then
    if w < 65536 then (decodeCommand (BitVec.ofNat 16 w)).toOption else none
  else none

end Sys2Proof
end

