-- ==== Sys2Proof/Machine/Datapath.lean ====
section
/-! DEFINITION. The combinational functions of the datapath (spec 40_datapath.md R90 to R101) and
the byte order of words (20_memory.md R51 to R53). They are never issued on their own
(30_encoding.md R83), set no flag (R37) and raise nothing (R101). -/

namespace Sys2Proof.Machine

/-- `ADD32(x, y)`: the sum modulo 2^32, the carry dropped (R90). -/
def add32 (x y : Word) : Word := x + y

/-- `rotr(w, n)`, right-rotate (R91). -/
def rotr (w : Word) (n : Nat) : Word := (w >>> n) ||| (w <<< (32 - n))

/-- `w >> n`, logical right-shift, zero fill (R92). -/
def shr (w : Word) (n : Nat) : Word := w >>> n

/-- `Ch(x, y, z)`, select (R94). -/
def ch (x y z : Word) : Word := (x &&& y) ^^^ (~~~x &&& z)

/-- `Maj(x, y, z)`, majority (R95). -/
def maj (x y z : Word) : Word := (x &&& y) ^^^ (x &&& z) ^^^ (y &&& z)

/-- `σ0(w)` (R96). -/
def ssig0 (w : Word) : Word := rotr w 7 ^^^ rotr w 18 ^^^ shr w 3

/-- `σ1(w)` (R97). -/
def ssig1 (w : Word) : Word := rotr w 17 ^^^ rotr w 19 ^^^ shr w 10

/-- `Σ0(w)` (R98). -/
def bsig0 (w : Word) : Word := rotr w 2 ^^^ rotr w 13 ^^^ rotr w 22

/-- `Σ1(w)` (R99). -/
def bsig1 (w : Word) : Word := rotr w 6 ^^^ rotr w 11 ^^^ rotr w 25

/-- `σ1(w2) + w7 + σ0(w15) + w16`: the schedule recurrence on its four taps (R125, R127). -/
def expandWord (w2 w7 w15 w16 : Word) : Word :=
  add32 (add32 (add32 (ssig1 w2) w7) (ssig0 w15)) w16

/-- `T1 = h + Σ1(e) + Ch(e,f,g) + K[t] + W[t]` (R140, R142). -/
def roundT1 (v : Octet) (k w : Word) : Word :=
  add32 (add32 (add32 (add32 v.h (bsig1 v.e)) (ch v.e v.f v.g)) k) w

/-- `T2 = Σ0(a) + Maj(a,b,c)` (R140, R142). -/
def roundT2 (v : Octet) : Word := add32 (bsig0 v.a) (maj v.a v.b v.c)

/-- One round: all right-hand sides use the old values (R142, R145). -/
def round (v : Octet) (k w : Word) : Octet :=
  { a := add32 (roundT1 v k w) (roundT2 v)
    b := v.a
    c := v.b
    d := v.c
    e := add32 v.d (roundT1 v k w)
    f := v.e
    g := v.f
    h := v.g }

/-- The fold of one octet into another, word by word (R140, R143). -/
def foldOctet (x y : Octet) : Octet :=
  { a := add32 x.a y.a
    b := add32 x.b y.b
    c := add32 x.c y.c
    d := add32 x.d y.d
    e := add32 x.e y.e
    f := add32 x.f y.f
    g := add32 x.g y.g
    h := add32 x.h y.h }

/-- `BE32(b0,b1,b2,b3) = b0 ‖ b1 ‖ b2 ‖ b3` (00_scope.md R11, R51). -/
def be32 (b0 b1 b2 b3 : Byte) : Word := (b0 ++ b1 ++ b2 ++ b3 : BitVec 32)

/-- The four bytes of a word, most significant first (R53). -/
def wordBytes (x : Word) : List Byte :=
  [x.extractLsb' 24 8, x.extractLsb' 16 8, x.extractLsb' 8 8, x.extractLsb' 0 8]

/-- `BE64bytes(v)`: the eight bytes of a 64-bit value, most significant first (R11, R52). -/
def be64Bytes (v : BitVec 64) : List Byte :=
  [v.extractLsb' 56 8, v.extractLsb' 48 8, v.extractLsb' 40 8, v.extractLsb' 32 8,
   v.extractLsb' 24 8, v.extractLsb' 16 8, v.extractLsb' 8 8, v.extractLsb' 0 8]

/-- The 32 digest bytes of an accumulator: byte `4j+k` is `H[j][31-8k : 24-8k]` (R53). -/
def octetBytes (x : Octet) : List Byte := x.toList.flatMap wordBytes

end Sys2Proof.Machine
end

