-- ==== Sys2Proof/Machine/Ops.lean ====
section
/-! DEFINITION. The named operations over memory, arrays, ports and control that the meanings share:
the memory primitives (00_scope.md R11), raising a fault and the return from it (60_exceptions.md
R206, R216), command acceptance (44_driver.md R161), and hardware reset (70_reset_and_hazards.md
R230). -/

namespace Sys2Proof.Machine

/-! ### Byte memory -/

/-- The canonical form: addresses strictly rising, all in 0..63 (R11, R50). -/
def Memory.wf : Memory → Bool
  | [] => true
  | c :: m => decide (c.1 < 64) && m.all (fun d => decide (c.1 < d.1)) && Memory.wf m

/-- The byte at an address, or nothing where nothing has been written (R39, log 2). -/
def Memory.read : Memory → Nat → Option Byte
  | [], _ => none
  | c :: m, x => if x = c.1 then some c.2 else Memory.read m x

/-- Write one byte, keeping the addresses strictly rising. -/
def Memory.write : Memory → Nat → Byte → Memory
  | [], x, b => [(x, b)]
  | c :: m, x, b =>
    if x < c.1 then (x, b) :: c :: m
    else if x = c.1 then (x, b) :: m
    else c :: Memory.write m x b

/-- Write consecutive bytes from an address up: `MemWrite` on the bytes of its value, most
significant first (R11), and the ranges the padding stage writes. -/
def Memory.writeBytes : Memory → Nat → List Byte → Memory
  | m, _, [] => m
  | m, x, b :: bs => Memory.writeBytes (Memory.write m x b) (x + 1) bs

/-- One byte, or the address nothing has written. -/
def Memory.fetch (m : Memory) (x : Nat) : Except Nat Byte :=
  match Memory.read m x with
  | some b => .ok b
  | none => .error x

/-- `MemRead(addr, 4)`: big-endian, the lowest address most significant (R11, R51); the first
unwritten address where there is one (log 2). -/
def Memory.read32 (m : Memory) (x : Nat) : Except Nat Word :=
  match Memory.fetch m x, Memory.fetch m (x + 1), Memory.fetch m (x + 2), Memory.fetch m (x + 3) with
  | .ok b0, .ok b1, .ok b2, .ok b3 => .ok (be32 b0 b1 b2 b3)
  | .error a, _, _, _ => .error a
  | .ok _, .error a, _, _ => .error a
  | .ok _, .ok _, .error a, _ => .error a
  | .ok _, .ok _, .ok _, .error a => .error a

/-! ### Arrays of 64 elements, addressed by six bits (20_memory.md R50) -/

/-- Read element `i`. -/
def readAt {α : Type} (xs : Vector α 64) (i : Index) : α := xs.get i.toFin

/-- Write element `i`. -/
def writeAt {α : Type} (xs : Vector α 64) (i : Index) (x : α) : Vector α 64 :=
  xs.set i.toNat x i.isLt

/-- Write consecutive elements from `i` up: `CHUNK[k] <- data[k]` of R163. -/
def writeFrom {α : Type} : Vector α 64 → Nat → List α → Vector α 64
  | xs, _, [] => xs
  | xs, i, y :: ys => writeFrom (xs.setIfInBounds i y) (i + 1) ys

/-! ### Faults: taking one, and the return from one -/

/-- `raise F` (R12, R206, R215): `ERR <- code(F)`, `PH <- IDLE`, and no other write. -/
def raise (c : Cause) (s : State) : State := { s with err := c.code, ph := phIdle }

/-- The only exits from a fault are `INIT` and reset (R216). What `INIT` writes (R162): the reset
values of R40, the unspecified arrays left as they are. -/
def startMessage (s : State) : State :=
  { s with
    h := hinit
    len := 0#64
    fill := 0#6
    st := .reading
    seq := 0#64
    err := 0#4
    ph := phIdle
    idx := 0#6
    splitb := false
    cnt := 0#7
    pos := 0#7
    last := false }

/-! ### Ports -/

/-- The command the host presents now (R161): the head of the port, once its wait is over (log 4). -/
def presented (s : State) : Option Transfer :=
  match s.cmd with
  | [] => none
  | t :: _ => if t.wait = 0 then some t else none

/-- The port has taken the command with its payload, and the next one can be presented (R161). -/
def takeCommand (s : State) : State := { s with cmd := s.cmd.tail }

/-- One engine step passes for the host: a command it does not present yet comes one step nearer
(log 4). A command that is presented, or held, stays as it is. -/
def hostTick (s : State) : State :=
  match s.cmd with
  | [] => s
  | t :: ts => { s with cmd := { t with wait := t.wait - 1 } :: ts }

/-- `respond(v)`: place `v` on the response port (R12, R84). -/
def respond (r : Response) (s : State) : State := { s with rsp := s.rsp ++ [r] }

/-- `emit Insp(rec)`: place one record on the inspection port (R12, R195, R196). -/
def emitRecord (r : InspRecord) (s : State) : State := { s with insp := s.insp ++ [r] }

/-! ### Sequencer position -/

/-- `PH <- X; IDX <- n` (R12, R38). -/
def goTo (ph : BitVec 4) (idx : Index) (s : State) : State := { s with ph := ph, idx := idx }

/-- `IDX <- IDX + 1`, the phase stays (R126, R127, R142). -/
def nextIndex (s : State) : State := { s with idx := s.idx + 1#6 }

/-! ### Command acceptance -/

/-- R161 case 2: a command presented while the engine is busy is held, neither executed nor
dropped. -/
def heldWhileBusy (s : State) (k : Outcome) : Outcome :=
  if s.ph = phIdle then k else .next s

/-- R161 cases 2 and 4 for the commands other than `STATUS` and `INIT`: held while busy, and ignored
while `ERR` is not 0 (no state change, no response, the payload discarded). -/
def whenAccepted (s : State) (k : Outcome) : Outcome :=
  heldWhileBusy s (if s.err = 0#4 then k else .next (takeCommand s))

/-- R161 cases 2, 4 and 5 for a word that is no command: raise `IllegalCommand` (R75, R208). -/
def acceptIllegal (s : State) : Outcome :=
  whenAccepted s (.next (takeCommand (raise .illegalCommand s)))

/-! ### Hardware reset -/

/-- A command the port holds: presented, not `STATUS`, while the engine is busy (R161 case 2). -/
def holding (s : State) : Bool :=
  match presented s with
  | none => false
  | some t => decide (s.ph ≠ phIdle) && decide (t.word ≠ 0x4000#16)

/-- Hardware reset in any phase (R230): the state of R40, with fresh free values in the unspecified
arrays (log 1); a held command and a pass in progress are abandoned and no record is emitted. What
has left on the response and inspection ports has left; the line is released (log 7). -/
def hardReset (s : State) : State :=
  { State.powerOn (s.resets + 1) with
    cmd := if holding s then s.cmd.tail else s.cmd
    rsp := s.rsp
    insp := s.insp }

end Sys2Proof.Machine
end

