-- ==== Sys2Proof/Machine/Operands.lean ====
section
/-! DEFINITION. Operands: the payload of a command (30_encoding.md R73, R80), the index operand of a
micro-operation (R76), and the operand values that the spec says a model refuses (R77;
93_implementation_defined.md U7, U8, U10). -/

namespace Sys2Proof.Machine

/-- The payload bytes that come with the command at the head of the port (R71, R73). -/
def payload (s : State) : List Byte :=
  match s.cmd with
  | [] => []
  | t :: _ => t.payload

/-- The transport has delivered exactly the bytes the word calls for (R80, D23). -/
def Transfer.sized (t : Transfer) : Bool := t.payload.length == payloadLength t.word

/-- The chunk latch counters are in range: `POS ≤ CNT ≤ 64` (R35, R41). -/
def latchInRange (s : State) : Bool := decide (s.pos ≤ s.cnt) && decide (s.cnt ≤ 64#7)

/-- The range of `IDX` in a phase: 0..15 in `LDW`, 16..63 in `EXP`; in `RND` every value is in
range, and in the other phases `IDX` is ignored (R76). -/
def indexInRange (ph : BitVec 4) (idx : Index) : Bool :=
  if ph = phLdw then decide (idx ≤ 15#6)
  else if ph = phExp then decide (16#6 ≤ idx)
  else true

/-- The index with which a phase begins (R126, R127, R141; 0 where it is ignored, R33). -/
def firstIndex (ph : BitVec 4) : Index := if ph = phExp then 16#6 else 0#6

/-- A state that a model gives no step (R77, U7, U8), or a command that cannot be expressed (U10),
with the reason; nothing for the others. -/
def irregularity (s : State) : Option Refusal :=
  if 9#4 < s.ph then some .reservedPhase
  else if indexInRange s.ph s.idx = false then some .indexOutOfRange
  else if latchInRange s = false then some .latchOutOfRange
  else if 6#4 < s.err then some .reservedErr
  else match presented s with
    | none => none
    | some t => if Transfer.sized t = false then some .payloadMismatch else none

end Sys2Proof.Machine
end

