-- ==== Sys2Proof/Machine/Commands.lean ====
section
/-! DEFINITION. The host commands: INIT, PUSH, DIGEST, STATUS, ABORT and the pseudo-instruction
FINAL (spec 44_driver.md R161 to R168, 30_encoding.md R82). Each meaning is that of the command at
the head of the command port and includes its acceptance by R161. -/

namespace Sys2Proof.Machine

/-- `INIT` (R162): executed whenever the engine is idle, whatever `ERR` and `ST` (R161 case 3). -/
def execInit (s : State) : Outcome :=
  heldWhileBusy s (.next (takeCommand (startMessage s)))

/-- Load the chunk latch with the payload and start absorbing it (R163, last branch). -/
def loadChunk (last : Bool) (count : BitVec 7) (s : State) : State :=
  { s with
    chunk := writeFrom s.chunk 0 (payload s)
    cnt := count
    pos := 0#7
    last := last
    ph := phAbs
    idx := 0#6 }

/-- `PUSH count [, last]` (R163): the state check before the count check (R214), then the load. On a
fault the payload is discarded and only `ERR` changes. -/
def pushChunk (last : Bool) (count : BitVec 7) (s : State) : Outcome :=
  whenAccepted s
    (if s.st ≠ .reading then .next (takeCommand (raise .notReading s))
    else if Config.chunkMax < count.toNat then .next (takeCommand (raise .badCount s))
    else if (payload s).length = count.toNat then .next (takeCommand (loadChunk last count s))
    else .refused .payloadMismatch)

/-- `PUSH` (R163). -/
def execPush (last : Bool) (count : BitVec 7) (s : State) : Outcome := pushChunk last count s

/-- `FINAL` = `PUSH 0, LAST` (R82). -/
def execFinal (s : State) : Outcome := pushChunk true 0#7 s

/-- `DIGEST` (R166): the digest bytes in `DONE`, the fault `DigestNotReady` elsewhere (R211). -/
def execDigest (s : State) : Outcome :=
  whenAccepted s
    (if s.st = .done then .next (takeCommand (respond (.digest (octetBytes s.h)) s))
    else .next (takeCommand (raise .digestNotReady s)))

/-- `STATUS` (R167): answered in any phase, whatever `ERR` (R161 case 1). -/
def execStatus (s : State) : Outcome :=
  .next (takeCommand (respond (.status (statusWord s)) s))

/-- `ABORT` (R168, R212). -/
def execAbort (s : State) : Outcome :=
  whenAccepted s (.next (takeCommand (raise .sourceAbort s)))

end Sys2Proof.Machine
end

