-- ==== Sys2Proof/Machine/Compression.lean ====
section
/-! DEFINITION. The compression round engine's micro-operations: SEED, RND, FOLD (spec
43_compression.md R140 to R147; the record: 45_inspection.md R195 to R200). -/

namespace Sys2Proof.Machine

/-- `SEED` (R141). -/
def execSeed (s : State) : Outcome := .next (goTo phRnd 0#6 { s with v := s.h, hpre := s.h })

/-- `RND t` (R142), `t = IDX`: one round with `K[t]` and `W[t]`, the new working variables into
`TR[t]`. -/
def execRnd (s : State) : Outcome :=
  let v' := round s.v (kConst s.idx) (readAt s.w s.idx)
  let s' := { s with v := v', tr := writeAt s.tr s.idx v' }
  if s.idx = 63#6 then .next (goTo phFold 0#6 s') else .next (nextIndex s')

/-- The record `FOLD` emits (R143, R195). -/
def foldRecord (s : State) : InspRecord :=
  { seq := s.seq, w := s.w, tr := s.tr, hpre := s.hpre, hpost := foldOctet s.h s.v }

/-- What `FOLD` does whatever the driver state: the fold, the record, the sequence number, `IDX`
(R143). -/
def folded (s : State) : State :=
  emitRecord (foldRecord s)
    { s with h := foldOctet s.h s.v, seq := s.seq + 1#64, idx := 0#6 }

/-- `FOLD` (R143): the next phase by the driver state. `ST = DONE` cannot occur here, and the rule
names no next phase for it (log 8). -/
def execFold (s : State) : Outcome :=
  match s.st, s.splitb with
  | .reading, _ => .next { folded s with ph := phAbs }
  | .paddingShort, _ => .next { folded s with st := .done, ph := phIdle }
  | .paddingSplit, false => .next { folded s with ph := phPadB }
  | .paddingSplit, true => .next { folded s with st := .done, ph := phIdle }
  | .done, _ => .refused .foldInDone

end Sys2Proof.Machine
end

