-- ==== Sys2Proof/Machine/Driver.lean ====
section
/-! DEFINITION. The block driver's micro-operations: IDLE and ABS (spec 44_driver.md R161, R164). -/

namespace Sys2Proof.Machine

/-- `IDLE` (R76): nothing happens; idling keeps all state (60_exceptions.md R224; log 13). -/
def execIdle (s : State) : Outcome := .next s

/-- Absorbing one more byte would take `LEN` to 2^64 or more (R27, R213; log 9). -/
def lenAtEnd (s : State) : Bool := decide (2 ^ 64 ≤ s.len.toNat + 8)

/-- The byte-absorbing branch of `ABS` (R164), once the overflow test has passed. -/
def absorbByte (s : State) : State :=
  let s' := { s with
    blk := Memory.write s.blk s.fill.toNat (readAt s.chunk (s.pos.setWidth 6))
    pos := s.pos + 1#7
    len := s.len + 8#64 }
  if s.fill = 63#6 then { s' with fill := 0#6, ph := phLdw, idx := 0#6 }
  else { s' with fill := s.fill + 1#6 }

/-- The chunk-ending branch of `ABS` (R164); the padding shape of 41_padding.md R114. -/
def endChunk (s : State) : State :=
  if s.last = false then { s with ph := phIdle }
  else if s.fill.toNat < Config.padThreshold then { s with st := .paddingShort, ph := phPad1 }
  else { s with st := .paddingSplit, ph := phPadA }

/-- `ABS` (R164): absorb one byte of the chunk, or end the chunk; the fault `LengthOverflow`
(R213). -/
def execAbs (s : State) : Outcome :=
  if latchInRange s = false then .refused .latchOutOfRange
  else if s.pos < s.cnt then
    if lenAtEnd s then .next (raise .lengthOverflow s)
    else .next (absorbByte s)
  else .next (endChunk s)

end Sys2Proof.Machine
end

