-- ==== Sys2Proof/Machine/Padding.lean ====
section
/-! DEFINITION. The padding stage's micro-operations: PAD1, PADA, PADB (spec 41_padding.md R110 to
R118). -/

namespace Sys2Proof.Machine

/-- The bytes `PAD1` writes from address `r` up: the terminator, zeros to byte 55, the trailer
(R111). -/
def pad1Bytes (r : Nat) (len : BitVec 64) : List Byte :=
  Config.terminator :: (List.replicate (55 - r) 0#8 ++ be64Bytes len)

/-- The bytes `PADA` writes from address `r` up: the terminator, zeros to byte 63 (R112). -/
def padABytes (r : Nat) : List Byte := Config.terminator :: List.replicate (63 - r) 0#8

/-- The bytes `PADB` writes from address 0 up: zeros to byte 55, the trailer (R113). -/
def padBBytes (len : BitVec 64) : List Byte := List.replicate 56 0#8 ++ be64Bytes len

/-- `PAD1` (R111). With `FILL ≥ 56` its precondition fails and its writes would clash (log 8). -/
def execPad1 (s : State) : Outcome :=
  if s.fill.toNat < Config.padThreshold then
    .next (goTo phLdw 0#6
      { s with blk := Memory.writeBytes s.blk s.fill.toNat (pad1Bytes s.fill.toNat s.len) })
  else .refused .padShortOverfull

/-- `PADA` (R112). -/
def execPadA (s : State) : Outcome :=
  .next (goTo phLdw 0#6
    { s with blk := Memory.writeBytes s.blk s.fill.toNat (padABytes s.fill.toNat) })

/-- `PADB` (R113). -/
def execPadB (s : State) : Outcome :=
  .next (goTo phLdw 0#6
    { s with blk := Memory.writeBytes s.blk 0 (padBBytes s.len), splitb := true })

end Sys2Proof.Machine
end

