-- ==== Sys2Proof/Machine/Schedule.lean ====
section
/-! DEFINITION. The schedule expander's micro-operations: LDW, EXP (spec 42_schedule.md R125 to
R129). -/

namespace Sys2Proof.Machine

/-- `LDW i` (R126): `W[i] <- MemRead(4 i, 4)`, `i = IDX` in 0..15. -/
def execLdw (s : State) : Outcome :=
  if s.idx ≤ 15#6 then
    match Memory.read32 s.blk (4 * s.idx.toNat) with
    | .error a => .fault (.blkUnwritten a)
    | .ok x =>
      let s' := { s with w := writeAt s.w s.idx x }
      if s.idx = 15#6 then .next (goTo phExp 16#6 s') else .next (nextIndex s')
  else .refused .indexOutOfRange

/-- `EXP i` (R127): `W[i] <- σ1(W[i-2]) + W[i-7] + σ0(W[i-15]) + W[i-16]`, `i = IDX` in 16..63. -/
def execExp (s : State) : Outcome :=
  if 16#6 ≤ s.idx then
    let s' := { s with
      w := writeAt s.w s.idx
        (expandWord (readAt s.w (s.idx - 2#6)) (readAt s.w (s.idx - 7#6))
          (readAt s.w (s.idx - 15#6)) (readAt s.w (s.idx - 16#6))) }
    if s.idx = 63#6 then .next (goTo phSeed 0#6 s') else .next (nextIndex s')
  else .refused .indexOutOfRange

end Sys2Proof.Machine
end

