-- ==== Sys2Proof/Machine/Dispatch.lean ====
section
/-! DEFINITION. One arm per constructor of Instr, each one call of its meaning. -/

namespace Sys2Proof.Machine

def exec (i : Instr) (s : State) : Host.Outcome State Fault Refusal :=
  match i with
  | .init => Sys2Proof.Machine.execInit s
  | .push last count => Sys2Proof.Machine.execPush last count s
  | .digest => Sys2Proof.Machine.execDigest s
  | .status => Sys2Proof.Machine.execStatus s
  | .abort => Sys2Proof.Machine.execAbort s
  | .final => Sys2Proof.Machine.execFinal s
  | .idle => Sys2Proof.Machine.execIdle s
  | .abs => Sys2Proof.Machine.execAbs s
  | .pad1 => Sys2Proof.Machine.execPad1 s
  | .padA => Sys2Proof.Machine.execPadA s
  | .padB => Sys2Proof.Machine.execPadB s
  | .ldw => Sys2Proof.Machine.execLdw s
  | .exp => Sys2Proof.Machine.execExp s
  | .seed => Sys2Proof.Machine.execSeed s
  | .rnd => Sys2Proof.Machine.execRnd s
  | .fold => Sys2Proof.Machine.execFold s

end Sys2Proof.Machine
end

