-- ==== Sys2Proof/Machine/Fetch.lean ====
section
/-! DEFINITION. Which instruction a step runs: the order of 44_driver.md R161 between the command
port and the sequencer, and how a word is placed where the next step fetches it. -/

namespace Sys2Proof.Machine

/-- What a step finds to do. -/
inductive Fetched where
  /-- An instruction: an accepted command, or the micro-operation `PH` selects. -/
  | run (i : Instr)
  /-- An accepted command word that is no command (R75, R161 cases 4 and 5). -/
  | illegal
  /-- `PH` selects nothing (R77). -/
  | nothing
  deriving DecidableEq, Repr

/-- The micro-operation `PH` selects (R76). -/
def fetchUop (s : State) : Fetched :=
  match decodeUop s.ph with
  | .ok i => .run i
  | .error _ => .nothing

/-- R161 and R76: a presented `STATUS` is answered in any phase (case 1); any other presented
command is held while `PH ≠ IDLE`, and the sequencer takes its own step (case 2); in `IDLE` the
presented command is accepted (cases 3 to 6); with no command presented the sequencer takes its
step, which in `IDLE` is none. -/
def fetch (s : State) : Fetched :=
  match presented s with
  | none => fetchUop s
  | some t =>
    if t.word = 0x4000#16 then .run .status
    else if s.ph = phIdle then
      match decodeCommand t.word with
      | .ok i => .run i
      | .error _ => .illegal
    else fetchUop s

/-- The command word `w` with a payload of zeros, presented now, the engine idle. -/
def placeCommand (s : State) (w : BitVec 16) : State :=
  { s with
    rst := false
    ph := phIdle
    cmd := { wait := 0, word := w, payload := List.replicate (payloadLength w) 0#8 } :: s.cmd }

/-- The phase code `c` in `PH`, `IDX` at the first index of that phase, and no command presented that
would go before the micro-operation (R161). -/
def placeUop (s : State) (c : BitVec 4) : State :=
  { s with rst := false, ph := c, idx := firstIndex c, cmd := [] }

end Sys2Proof.Machine
end

