-- ==== Sys2Proof/Machine/Step.lean ====
section
/-! DEFINITION. One step of the machine: reset if its line is asserted (70_reset_and_hazards.md
R230); no step for a state the spec says a model refuses (R77, U7, U8, U10); else one command
acceptance or one micro-operation, indivisible (20_memory.md R57). -/

namespace Sys2Proof.Machine

def step (s : State) : Host.Outcome State Fault Refusal :=
  if s.rst then .next (hardReset s)
  else
    match irregularity s with
    | some r => .refused r
    | none =>
      match fetch s with
      | .run i => exec i (hostTick s)
      | .illegal => acceptIllegal s
      | .nothing => .refused .reservedPhase

/-- `n` steps, stopping at the first fault or refusal. -/
def stepRun : Nat → State → Host.Outcome State Fault Refusal
  | 0, s => .next s
  | n + 1, s =>
    match step s with
    | .next s' => stepRun n s'
    | .fault r => .fault r
    | .refused r => .refused r

/-- The sequencer on its own: the micro-operation `PH` selects, no host (R6, R76). -/
def microStep (s : State) : Host.Outcome State Fault Refusal :=
  match fetchUop s with
  | .run i => exec i s
  | .illegal => .refused .reservedPhase
  | .nothing => .refused .reservedPhase

/-- `n` micro-operations, stopping at the first fault or refusal. -/
def microRun : Nat → State → Host.Outcome State Fault Refusal
  | 0, s => .next s
  | n + 1, s =>
    match microStep s with
    | .next s' => microRun n s'
    | .fault r => .fault r
    | .refused r => .refused r

/-- `s` with the instruction of an opcode-table row placed where the next step fetches it: a `UOP`
code (rows of one byte) in `PH`, a `CMD` word (rows of two bytes) on the command port (log 14). -/
def State.withFetchWord (s : State) (nbits w : Nat) : State :=
  if nbits ≤ 8 then placeUop s (BitVec.ofNat 4 w) else placeCommand s (BitVec.ofNat 16 w)

end Sys2Proof.Machine
end

