-- ==== Sys2Proof/Machine/Function.lean ====
section
/-! DEFINITION. The function level of the engine (spec 00_scope.md R7): Schedule (R125), Compress
(R140), Pad (R117), Digest (R170), the text form of a digest (R172), and the bytes of an inspection
record (R195). A block is a list of 64 bytes, byte 0 first. -/

namespace Sys2Proof.Machine

/-- Byte `i` of a block or message. -/
def byteAt (b : List Byte) (i : Nat) : Byte := b.getD i 0#8

/-- Word `i` of a word list. -/
def wordAt (w : List Word) (i : Nat) : Word := w.getD i 0#32

/-- The first `n` words of the schedule of block `b` (R125). -/
def schedulePrefix (b : List Byte) : Nat → List Word
  | 0 => []
  | n + 1 =>
    let w := schedulePrefix b n
    w ++ [if n < 16 then
        be32 (byteAt b (4 * n)) (byteAt b (4 * n + 1)) (byteAt b (4 * n + 2)) (byteAt b (4 * n + 3))
      else expandWord (wordAt w (n - 2)) (wordAt w (n - 7)) (wordAt w (n - 15)) (wordAt w (n - 16))]

/-- `Schedule(B)`: 64 words (R125). -/
def schedule (b : List Byte) : List Word := schedulePrefix b 64

/-- The working variables after the first `n` rounds over the schedule `w` (R140). -/
def roundsPrefix (w : List Word) (v : Octet) : Nat → Octet
  | 0 => v
  | t + 1 => round (roundsPrefix w v t) (kConst (BitVec.ofNat 6 t)) (wordAt w t)

/-- `Compress(Hin, B)` (R140). -/
def compress (hin : Octet) (b : List Byte) : Octet :=
  foldOctet hin (roundsPrefix (schedule b) hin 64)

/-- The number of zero bytes between the terminator and the trailer, for a message of `n` bytes
(R117). -/
def padZeros (n : Nat) : Nat := if n % 64 < 56 then 55 - n % 64 else 119 - n % 64

/-- `Pad(M)` (R117). R117 defines it for at most `2^61 - 1` bytes; that the function goes on beyond,
with a trailer of `8 L` modulo 2^64, is the model's choice (DESIGN CHOICE, log 18): such a message
has no digest (U9), and the machine raises `LengthOverflow` instead (R213). -/
def pad (m : List Byte) : List Byte :=
  m ++ Config.terminator :: (List.replicate (padZeros m.length) 0#8
    ++ be64Bytes (BitVec.ofNat 64 (8 * m.length)))

/-- The first `n` consecutive 64-byte pieces of a byte list. -/
def blocksOf : Nat → List Byte → List (List Byte)
  | 0, _ => []
  | n + 1, l => l.take 64 :: blocksOf n (l.drop 64)

/-- `B_0, ..., B_(n-1)`: `Pad(M)` cut into 64-byte blocks (R170). -/
def messageBlocks (m : List Byte) : List (List Byte) := blocksOf ((pad m).length / 64) (pad m)

/-- `X_n` of R170: the chaining value after all blocks of the message. It is the spec's for at most
`2^61 - 1` bytes only (log 18). -/
def digestOctet (m : List Byte) : Octet := (messageBlocks m).foldl compress hinit

/-- `Digest(M)`: 32 bytes (R170). It is the spec's for at most `2^61 - 1` bytes only (log 18). -/
def digestBytes (m : List Byte) : List Byte := octetBytes (digestOctet m)

/-- The hexadecimal digit of a nibble, from `0123456789abcdef` (R172). -/
def hexDigit (x : BitVec 4) : Char :=
  ['0', '1', '2', '3', '4', '5', '6', '7', '8', '9', 'a', 'b', 'c', 'd', 'e', 'f'].getD x.toNat '0'

/-- The two digits of a byte, most significant first. -/
def hexByte (x : Byte) : List Char := [hexDigit (x.extractLsb' 4 4), hexDigit (x.extractLsb' 0 4)]

/-- The eight digits of a word, most significant first (R172). -/
def hexWord (x : Word) : List Char :=
  [hexDigit (x.extractLsb' 28 4), hexDigit (x.extractLsb' 24 4), hexDigit (x.extractLsb' 20 4),
   hexDigit (x.extractLsb' 16 4), hexDigit (x.extractLsb' 12 4), hexDigit (x.extractLsb' 8 4),
   hexDigit (x.extractLsb' 4 4), hexDigit (x.extractLsb' 0 4)]

/-- The canonical textual form of a digest: 64 lowercase hexadecimal characters (R172). -/
def digestText (x : Octet) : List Char := x.toList.flatMap hexWord

/-- The 2376 bytes of an inspection record on its port (R195). -/
def recordBytes (r : InspRecord) : List Byte :=
  be64Bytes r.seq ++ r.w.toList.flatMap wordBytes ++ r.tr.toList.flatMap octetBytes
    ++ octetBytes r.hpre ++ octetBytes r.hpost

end Sys2Proof.Machine
end

