-- ==== Sys2Proof/Machine/Assembler.lean ====
section
/-! DEFINITION. The command sequences a host writes: the transfers of a message cut into chunks
(44_driver.md R171), the pseudo-instructions and the assembler notation (30_encoding.md R80 to
R82). -/

namespace Sys2Proof.Machine

/-- A `PUSH` transfer of these bytes, presented at once (R71, R73). -/
def pushTransfer (last : Bool) (data : List Byte) : Transfer :=
  { wait := 0, word := encodePush last (BitVec.ofNat 7 data.length), payload := data }

/-- A command transfer with no payload, presented at once. -/
def plainTransfer (word : BitVec 16) : Transfer := { wait := 0, word := word, payload := [] }

/-- The `PUSH` commands of a message in the given chunks, `LAST` on the final one only (R171,
R232). -/
def messageTransfers : List (List Byte) → List Transfer
  | [] => []
  | [c] => [pushTransfer true c]
  | c :: c' :: cs => pushTransfer false c :: messageTransfers (c' :: cs)

/-- `M` cut into consecutive chunks of 64 bytes, the last possibly shorter, one empty chunk for the
empty message (R82); `n` bounds the number of full chunks before the last. -/
def hashChunks : Nat → List Byte → List (List Byte)
  | 0, m => [m]
  | n + 1, m => if m.length ≤ 64 then [m] else m.take 64 :: hashChunks n (m.drop 64)

/-- The bytes a transfer takes on the port: two for the word, and the payload (R80). -/
def transferBytes (t : Transfer) : Nat := 2 + t.payload.length

/-- One line of a command sequence (R81), the pseudo-instructions among them (R82). -/
inductive AsmLine where
  | init
  | push (last : Bool) (data : List Byte)
  | pushText (last : Bool) (text : List Char)
  | digest
  | status
  | abort
  | final
  | hash (message : List Byte)
  deriving DecidableEq, Repr

/-- The ASCII codes of a text (R81). -/
def asciiBytes (text : List Char) : List Byte := text.map (fun c => BitVec.ofNat 8 c.toNat)

/-- A line that R81 allows: at most 64 bytes in a `PUSH`, a text of ASCII characters. R81 does not
say whether the quoted text may hold a double quote or a control character: that every character
below 128 may stand in it is the model's choice (DESIGN CHOICE, log 17). -/
def AsmLine.legal : AsmLine → Bool
  | .push _ data => decide (data.length ≤ 64)
  | .pushText _ text => decide (text.length ≤ 64) && text.all (fun c => decide (c.toNat < 128))
  | .init => true
  | .digest => true
  | .status => true
  | .abort => true
  | .final => true
  | .hash _ => true

/-- The transfers of a line (R72, R73, R82). -/
def AsmLine.expand : AsmLine → List Transfer
  | .init => [plainTransfer 0x1000#16]
  | .push last data => [pushTransfer last data]
  | .pushText last text => [pushTransfer last (asciiBytes text)]
  | .digest => [plainTransfer 0x3000#16]
  | .status => [plainTransfer 0x4000#16]
  | .abort => [plainTransfer 0x5000#16]
  | .final => [plainTransfer 0x2080#16]
  | .hash m =>
    plainTransfer 0x1000#16 :: (messageTransfers (hashChunks (m.length / 64) m)
      ++ [plainTransfer 0x3000#16])

/-- The text of a line (R81), as characters. Where the spec gives no notation it is the model's
choice: the message of `HASH` as its bytes in two lowercase hex digits, a space before each, with no
count and no colon, and the lowercase digits of `PUSH` (DESIGN CHOICE, log 16); the quoted text of
`PUSH` written as it stands, with nothing escaped (DESIGN CHOICE, log 17). -/
def AsmLine.render : AsmLine → List Char
  | .init => "INIT".toList
  | .push last data =>
    "PUSH ".toList ++ Nat.toDigits 10 data.length ++ (if last then ", LAST".toList else [])
      ++ " :".toList ++ data.flatMap (fun b => ' ' :: hexByte b)
  | .pushText last text =>
    "PUSH ".toList ++ '"' :: text ++ '"' :: (if last then ", LAST".toList else [])
  | .digest => "DIGEST".toList
  | .status => "STATUS".toList
  | .abort => "ABORT".toList
  | .final => "FINAL".toList
  | .hash m => "HASH".toList ++ m.flatMap (fun b => ' ' :: hexByte b)

/-- How a micro-operation is written in a trace (R81); nothing for a command. That the index is
decimal, and the name of `IDLE`, which R81 does not list, are the model's choice (DESIGN CHOICE,
log 16). -/
def traceName (i : Instr) (idx : Index) : List Char :=
  match i with
  | .idle => "IDLE".toList
  | .abs => "ABS".toList
  | .pad1 => "PAD1".toList
  | .padA => "PADA".toList
  | .padB => "PADB".toList
  | .ldw => "LDW ".toList ++ Nat.toDigits 10 idx.toNat
  | .exp => "EXP ".toList ++ Nat.toDigits 10 idx.toNat
  | .seed => "SEED".toList
  | .rnd => "RND ".toList ++ Nat.toDigits 10 idx.toNat
  | .fold => "FOLD".toList
  | .init => []
  | .push _ _ => []
  | .digest => []
  | .status => []
  | .abort => []
  | .final => []

end Sys2Proof.Machine
end

