-- ==== Sys2Proof/Safety.lean ====
section
/-! DEFINITION. What counts as a safe state and a finished run: the invariants of spec 10_state.md
R39 and R41 with what makes them inductive, and the end of a run (44_driver.md R173). -/

namespace Sys2Proof.Machine

/-- Every byte of `BLK` below `n` has been written (R39). -/
abbrev WrittenBelow (m : Memory) (n : Nat) : Prop := ∀ a, a < n → (Memory.read m a).isSome = true

/-- The phases of a pass: `LDW`, `EXP`, `SEED`, `RND`, `FOLD` (R147). -/
abbrev InPass (s : State) : Prop := phLdw ≤ s.ph ∧ s.ph ≤ phFold

/-- The driver is between passes: `IDLE` or `ABS` (R41 item 3). -/
abbrev BetweenPasses (s : State) : Prop := s.ph = phIdle ∨ s.ph = phAbs

/-- The invariants of a reachable state. -/
structure Inv (s : State) : Prop where
  /-- `BLK` is in canonical form (log 2). -/
  blkWf : Memory.wf s.blk = true
  /-- R41 item 1. -/
  phaseLegal : s.ph ≤ phFold
  /-- R41 item 1. -/
  errLegal : s.err ≤ 6#4
  /-- R41 item 1: `POS ≤ CNT ≤ 64`. -/
  latch : s.pos ≤ s.cnt ∧ s.cnt ≤ 64#7
  /-- R33, R76: the range of `IDX` in each phase, 0 where it is ignored. -/
  indexLdw : s.ph = phLdw → s.idx ≤ 15#6
  indexExp : s.ph = phExp → 16#6 ≤ s.idx
  indexIgnored : s.ph ≠ phLdw → s.ph ≠ phExp → s.ph ≠ phRnd → s.idx = 0#6
  /-- R41 item 2. -/
  lenBytes : s.len.toNat % 8 = 0
  lenFill : s.len.toNat / 8 % 64 = s.fill.toNat
  /-- R41 item 3, and its form inside a data block's pass. -/
  seqBetween : s.st = .reading → BetweenPasses s → s.seq.toNat = s.len.toNat / 512
  seqInPass : s.st = .reading → ¬ BetweenPasses s → s.seq.toNat + 1 = s.len.toNat / 512
  /-- R41 item 4. -/
  idleState : s.ph = phIdle → s.st = .reading ∨ s.st = .done
  /-- R41 item 5. -/
  splitState : s.splitb = true → s.st = .paddingSplit ∨ s.st = .done
  /-- R41 item 6. -/
  doneIdle : s.st = .done → s.ph = phIdle
  /-- R215, R217: while a fault is pending the sequencer is idle. -/
  faultIdle : s.err ≠ 0#4 → s.ph = phIdle
  /-- The preconditions of `ABS`, `PAD1`, `PADA`, `PADB` (R164, R111 to R113). -/
  absState : s.ph = phAbs → s.st = .reading
  pad1State : s.ph = phPad1 → s.st = .paddingShort
  padAState : s.ph = phPadA → s.st = .paddingSplit ∧ s.splitb = false
  padBState : s.ph = phPadB → s.st = .paddingSplit ∧ s.splitb = false
  /-- R114: the padding shape follows `FILL`. -/
  shapeShort : s.st = .paddingShort → s.fill.toNat < 56
  shapeSplit : s.st = .paddingSplit → 56 ≤ s.fill.toNat
  /-- A data block's pass runs with an empty buffer: `FILL` went back to 0 (R164). -/
  passEmpty : s.st = .reading → ¬ BetweenPasses s → s.fill = 0#6
  /-- R39: the waiting message bytes are written, and the whole block before `LDW` reads it. -/
  fillWritten : s.st = .reading → BetweenPasses s → WrittenBelow s.blk s.fill.toNat
  padWritten : s.ph = phPad1 ∨ s.ph = phPadA → WrittenBelow s.blk s.fill.toNat
  blockWritten : s.ph = phLdw → WrittenBelow s.blk 64
  /-- D23: the transport delivers the payload each word calls for. -/
  transport : ∀ t ∈ s.cmd, Transfer.sized t = true

/-- The end of a run (R173). -/
def State.runEnded (s : State) : Bool :=
  decide (s.st = .done) && decide (s.ph = phIdle) && decide (s.err = 0#4)

/-- A safe run of `k` steps: it reaches a state, without a fault or a refusal of the model. -/
def SafeRun (k : Nat) (s t : State) : Prop := stepRun k s = .next t

end Sys2Proof.Machine
end

