-- ==== Sys2Proof/Certificates/Slice0/Obligations.lean ====
section
/-! DEFINITION. The statements for the provers. Each names the rule of spec/ it formalises, or says
that it rests on a choice of the model and names the log entry. A statement whose conclusion is
`exec i s = .next { s with … }` says three things at once: that the instruction completes, what it
writes, and its frame (every field that is not named keeps its value). -/

open Sys2Proof Sys2Proof.Machine

/-! ### Encoding -/

/-- Every encoded word of either format that decodes does so to exactly the well-formed instruction
whose encoding it is. The choice that `0x2080` is `final` is the model's (log 3). -/
def Obligations.DecodeAndEncodeAgree : Prop :=
  ∀ (e : Encoded) (i : Instr), decode e = .ok i ↔ (i.wellFormed = true ∧ encode i = e)

/-- R75: exactly which command words are illegal, by the numeric fields of the word, and what an
illegal word does when it is accepted: `ERR <- 1`, its payload discarded with it. -/
def Obligations.IllegalWordsRaiseIllegalCommand : Prop :=
  ∀ w : BitVec 16,
    ((∃ e, decodeCommand w = .error e) ↔
      (w.toNat / 4096 = 0 ∨ 6 ≤ w.toNat / 4096) ∨
      ((w.toNat / 4096 = 1 ∨ w.toNat / 4096 = 3 ∨ w.toNat / 4096 = 4 ∨ w.toNat / 4096 = 5) ∧
        w.toNat % 4096 ≠ 0) ∨
      (w.toNat / 4096 = 2 ∧ w.toNat / 256 % 16 ≠ 0)) ∧
    ∀ (s : State) (bs : List Byte) (ts : List Transfer),
      (∃ e, decodeCommand w = .error e) →
      s.rst = false → irregularity s = none → s.cmd = { wait := 0, word := w, payload := bs } :: ts →
      s.ph = phIdle → s.err = 0#4 →
      step s = .next { s with err := 1#4, cmd := ts }

/-- R71, R73: a word of the `PUSH` row decodes to `PUSH` with `LAST = w[7]` and `COUNT = w[6:0]`, not
scaled, counts 65 to 127 included. The word `0x2080` is `FINAL` (the model's choice, log 3). R80, D23:
with every word whose `OPC` is 0x2, legal or not, the transport delivers `w[6:0]` payload bytes, and
none with any other word. -/
def Obligations.PushWordFields : Prop :=
  ∀ w : BitVec 16,
    (w.toNat / 4096 = 2 → payloadLength w = w.toNat % 128) ∧
    (w.toNat / 4096 ≠ 2 → payloadLength w = 0) ∧
    (w.toNat / 256 = 0x20 → w ≠ 0x2080#16 →
      ∃ (l : Bool) (n : BitVec 7), decodeCommand w = .ok (.push l n) ∧
        (l = true ↔ w.toNat / 128 % 2 = 1) ∧ n.toNat = w.toNat % 128) ∧
    (w = 0x2080#16 → decodeCommand w = .ok .final)

/-- Words written out from the encoding tables R72, R73, R76, and words of R75, R77. -/
def Obligations.TableWordsDecode : Prop :=
  decodeCommand 0x1000#16 = .ok .init ∧ decodeCommand 0x2083#16 = .ok (.push true 3#7) ∧
  decodeCommand 0x2040#16 = .ok (.push false 64#7) ∧ decodeCommand 0x3000#16 = .ok .digest ∧
  decodeCommand 0x4000#16 = .ok .status ∧ decodeCommand 0x5000#16 = .ok .abort ∧
  decodeUop 0#4 = .ok .idle ∧ decodeUop 1#4 = .ok .abs ∧ decodeUop 2#4 = .ok .pad1 ∧
  decodeUop 3#4 = .ok .padA ∧ decodeUop 4#4 = .ok .padB ∧ decodeUop 5#4 = .ok .ldw ∧
  decodeUop 6#4 = .ok .exp ∧ decodeUop 7#4 = .ok .seed ∧ decodeUop 8#4 = .ok .rnd ∧
  decodeUop 9#4 = .ok .fold ∧ decodeCommand 0x2103#16 = .error .reservedBitsSet ∧
  decodeCommand 0x0000#16 = .error .reservedOpcode ∧ decodeUop 10#4 = .error .reservedPhase

/-! ### The step -/

/-- A step runs the decoded instruction (R76, R161). With no command on the port, or one the host
does not present yet, or one that is held, it is the micro-operation `PH` selects; a presented
`STATUS` in any phase, and any presented command in `IDLE`, is the command. What the step adds
around it is only that a command still waiting comes one step nearer (log 4). -/
def Obligations.StepRunsTheDecodedInstruction : Prop :=
  ∀ (s : State) (i : Instr), s.rst = false → irregularity s = none →
    (s.cmd = [] → decodeUop s.ph = .ok i → step s = exec i s) ∧
    (∀ n w bs ts, s.cmd = { wait := n + 1, word := w, payload := bs } :: ts →
      decodeUop s.ph = .ok i →
      step s = exec i { s with cmd := { wait := n, word := w, payload := bs } :: ts }) ∧
    (∀ w bs ts, s.cmd = { wait := 0, word := w, payload := bs } :: ts →
      (s.ph ≠ phIdle → w ≠ 0x4000#16 → decodeUop s.ph = .ok i → step s = exec i s) ∧
      (decodeCommand w = .ok .status → step s = exec .status s) ∧
      (s.ph = phIdle → decodeCommand w = .ok i → step s = exec i s))

/-- R161, case by case, for the command presented at the head of the port. -/
def Obligations.CommandAcceptanceOrder : Prop :=
  ∀ (s : State) (w : BitVec 16) (bs : List Byte) (ts : List Transfer),
    s.rst = false → irregularity s = none → s.cmd = { wait := 0, word := w, payload := bs } :: ts →
    (w = 0x4000#16 →
      step s = .next { s with cmd := ts, rsp := s.rsp ++ [.status (statusWord s)] }) ∧
    (w ≠ 0x4000#16 → s.ph ≠ phIdle →
      step s = microStep s ∧ ∀ t, step s = .next t → t.cmd = s.cmd ∧ t.rsp = s.rsp) ∧
    (w = 0x1000#16 → s.ph = phIdle → step s = exec .init s) ∧
    (w ≠ 0x4000#16 → w ≠ 0x1000#16 → s.ph = phIdle → s.err ≠ 0#4 →
      step s = .next { s with cmd := ts }) ∧
    (∀ e, decodeCommand w = .error e → s.ph = phIdle → s.err = 0#4 →
      step s = .next { s with err := 1#4, cmd := ts }) ∧
    (∀ i, decodeCommand w = .ok i → s.ph = phIdle → s.err = 0#4 → step s = exec i s)

/-- R77 with U7, U8, U10: the states and commands that a model refuses, with the reason the step
names: `PH` 10..15, `IDX` outside the range of its phase, and with a legal phase and `IDX` in its
range `CNT > 64` or `POS > CNT`, `ERR` 7..15, a presented payload that is not the transport's. Which
reason is named where several hold is the model's choice (log 10, log 11). -/
def Obligations.StepRefusesReservedStates : Prop :=
  ∀ s : State, s.rst = false →
    (10#4 ≤ s.ph → step s = .refused .reservedPhase) ∧
    (s.ph = phLdw → 16#6 ≤ s.idx → step s = .refused .indexOutOfRange) ∧
    (s.ph = phExp → s.idx ≤ 15#6 → step s = .refused .indexOutOfRange) ∧
    (s.ph ≤ phFold → (s.ph = phLdw → s.idx ≤ 15#6) → (s.ph = phExp → 16#6 ≤ s.idx) →
      ((64#7 < s.cnt ∨ s.cnt < s.pos) → step s = .refused .latchOutOfRange) ∧
      (s.pos ≤ s.cnt → s.cnt ≤ 64#7 → 7#4 ≤ s.err → step s = .refused .reservedErr) ∧
      (s.pos ≤ s.cnt → s.cnt ≤ 64#7 → s.err ≤ 6#4 →
        ∀ t ts, s.cmd = t :: ts → t.wait = 0 → t.payload.length ≠ payloadLength t.word →
        step s = .refused .payloadMismatch))

/-- Where the meanings stop by name: `LDW` at a byte nothing has written (R39, U1), `LDW` and `EXP`
outside their index ranges and `ABS` with the latch counters out of range (R77, U7), `PUSH` and
`FINAL` where the payload they would load has not the length of `COUNT` (U10; the model's choice
among what U10 allows, log 11), and the two states the model refuses because the rules give no
effect there: `PAD1` with `FILL ≥ 56` and `FOLD` in `DONE` (log 8). -/
def Obligations.MeaningsStopByName : Prop :=
  ∀ s : State,
    (s.idx ≤ 15#6 → (∃ k < 4, Memory.read s.blk (4 * s.idx.toNat + k) = none) →
      ∃ k < 4, Memory.read s.blk (4 * s.idx.toNat + k) = none ∧
        exec .ldw s = .fault (.blkUnwritten (4 * s.idx.toNat + k))) ∧
    (16#6 ≤ s.idx → exec .ldw s = .refused .indexOutOfRange) ∧
    (s.idx ≤ 15#6 → exec .exp s = .refused .indexOutOfRange) ∧
    (64#7 < s.cnt ∨ s.cnt < s.pos → exec .abs s = .refused .latchOutOfRange) ∧
    (s.ph = phIdle → s.err = 0#4 → s.st = .reading →
      (∀ (l : Bool) (n : BitVec 7), n.toNat ≤ 64 → (payload s).length ≠ n.toNat →
        exec (.push l n) s = .refused .payloadMismatch) ∧
      (payload s ≠ [] → exec .final s = .refused .payloadMismatch)) ∧
    (56 ≤ s.fill.toNat → exec .pad1 s = .refused .padShortOverfull) ∧
    (s.st = .done → exec .fold s = .refused .foldInDone)

/-! ### Commands -/

/-- R162: what `INIT` writes, in any driver state and with any fault pending, and that it leaves the
status word `0x00000004`; everything else, the unspecified arrays among them, keeps its value. -/
def Obligations.InitStartsAMessage : Prop :=
  ∀ s : State, s.ph = phIdle →
    exec .init s = .next { s with
      h := { a := 0x6a09e667, b := 0xbb67ae85, c := 0x3c6ef372, d := 0xa54ff53a,
             e := 0x510e527f, f := 0x9b05688c, g := 0x1f83d9ab, h := 0x5be0cd19 }
      len := 0, fill := 0, st := .reading, seq := 0, err := 0, idx := 0, splitb := false
      cnt := 0, pos := 0, last := false, cmd := s.cmd.tail } ∧
    ∀ t, exec .init s = .next t → statusWord t = 0x00000004#32

/-- R163: the three outcomes of an accepted `PUSH`, the state check before the count check (R214):
`NotReading` (R209), `BadCount` (R210), or the chunk latch loaded with the payload, byte `k` into
`CHUNK[k]`, and the sequencer at `ABS`. -/
def Obligations.PushLoadsTheChunkLatch : Prop :=
  ∀ (s : State) (l : Bool) (n : BitVec 7), s.ph = phIdle → s.err = 0#4 →
    (s.st ≠ .reading →
      exec (.push l n) s = .next { s with err := 2#4, cmd := s.cmd.tail }) ∧
    (s.st = .reading → 64 < n.toNat →
      exec (.push l n) s = .next { s with err := 3#4, cmd := s.cmd.tail }) ∧
    (∀ t ts, s.st = .reading → n.toNat ≤ 64 → s.cmd = t :: ts → t.payload.length = n.toNat →
      ∃ chunk', exec (.push l n) s = .next { s with
          chunk := chunk', cnt := n, pos := 0, last := l, ph := phAbs, idx := 0, cmd := ts } ∧
        ∀ k : Index, readAt chunk' k =
          if k.toNat < n.toNat then t.payload.getD k.toNat 0 else readAt s.chunk k)

/-- R82 `FINAL`, the word `0x2080` with no payload: the effect of `PUSH 0, LAST` (R163). -/
def Obligations.FinalIsAnEmptyLastPush : Prop :=
  ∀ s : State, exec .final s = exec (.push true 0#7) s ∧
    (s.ph = phIdle → s.err = 0#4 → s.st = .reading →
      ∀ t ts, s.cmd = t :: ts → t.payload = [] →
      exec .final s = .next { s with
        cnt := 0, pos := 0, last := true, ph := phAbs, idx := 0, cmd := ts })

/-- R166, R53, R211: an accepted `DIGEST` in `DONE` responds the 32 digest bytes, byte `4j+k` being
`H[j][31-8k : 24-8k]`, and changes no engine state; anywhere else it raises `DigestNotReady` and
responds nothing. -/
def Obligations.DigestRespondsOnlyInDone : Prop :=
  ∀ s : State, s.ph = phIdle → s.err = 0#4 →
    (s.st = .done → ∃ bs : List Byte, bs.length = 32 ∧
      (∀ (j : Fin 8) (k : Fin 4),
        bs[4 * j.val + k.val]? = some ((s.h.get j).extractLsb' (24 - 8 * k.val) 8)) ∧
      exec .digest s = .next { s with rsp := s.rsp ++ [.digest bs], cmd := s.cmd.tail }) ∧
    (s.st ≠ .done → exec .digest s = .next { s with err := 4#4, cmd := s.cmd.tail })

/-- R37, R29, R167: the fields of the status word with the four codes of `ST`, its reserved bits, its
value after reset; and `STATUS` responds it in every state and writes nothing. -/
def Obligations.StatusRespondsTheStatusWord : Prop :=
  (∀ s : State,
    (s.st = .reading → (statusWord s).extractLsb' 0 2 = 0#2) ∧
    (s.st = .paddingShort → (statusWord s).extractLsb' 0 2 = 1#2) ∧
    (s.st = .paddingSplit → (statusWord s).extractLsb' 0 2 = 2#2) ∧
    (s.st = .done → (statusWord s).extractLsb' 0 2 = 3#2) ∧
    ((statusWord s).getLsbD 2 = true ↔ s.ph = phIdle) ∧
    ((statusWord s).getLsbD 3 = true ↔ s.st = .done ∧ s.ph = phIdle ∧ s.err = 0#4) ∧
    (statusWord s).extractLsb' 4 4 = s.err ∧
    (statusWord s).extractLsb' 8 6 = s.fill ∧
    (statusWord s).extractLsb' 14 18 = 0#18 ∧
    exec .status s =
      .next { s with rsp := s.rsp ++ [.status (statusWord s)], cmd := s.cmd.tail }) ∧
  statusWord State.reset = 0x00000004#32

/-- R168, R212: an accepted `ABORT` raises `SourceAbort`, and nothing else changes. -/
def Obligations.AbortRaisesSourceAbort : Prop :=
  ∀ s : State, s.ph = phIdle → s.err = 0#4 →
    exec .abort s = .next { s with err := 5#4, cmd := s.cmd.tail }

/-- R161 cases 2 and 4 as the meanings carry them: while the engine is busy the four commands and
`FINAL` are held, with nothing changed (that the meaning itself answers the unchanged state is the
model's form, log 6); while a fault is pending the commands but `INIT` are ignored. -/
def Obligations.CommandsAreHeldOrIgnored : Prop :=
  ∀ (s : State) (l : Bool) (n : BitVec 7),
    (s.ph ≠ phIdle → exec .init s = .next s ∧ exec (.push l n) s = .next s ∧
      exec .final s = .next s ∧ exec .digest s = .next s ∧ exec .abort s = .next s) ∧
    (s.ph = phIdle → s.err ≠ 0#4 →
      exec (.push l n) s = .next { s with cmd := s.cmd.tail } ∧
      exec .final s = .next { s with cmd := s.cmd.tail } ∧
      exec .digest s = .next { s with cmd := s.cmd.tail } ∧
      exec .abort s = .next { s with cmd := s.cmd.tail })

/-! ### The block driver -/

/-- R76, R224: `IDLE` does nothing; idling keeps all state (the step as such is the model's form,
log 13). -/
def Obligations.IdleKeepsAllState : Prop := ∀ s : State, exec .idle s = .next s

/-- R164: the branches of `ABS`, for a bit count that is a multiple of 8 (R27) and chunk counters in
range (R41). -/
def Obligations.AbsAbsorbsOneByteOrEndsTheChunk : Prop :=
  ∀ s : State, s.pos ≤ s.cnt → s.cnt ≤ 64#7 → s.len.toNat % 8 = 0 →
    (s.pos < s.cnt → s.len.toNat = 2 ^ 64 - 8 →
      exec .abs s = .next { s with err := 6#4, ph := phIdle }) ∧
    (s.pos < s.cnt → s.len.toNat ≠ 2 ^ 64 - 8 → ∃ (blk' : Memory) (len' : BitVec 64) (pos' : BitVec 7),
      len'.toNat = s.len.toNat + 8 ∧ pos'.toNat = s.pos.toNat + 1 ∧
      (∀ a, Memory.read blk' a =
        if a = s.fill.toNat then some (readAt s.chunk (BitVec.ofNat 6 s.pos.toNat))
        else Memory.read s.blk a) ∧
      (s.fill.toNat = 63 → exec .abs s = .next { s with
        blk := blk', len := len', pos := pos', fill := 0, ph := phLdw, idx := 0 }) ∧
      (s.fill.toNat ≠ 63 → ∃ fill' : BitVec 6, fill'.toNat = s.fill.toNat + 1 ∧
        exec .abs s = .next { s with blk := blk', len := len', pos := pos', fill := fill' })) ∧
    (s.pos = s.cnt → s.last = false → exec .abs s = .next { s with ph := phIdle }) ∧
    (s.pos = s.cnt → s.last = true → s.fill.toNat < 56 →
      exec .abs s = .next { s with st := .paddingShort, ph := phPad1 }) ∧
    (s.pos = s.cnt → s.last = true → 56 ≤ s.fill.toNat →
      exec .abs s = .next { s with st := .paddingSplit, ph := phPadA })

/-- The overflow test of `ABS` for every bit count, also one that is no multiple of 8: absorbing a
byte that would take `LEN` to 2^64 or more faults instead (R27 "it never wraps"; that the test is an
inequality is read from the spec, log 9). -/
def Obligations.LenNeverWraps : Prop :=
  ∀ s : State, s.pos < s.cnt → s.cnt ≤ 64#7 →
    (2 ^ 64 ≤ s.len.toNat + 8 → exec .abs s = .next { s with err := 6#4, ph := phIdle }) ∧
    (s.len.toNat + 8 < 2 ^ 64 → ∃ t, exec .abs s = .next t ∧ t.len.toNat = s.len.toNat + 8)

/-! ### Padding -/

/-- R111: the block `PAD1` leaves, byte by byte; the message bytes and everything else are kept. -/
def Obligations.Pad1GeneratesTheSinglePaddingBlock : Prop :=
  ∀ s : State, s.fill.toNat ≤ 55 →
    ∃ blk' : Memory,
      exec .pad1 s = .next { s with blk := blk', ph := phLdw, idx := 0 } ∧
      ∀ a, Memory.read blk' a =
        if a < s.fill.toNat then Memory.read s.blk a
        else if a = s.fill.toNat then some 0x80
        else if a ≤ 55 then some 0x00
        else if a ≤ 63 then some (s.len.extractLsb' (56 - 8 * (a - 56)) 8)
        else Memory.read s.blk a

/-- R112: the block `PADA` leaves, byte by byte. -/
def Obligations.PadAGeneratesSplitBlockA : Prop :=
  ∀ s : State, ∃ blk' : Memory,
    exec .padA s = .next { s with blk := blk', ph := phLdw, idx := 0 } ∧
    ∀ a, Memory.read blk' a =
      if a < s.fill.toNat then Memory.read s.blk a
      else if a = s.fill.toNat then some 0x80
      else if a ≤ 63 then some 0x00
      else Memory.read s.blk a

/-- R113: the block `PADB` leaves, byte by byte, and `SPLITB <- 1`. -/
def Obligations.PadBGeneratesSplitBlockB : Prop :=
  ∀ s : State, ∃ blk' : Memory,
    exec .padB s = .next { s with blk := blk', splitb := true, ph := phLdw, idx := 0 } ∧
    ∀ a, Memory.read blk' a =
      if a ≤ 55 then some 0x00
      else if a ≤ 63 then some (s.len.extractLsb' (56 - 8 * (a - 56)) 8)
      else Memory.read s.blk a

/-- R117: the length of `Pad(M)` is `L + 9 + z` with `z = (55 - L) mod 64`, the least multiple of 64
that is at least `L + 9`, and the number of blocks. That it says so of messages longer than
`2^61 - 1` bytes too, of which R117 does not speak, is the model's choice (log 18). -/
def Obligations.PaddedLengthIsTheLeastMultiple : Prop :=
  ∀ m : List Byte,
    (pad m).length % 64 = 0 ∧ m.length + 9 ≤ (pad m).length ∧ (pad m).length < m.length + 9 + 64 ∧
    (padZeros m.length : Int) = (55 - (m.length : Int)) % 64 ∧
    (messageBlocks m).length =
      (if m.length % 64 < 56 then m.length / 64 + 1 else m.length / 64 + 2) ∧
    (messageBlocks m).flatten = pad m ∧ ∀ b ∈ messageBlocks m, b.length = 64

/-! ### Schedule and compression -/

/-- R126: `LDW i` loads the four bytes at `4 i`, the lowest address most significant, into `W[i]`,
and moves on; nothing else is written. -/
def Obligations.LdwLoadsABigEndianWord : Prop :=
  ∀ (s : State) (b0 b1 b2 b3 : Byte), s.idx.toNat ≤ 15 →
    Memory.read s.blk (4 * s.idx.toNat) = some b0 →
    Memory.read s.blk (4 * s.idx.toNat + 1) = some b1 →
    Memory.read s.blk (4 * s.idx.toNat + 2) = some b2 →
    Memory.read s.blk (4 * s.idx.toNat + 3) = some b3 →
    ∃ (w' : Vector Word 64) (x : Word),
      x.toNat = b0.toNat * 2 ^ 24 + b1.toNat * 2 ^ 16 + b2.toNat * 2 ^ 8 + b3.toNat ∧
      (∀ j, readAt w' j = if j = s.idx then x else readAt s.w j) ∧
      (s.idx.toNat = 15 → exec .ldw s = .next { s with w := w', ph := phExp, idx := 16 }) ∧
      (s.idx.toNat ≠ 15 → exec .ldw s = .next { s with w := w', idx := s.idx + 1 })

/-- R127: the schedule recurrence of `EXP i`, and the next position; nothing else is written. -/
def Obligations.ExpComputesTheRecurrence : Prop :=
  ∀ s : State, 16 ≤ s.idx.toNat →
    ∃ w' : Vector Word 64,
      (∀ j, readAt w' j = if j = s.idx then
          ssig1 (readAt s.w (BitVec.ofNat 6 (s.idx.toNat - 2)))
            + readAt s.w (BitVec.ofNat 6 (s.idx.toNat - 7))
            + ssig0 (readAt s.w (BitVec.ofNat 6 (s.idx.toNat - 15)))
            + readAt s.w (BitVec.ofNat 6 (s.idx.toNat - 16))
        else readAt s.w j) ∧
      (s.idx.toNat = 63 → exec .exp s = .next { s with w := w', ph := phSeed, idx := 0 }) ∧
      (s.idx.toNat ≠ 63 → exec .exp s = .next { s with w := w', idx := s.idx + 1 })

/-- R141: `SEED` copies the accumulator into the working variables and `HPRE`. -/
def Obligations.SeedCopiesTheAccumulator : Prop :=
  ∀ s : State, exec .seed s = .next { s with v := s.h, hpre := s.h, ph := phRnd, idx := 0 }

/-- R142, R145: one round, all right-hand sides on the old values; the new working variables into
`TR[t]`; the next position; nothing else is written. -/
def Obligations.RndComputesOneRound : Prop :=
  ∀ (s : State) (t1 t2 : Word),
    t1 = s.v.h + bsig1 s.v.e + ch s.v.e s.v.f s.v.g + kConst s.idx + readAt s.w s.idx →
    t2 = bsig0 s.v.a + maj s.v.a s.v.b s.v.c →
    ∃ (v' : Octet) (tr' : Vector Octet 64),
      v'.a = t1 + t2 ∧ v'.b = s.v.a ∧ v'.c = s.v.b ∧ v'.d = s.v.c ∧ v'.e = s.v.d + t1 ∧
      v'.f = s.v.e ∧ v'.g = s.v.f ∧ v'.h = s.v.g ∧
      (∀ j, readAt tr' j = if j = s.idx then v' else readAt s.tr j) ∧
      (s.idx.toNat = 63 → exec .rnd s = .next { s with v := v', tr := tr', ph := phFold, idx := 0 }) ∧
      (s.idx.toNat ≠ 63 → exec .rnd s = .next { s with v := v', tr := tr', idx := s.idx + 1 })

/-- R143: the fold, the one record with its five fields, the sequence number, and the next phase by
the driver state; nothing else is written. -/
def Obligations.FoldUpdatesAccumulatorAndEmitsARecord : Prop :=
  ∀ (s : State) (h' : Octet),
    (∀ j, h'.get j = s.h.get j + s.v.get j) →
    ∀ insp', insp' = s.insp ++ [{ seq := s.seq, w := s.w, tr := s.tr, hpre := s.hpre, hpost := h' }] →
    (s.st = .reading → exec .fold s = .next { s with
      h := h', insp := insp', seq := s.seq + 1, idx := 0, ph := phAbs }) ∧
    (s.st = .paddingShort → exec .fold s = .next { s with
      h := h', insp := insp', seq := s.seq + 1, idx := 0, st := .done, ph := phIdle }) ∧
    (s.st = .paddingSplit → s.splitb = false → exec .fold s = .next { s with
      h := h', insp := insp', seq := s.seq + 1, idx := 0, ph := phPadB }) ∧
    (s.st = .paddingSplit → s.splitb = true → exec .fold s = .next { s with
      h := h', insp := insp', seq := s.seq + 1, idx := 0, st := .done, ph := phIdle })

/-- R91: bit `i` of `rotr(w, n)` is bit `(i + n) mod 32` of `w`, for every amount 1..31. -/
def Obligations.RotrPermutesBits : Prop :=
  ∀ (w : Word) (n i : Nat), 1 ≤ n → n ≤ 31 → i < 32 →
    (rotr w n).getLsbD i = w.getLsbD ((i + n) % 32)

/-- R96 to R99: every bit of the four sigma functions, by the bits of the operand. -/
def Obligations.SigmaFunctionsBitByBit : Prop :=
  ∀ (w : Word) (i : Nat), i < 32 →
    (ssig0 w).getLsbD i =
      ((w.getLsbD ((i + 7) % 32) ^^ w.getLsbD ((i + 18) % 32)) ^^ w.getLsbD (i + 3)) ∧
    (ssig1 w).getLsbD i =
      ((w.getLsbD ((i + 17) % 32) ^^ w.getLsbD ((i + 19) % 32)) ^^ w.getLsbD (i + 10)) ∧
    (bsig0 w).getLsbD i =
      ((w.getLsbD ((i + 2) % 32) ^^ w.getLsbD ((i + 13) % 32)) ^^ w.getLsbD ((i + 22) % 32)) ∧
    (bsig1 w).getLsbD i =
      ((w.getLsbD ((i + 6) % 32) ^^ w.getLsbD ((i + 11) % 32)) ^^ w.getLsbD ((i + 25) % 32))

/-- R94, R95: `Ch` selects bit by bit, `Maj` is the majority bit by bit. -/
def Obligations.ChSelectsAndMajVotes : Prop :=
  ∀ (x y z : Word) (i : Nat), i < 32 →
    (ch x y z).getLsbD i = (if x.getLsbD i then y.getLsbD i else z.getLsbD i) ∧
    ((maj x y z).getLsbD i = true ↔
      2 ≤ (x.getLsbD i).toNat + (y.getLsbD i).toNat + (z.getLsbD i).toNat)

/-! ### Whole passes and whole messages -/

/-- R128, R125: from `LDW 0` with the block fully written, the 64 micro-operations of the expander
leave `W = Schedule(BLK)`, whatever `W` held before, change nothing else, and reach `SEED`. -/
def Obligations.ExpanderComputesTheSchedule : Prop :=
  ∀ (s : State) (b : List Byte), b.length = 64 → s.ph = phLdw → s.idx = 0#6 →
    (∀ a, a < 64 → Memory.read s.blk a = b[a]?) →
    ∃ w' : Vector Word 64, w'.toList = schedule b ∧
      microRun 64 s = .next { s with w := w', ph := phSeed, idx := 0 }

/-- R144: from `RND 0` exactly 64 rounds execute, whatever the data: after `k < 64` micro-operations
the sequencer stands at `RND k`, and after 64 at `FOLD`. -/
def Obligations.ExactlySixtyFourRounds : Prop :=
  ∀ s : State, s.ph = phRnd → s.idx = 0#6 →
    (∀ k, k < 64 → ∃ t, microRun k s = .next t ∧ t.ph = phRnd ∧ t.idx.toNat = k) ∧
    ∃ t, microRun 64 s = .next t ∧ t.ph = phFold

/-- R147: a pass. From `LDW 0` with a fully written block `B`, 130 micro-operations leave
`H = Compress(Hin, B)`, `W = Schedule(B)`, `SEQ` one higher, `LEN`, `FILL`, `BLK` and the ports but
`INSP` as they were, one record with the accumulator before and after, and the next phase of R143. -/
def Obligations.PassEqualsCompress : Prop :=
  ∀ (s : State) (b : List Byte), b.length = 64 → s.ph = phLdw → s.idx = 0#6 → s.st ≠ .done →
    (∀ a, a < 64 → Memory.read s.blk a = b[a]?) →
    ∃ t r, microRun 130 s = .next t ∧
      t.h = compress s.h b ∧ t.w.toList = schedule b ∧ t.seq = s.seq + 1 ∧
      t.len = s.len ∧ t.fill = s.fill ∧ t.blk = s.blk ∧ t.err = s.err ∧ t.splitb = s.splitb ∧
      t.chunk = s.chunk ∧ t.cnt = s.cnt ∧ t.pos = s.pos ∧ t.last = s.last ∧
      t.cmd = s.cmd ∧ t.rsp = s.rsp ∧ t.rst = s.rst ∧ t.idx = 0 ∧
      t.insp = s.insp ++ [r] ∧ r.seq = s.seq ∧ r.w = t.w ∧ r.hpre = s.h ∧ r.hpost = t.h ∧
      (∀ k : Index, readAt r.tr k = roundsPrefix (schedule b) s.h (k.toNat + 1)) ∧
      (s.st = .reading → t.ph = phAbs ∧ t.st = .reading) ∧
      (s.st = .paddingShort → t.ph = phIdle ∧ t.st = .done) ∧
      (s.st = .paddingSplit → s.splitb = false → t.ph = phPadB ∧ t.st = .paddingSplit) ∧
      (s.st = .paddingSplit → s.splitb = true → t.ph = phIdle ∧ t.st = .done)

/-- R174: from every state of the invariant in which the sequencer is at work, it reaches `IDLE`
within 457 micro-operations. -/
def Obligations.IdleWithin457MicroOperations : Prop :=
  ∀ s : State, Inv s → s.ph ≠ phIdle →
    ∃ k t, k ≤ 457 ∧ microRun k s = .next t ∧ t.ph = phIdle

/-- R171: from a state after reset or `INIT`, the `PUSH` commands of a message cut in any way into
chunks of 0..64 bytes, then `DIGEST`, end with the digest of the message on the response port,
whatever the chunking. What the arrays hold before does not matter: the hypotheses name the
registers of R40 and R162, and that `BLK` is in the model's canonical form (log 2). -/
def Obligations.MachineComputesTheDigest : Prop :=
  ∀ (s : State) (chunks : List (List Byte)) (m : List Byte),
    chunks ≠ [] → (∀ c ∈ chunks, c.length ≤ 64) → m = chunks.flatten → m.length ≤ 2 ^ 61 - 1 →
    s.h = hinit → s.len = 0 → s.fill = 0 → s.st = .reading → s.seq = 0 → s.err = 0 →
    s.ph = phIdle → s.idx = 0 → s.splitb = false → s.cnt = 0 → s.pos = 0 → s.last = false →
    s.rst = false → Memory.wf s.blk = true →
    s.cmd = messageTransfers chunks ++ [{ wait := 0, word := 0x3000#16, payload := [] }] →
    ∃ k t, stepRun k s = .next t ∧
      t.ph = phIdle ∧ t.st = .done ∧ t.err = 0 ∧ t.h = digestOctet m ∧
      t.len.toNat = 8 * m.length ∧ t.fill.toNat = m.length % 64 ∧
      t.seq.toNat = (messageBlocks m).length ∧ t.cmd = [] ∧
      t.rsp = s.rsp ++ [.digest (digestBytes m)]

/-- R172: the text form of a digest is 64 characters of `0123456789abcdef`, character `8j + d` being
the digit of the nibble `H[j][31-4d : 28-4d]`, which is the plain hex dump of the 32 raw bytes
(R53). -/
def Obligations.DigestTextIs64HexCharacters : Prop :=
  ∀ x : Octet, (digestText x).length = 64 ∧
    (∀ (j d : Fin 8), (digestText x)[8 * j.val + d.val]? =
      "0123456789abcdef".toList[((x.get j).extractLsb' (28 - 4 * d.val) 4).toNat]?) ∧
    (octetBytes x).length = 32 ∧
    digestText x = (octetBytes x).flatMap hexByte

/-- R82, R81: the chunks of `HASH M` are consecutive pieces of `M` of at most 64 bytes, all but the
last of exactly 64, at least one, and none of them empty, but that the empty message has one empty
chunk. -/
def Obligations.HashCutsTheMessageIntoChunks : Prop :=
  ∀ m : List Byte,
    (hashChunks (m.length / 64) m).flatten = m ∧ hashChunks (m.length / 64) m ≠ [] ∧
    (∀ c ∈ hashChunks (m.length / 64) m, c.length ≤ 64) ∧
    (∀ c ∈ (hashChunks (m.length / 64) m).dropLast, c.length = 64) ∧
    (m ≠ [] → ∀ c ∈ hashChunks (m.length / 64) m, c ≠ []) ∧
    (m = [] → hashChunks (m.length / 64) m = [[]])

/-- R195: an inspection record takes 8 + 256 + 2048 + 32 + 32 = 2376 bytes on its port, and which
byte stands at each of them: `seq` at 0, `W[i]` at `8 + 4i`, `TR[t][j]` at `264 + 32t + 4j`,
`HPRE[j]` at `2312 + 4j`, `HPOST[j]` at `2344 + 4j`, each most significant byte first. -/
def Obligations.RecordTakes2376Bytes : Prop :=
  ∀ r : InspRecord,
    (recordBytes r).length = 2376 ∧
    (∀ k : Fin 8, (recordBytes r)[k.val]? = some (r.seq.extractLsb' (56 - 8 * k.val) 8)) ∧
    (∀ (i : Fin 64) (k : Fin 4), (recordBytes r)[8 + 4 * i.val + k.val]? =
      some ((r.w.get i).extractLsb' (24 - 8 * k.val) 8)) ∧
    (∀ (t : Fin 64) (j : Fin 8) (k : Fin 4),
      (recordBytes r)[264 + 32 * t.val + 4 * j.val + k.val]? =
        some (((r.tr.get t).get j).extractLsb' (24 - 8 * k.val) 8)) ∧
    (∀ (j : Fin 8) (k : Fin 4), (recordBytes r)[2312 + 4 * j.val + k.val]? =
      some ((r.hpre.get j).extractLsb' (24 - 8 * k.val) 8)) ∧
    (∀ (j : Fin 8) (k : Fin 4), (recordBytes r)[2344 + 4 * j.val + k.val]? =
      some ((r.hpost.get j).extractLsb' (24 - 8 * k.val) 8))

/-! ### Rules about the whole machine -/

/-- R11, R50: a read of `BLK` after a write, and the canonical form kept (the form is the model's,
log 2). -/
def Obligations.BlockBufferReadAfterWrite : Prop :=
  ∀ (m : Memory) (x : Nat) (b : Byte),
    (∀ y, Memory.read (Memory.write m x b) y = if y = x then some b else Memory.read m y) ∧
    (Memory.wf m = true → x < 64 → Memory.wf (Memory.write m x b) = true)

/-- The state right after reset meets the invariant (R40, R41). -/
def Obligations.ResetMeetsTheInvariant : Prop := Inv State.reset

/-- R41 with R39, R205, R223: from every state of the invariant a step answers a next state, never a
fault or a refusal of the model, and the invariant holds there again. So no reachable state reads an
unwritten byte, and the engine is never stuck. -/
def Obligations.StepKeepsTheInvariantAndNeverStops : Prop :=
  ∀ s : State, Inv s → ∃ t, step s = .next t ∧ Inv t

/-- R146, R23: a step changes the accumulator only as hardware reset, as an accepted `INIT` (to
`HINIT`), or as `FOLD` (adding the working variables word by word). -/
def Obligations.AccumulatorWrittenOnlyByFoldInitAndReset : Prop :=
  ∀ s t : State, step s = .next t →
    t.h = s.h ∨ (s.rst = true ∧ t.h = hinit) ∨
    (fetch s = .run .init ∧ s.ph = phIdle ∧ t.h = hinit) ∨
    (fetch s = .run .fold ∧ s.ph = phFold ∧ ∀ j, t.h.get j = s.h.get j + s.v.get j)

/-- R160: the driver state takes exactly the transitions of the table: a change is one of its rows,
with the row's condition, and each row is taken where its condition holds. -/
def Obligations.DriverStateTransitions : Prop :=
  ∀ s t : State, Inv s → step s = .next t →
    (t.st = s.st ∨ (s.rst = true ∧ t.st = .reading) ∨
      (fetch s = .run .init ∧ s.ph = phIdle ∧ t.st = .reading) ∨
      (s.st = .reading ∧ t.st = .paddingShort ∧ s.ph = phAbs ∧ s.pos = s.cnt ∧ s.last = true ∧
        s.fill.toNat < 56) ∨
      (s.st = .reading ∧ t.st = .paddingSplit ∧ s.ph = phAbs ∧ s.pos = s.cnt ∧ s.last = true ∧
        56 ≤ s.fill.toNat) ∨
      (s.st = .paddingShort ∧ t.st = .done ∧ s.ph = phFold) ∨
      (s.st = .paddingSplit ∧ t.st = .done ∧ s.ph = phFold ∧ s.splitb = true)) ∧
    (s.rst = true → t.st = .reading) ∧
    (s.rst = false →
      (fetch s = .run .init → t.st = .reading) ∧
      (fetch s = .run .abs → s.pos < s.cnt ∨ s.last = false → t.st = .reading) ∧
      (fetch s = .run .abs → s.pos = s.cnt → s.last = true → s.fill.toNat < 56 →
        t.st = .paddingShort) ∧
      (fetch s = .run .abs → s.pos = s.cnt → s.last = true → 56 ≤ s.fill.toNat →
        t.st = .paddingSplit) ∧
      (fetch s = .run .fold → s.st = .reading → t.st = .reading) ∧
      (fetch s = .run .fold → s.st = .paddingShort → t.st = .done) ∧
      (fetch s = .run .fold → s.st = .paddingSplit → s.splitb = false → t.st = .paddingSplit) ∧
      (fetch s = .run .fold → s.st = .paddingSplit → s.splitb = true → t.st = .done))

/-- R173, R160: in `DONE` nothing but reset and `INIT` changes the accumulator, the driver state or
the phase. -/
def Obligations.DoneIsTerminal : Prop :=
  ∀ s t : State, Inv s → s.st = .done → s.rst = false → fetch s ≠ .run .init →
    step s = .next t → t.st = .done ∧ t.h = s.h ∧ t.ph = phIdle ∧ t.len = s.len ∧ t.fill = s.fill ∧
      t.seq = s.seq

/-- R31, R217, R215: a pending fault keeps its cause until `INIT` or reset, and nothing else of the
engine moves while it is pending; the one response is that of `STATUS`, the status word. -/
def Obligations.FirstFaultIsKept : Prop :=
  ∀ s t : State, Inv s → s.err ≠ 0#4 → s.rst = false → fetch s ≠ .run .init → step s = .next t →
    t = { s with cmd := t.cmd, rsp := t.rsp } ∧
    (fetch s = .run .status → t.rsp = s.rsp ++ [.status (statusWord s)]) ∧
    (fetch s ≠ .run .status → t.rsp = s.rsp)

/-- R207: a step sets `ERR` to a cause only where the table says that cause is raised. -/
def Obligations.FaultsAreRaisedWhereTheTableSays : Prop :=
  ∀ s t : State, Inv s → step s = .next t → t.err ≠ s.err → t.err ≠ 0#4 →
    s.err = 0#4 ∧ t.ph = phIdle ∧ t.h = s.h ∧ t.st = s.st ∧
    ((t.err = 1#4 ∧ fetch s = .illegal) ∨
     (t.err = 2#4 ∧ s.st ≠ .reading ∧ ∃ l n, fetch s = .run (.push l n) ∨ fetch s = .run .final) ∨
     (t.err = 3#4 ∧ s.st = .reading ∧ ∃ l n, fetch s = .run (.push l n) ∧ 64 < n.toNat) ∨
     (t.err = 4#4 ∧ s.st ≠ .done ∧ fetch s = .run .digest) ∨
     (t.err = 5#4 ∧ fetch s = .run .abort) ∨
     (t.err = 6#4 ∧ fetch s = .run .abs ∧ s.pos < s.cnt ∧ s.len.toNat = 2 ^ 64 - 8))

/-- R211, R222, R235: a digest appears on the response port only in `DONE`, idle and with no fault
pending, and it is the accumulator's bytes. -/
def Obligations.NoDigestBeforeDone : Prop :=
  ∀ (s t : State) (bs : List Byte), step s = .next t → t.rsp = s.rsp ++ [.digest bs] →
    s.st = .done ∧ s.ph = phIdle ∧ s.err = 0#4 ∧ bs = octetBytes s.h

/-- R169: the next position, row by row, for the states of the invariant: the rows of `IDLE` for a
step that accepts a command, the others for a micro-operation. -/
def Obligations.NextPositionTable : Prop :=
  (∀ s t : State, Inv s → s.rst = false → s.ph = phIdle → step s = .next t →
    (s.err = 0#4 → t.err = 0#4 → ((∃ l n, fetch s = .run (.push l n)) ∨ fetch s = .run .final) →
      t.ph = phAbs ∧ t.idx = 0) ∧
    ((t.err ≠ 0#4 ∨ (∀ l n, fetch s ≠ .run (.push l n)) ∧ fetch s ≠ .run .final) →
      t.ph = phIdle ∧ t.idx = 0)) ∧
  ∀ s t : State, Inv s → s.ph ≠ phIdle → microStep s = .next t →
    (s.ph = phAbs → s.pos < s.cnt → s.len.toNat = 2 ^ 64 - 8 → t.ph = phIdle ∧ t.idx = 0) ∧
    (s.ph = phAbs → s.pos < s.cnt → s.len.toNat ≠ 2 ^ 64 - 8 → s.fill.toNat < 63 →
      t.ph = phAbs ∧ t.idx = 0) ∧
    (s.ph = phAbs → s.pos < s.cnt → s.len.toNat ≠ 2 ^ 64 - 8 → s.fill.toNat = 63 →
      t.ph = phLdw ∧ t.idx = 0) ∧
    (s.ph = phAbs → s.pos = s.cnt → s.last = false → t.ph = phIdle ∧ t.idx = 0) ∧
    (s.ph = phAbs → s.pos = s.cnt → s.last = true → s.fill.toNat < 56 → t.ph = phPad1 ∧ t.idx = 0) ∧
    (s.ph = phAbs → s.pos = s.cnt → s.last = true → 56 ≤ s.fill.toNat → t.ph = phPadA ∧ t.idx = 0) ∧
    (s.ph = phPad1 ∨ s.ph = phPadA ∨ s.ph = phPadB → t.ph = phLdw ∧ t.idx = 0) ∧
    (s.ph = phLdw → s.idx.toNat < 15 → t.ph = phLdw ∧ t.idx.toNat = s.idx.toNat + 1) ∧
    (s.ph = phLdw → s.idx.toNat = 15 → t.ph = phExp ∧ t.idx.toNat = 16) ∧
    (s.ph = phExp → s.idx.toNat < 63 → t.ph = phExp ∧ t.idx.toNat = s.idx.toNat + 1) ∧
    (s.ph = phExp → s.idx.toNat = 63 → t.ph = phSeed ∧ t.idx = 0) ∧
    (s.ph = phSeed → t.ph = phRnd ∧ t.idx = 0) ∧
    (s.ph = phRnd → s.idx.toNat < 63 → t.ph = phRnd ∧ t.idx.toNat = s.idx.toNat + 1) ∧
    (s.ph = phRnd → s.idx.toNat = 63 → t.ph = phFold ∧ t.idx = 0) ∧
    (s.ph = phFold → s.st = .reading → t.ph = phAbs ∧ t.idx = 0) ∧
    (s.ph = phFold → s.st = .paddingShort → t.ph = phIdle ∧ t.idx = 0) ∧
    (s.ph = phFold → s.st = .paddingSplit → s.splitb = false → t.ph = phPadB ∧ t.idx = 0) ∧
    (s.ph = phFold → s.st = .paddingSplit → s.splitb = true → t.ph = phIdle ∧ t.idx = 0)

/-- R62, R60: a step takes at most one command off the port, the presented one, and a command other
than `STATUS` only when the engine is idle; commands leave in the order presented. -/
def Obligations.CommandsAreSerialised : Prop :=
  ∀ s t : State, s.rst = false → step s = .next t →
    t.cmd = s.cmd ∨
    (∃ c cs n, s.cmd = c :: cs ∧ c.wait = n + 1 ∧ t.cmd = { c with wait := n } :: cs) ∨
    (∃ c cs, s.cmd = c :: cs ∧ c.wait = 0 ∧ t.cmd = cs ∧ (s.ph = phIdle ∨ c.word = 0x4000#16))

/-- R196: only `FOLD` emits, and it emits one record, whose `HPOST` is the new accumulator and whose
`seq` is the number of the block. -/
def Obligations.OneRecordPerFold : Prop :=
  ∀ s t : State, step s = .next t →
    (fetch s ≠ .run .fold ∨ s.rst = true → t.insp = s.insp) ∧
    (fetch s = .run .fold → s.rst = false → ∃ r, t.insp = s.insp ++ [r] ∧ r.seq = s.seq ∧
      r.hpost = t.h ∧ r.hpre = s.hpre ∧ r.w = s.w ∧ r.tr = s.tr)

/-- R197, R36: the inspection port and the buffers that feed it influence nothing else. Two states
that differ at most in `INSP`, `TR` and `HPRE` answer alike: both a next state, again differing at
most there, or the same fault, or the same refusal. -/
def Obligations.InspectionInfluencesNothing : Prop :=
  ∀ s s' : State, s' = { s with insp := s'.insp, tr := s'.tr, hpre := s'.hpre } →
    (∀ t, step s = .next t → ∃ t', step s' = .next t' ∧
      t' = { t with insp := t'.insp, tr := t'.tr, hpre := t'.hpre }) ∧
    (∀ f, step s = .fault f → step s' = .fault f) ∧
    (∀ r, step s = .refused r → step s' = .refused r)

/-- R230, R40: with the reset line asserted a step leaves the reset values, whatever the phase; a
held command is abandoned and no record is emitted. (That the line is sampled between steps and
released, and what the ports keep, is the model's choice: log 7.) -/
def Obligations.ResetInAnyPhase : Prop :=
  ∀ s : State, s.rst = true →
    ∃ t, step s = .next t ∧ t.h = hinit ∧ t.len = 0 ∧ t.fill = 0 ∧ t.st = .reading ∧ t.seq = 0 ∧
      t.err = 0 ∧ t.ph = phIdle ∧ t.idx = 0 ∧ t.splitb = false ∧ t.cnt = 0 ∧ t.pos = 0 ∧
      t.last = false ∧ (∀ a, Memory.read t.blk a = none) ∧ t.insp = s.insp ∧ t.rst = false ∧
      (∀ c cs, s.cmd = c :: cs → c.wait = 0 → s.ph ≠ phIdle → c.word ≠ 0x4000#16 → t.cmd = cs)

/-- R40: the value of every register to which the spec gives one right after reset. -/
def Obligations.ResetValues : Prop :=
  State.reset.h = hinit ∧ State.reset.len = 0 ∧ State.reset.fill = 0 ∧
  State.reset.st = .reading ∧ State.reset.seq = 0 ∧ State.reset.err = 0 ∧
  State.reset.ph = phIdle ∧ State.reset.idx = 0 ∧ State.reset.splitb = false ∧
  State.reset.cnt = 0 ∧ State.reset.pos = 0 ∧ State.reset.last = false

/-- R231: after reset, issuing `INIT` changes nothing (but that the port has taken it). -/
def Obligations.InitAfterResetChangesNothing : Prop :=
  ∀ cmd : List Transfer,
    exec .init { State.reset with cmd := cmd } = .next { State.reset with cmd := cmd.tail }

/-- R21, R22: every entry of the two constant tables, by its definition. `K[t]` is
`floor(cuberoot(p) * 2^32) mod 2^32` for the `t`-th of the first 64 primes `p`, and `HINIT[j]` the
same of the square root for the first 8: the bounds fix the 32 fraction bits, `n` being the whole
part of the root. The values are the spec's own from general knowledge, G1 and G2 (log 15). -/
def Obligations.ConstantTablesAreRootFractions : Prop :=
  (primesBelow 312).length = 64 ∧
  (∀ t : Index, ∃ p n : Nat, (primesBelow 312)[t.toNat]? = some p ∧
    (n * 2 ^ 32 + (kConst t).toNat) ^ 3 ≤ p * 2 ^ 96 ∧
    p * 2 ^ 96 < (n * 2 ^ 32 + (kConst t).toNat + 1) ^ 3) ∧
  (∀ j : Fin 8, ∃ p n : Nat, (primesBelow 312)[j.val]? = some p ∧
    (n * 2 ^ 32 + (hinit.get j).toNat) ^ 2 ≤ p * 2 ^ 64 ∧
    p * 2 ^ 64 < (n * 2 ^ 32 + (hinit.get j).toNat + 1) ^ 2)
end

