-- ==== Sys2Proof/Laws/Datapath.lean ====
section
/-! SUPPORT. The laws of concatenations: the status word bit by bit, a word from four bytes, and
the shapes of the byte lists. -/

namespace Sys2Proof.Machine

@[simp] theorem DriverState.code_reading : DriverState.reading.code = 0#2 := rfl
@[simp] theorem DriverState.code_paddingShort : DriverState.paddingShort.code = 1#2 := rfl
@[simp] theorem DriverState.code_paddingSplit : DriverState.paddingSplit.code = 2#2 := rfl
@[simp] theorem DriverState.code_done : DriverState.done.code = 3#2 := rfl

/-- The bits of the status word (R37), from the least significant field up. -/
theorem statusWord_getLsbD (s : State) (i : Nat) : (statusWord s).getLsbD i =
    if i < 2 then s.st.code.getLsbD i
    else if i < 3 then readyFlag s && decide (i - 2 = 0)
    else if i < 4 then doneFlag s && decide (i - 3 = 0)
    else if i < 8 then s.err.getLsbD (i - 4)
    else s.fill.getLsbD (i - 8) := by
  have key : (0#18 ++ s.fill ++ s.err ++ BitVec.ofBool (doneFlag s) ++ BitVec.ofBool (readyFlag s)
      ++ s.st.code : BitVec (18 + 6 + 4 + 1 + 1 + 2)).getLsbD i =
    if i < 2 then s.st.code.getLsbD i
    else if i < 3 then readyFlag s && decide (i - 2 = 0)
    else if i < 4 then doneFlag s && decide (i - 3 = 0)
    else if i < 8 then s.err.getLsbD (i - 4)
    else s.fill.getLsbD (i - 8) := by
    simp only [BitVec.getLsbD_append, BitVec.getLsbD_ofBool, BitVec.getLsbD_zero]
    by_cases h0 : i < 2
    · simp [h0]
    · by_cases h1 : i < 3
      · have : i = 2 := by omega
        subst this; simp
      · by_cases h2 : i < 4
        · have : i = 3 := by omega
          subst this; simp
        · by_cases h3 : i < 8
          · have e1 : ¬ i - 2 < 1 := by omega
            have e2 : ¬ i - 2 - 1 < 1 := by omega
            have e3 : i - 2 - 1 - 1 < 4 := by omega
            have e4 : i - 2 - 1 - 1 = i - 4 := by omega
            rw [if_neg h0, if_neg e1, if_neg e2, if_pos e3, if_neg h0, if_neg h1, if_neg h2,
              if_pos h3, e4]
          · have e1 : ¬ i - 2 < 1 := by omega
            have e2 : ¬ i - 2 - 1 < 1 := by omega
            have e3 : ¬ i - 2 - 1 - 1 < 4 := by omega
            have e4 : i - 2 - 1 - 1 - 4 = i - 8 := by omega
            rw [if_neg h0, if_neg e1, if_neg e2, if_neg e3, if_neg h0, if_neg h1, if_neg h2,
              if_neg h3, e4]
            split
            · rfl
            · rw [BitVec.getLsbD_of_ge _ _ (by omega)]
  exact key

/-- The value of a word from its four bytes, the first most significant (R11, R51). -/
theorem be32_toNat (b0 b1 b2 b3 : Byte) : (be32 b0 b1 b2 b3).toNat =
    b0.toNat * 2 ^ 24 + b1.toNat * 2 ^ 16 + b2.toNat * 2 ^ 8 + b3.toNat := by
  have key : (b0 ++ b1 ++ b2 ++ b3 : BitVec (8 + 8 + 8 + 8)).toNat =
      b0.toNat * 2 ^ 24 + b1.toNat * 2 ^ 16 + b2.toNat * 2 ^ 8 + b3.toNat := by
    have h1 := b1.isLt
    have h2 := b2.isLt
    have h3 := b3.isLt
    simp only [BitVec.toNat_append]
    rw [← Nat.shiftLeft_add_eq_or_of_lt h1, ← Nat.shiftLeft_add_eq_or_of_lt h2,
      ← Nat.shiftLeft_add_eq_or_of_lt h3]
    simp only [Nat.shiftLeft_eq]
    omega
  exact key

/-- A word's bytes are four, and it is the word of its bytes (R51, R53). -/
@[simp] theorem wordBytes_length (x : Word) : (wordBytes x).length = 4 := rfl

@[simp] theorem be64Bytes_length (v : BitVec 64) : (be64Bytes v).length = 8 := rfl

@[simp] theorem octetBytes_length (x : Octet) : (octetBytes x).length = 32 := rfl

/-- The bytes of a 64-bit value by index, most significant first (R11, R52). -/
theorem be64Bytes_getElem? (v : BitVec 64) (k : Nat) (h : k < 8) :
    (be64Bytes v)[k]? = some (v.extractLsb' (56 - 8 * k) 8) := by
  have : k = 0 ∨ k = 1 ∨ k = 2 ∨ k = 3 ∨ k = 4 ∨ k = 5 ∨ k = 6 ∨ k = 7 := by omega
  rcases this with rfl | rfl | rfl | rfl | rfl | rfl | rfl | rfl <;> rfl

/-- The bytes of a word by index, most significant first (R51, R53). -/
theorem wordBytes_getElem? (x : Word) (k : Nat) (h : k < 4) :
    (wordBytes x)[k]? = some (x.extractLsb' (24 - 8 * k) 8) := by
  have : k = 0 ∨ k = 1 ∨ k = 2 ∨ k = 3 := by omega
  rcases this with rfl | rfl | rfl | rfl <;> rfl

@[simp] theorem Octet.toList_length (x : Octet) : x.toList.length = 8 := rfl

/-- The list of an octet by index. -/
theorem Octet.toList_getElem? (x : Octet) (j : Fin 8) : x.toList[j.val]? = some (x.get j) := by
  match j with
  | 0 => rfl
  | 1 => rfl
  | 2 => rfl
  | 3 => rfl
  | 4 => rfl
  | 5 => rfl
  | 6 => rfl
  | 7 => rfl

/-- Pieces of one length laid end to end: how long the whole is. -/
theorem length_flatMap_uniform {α β : Type} {f : α → List β} {n : Nat}
    (h : ∀ a, (f a).length = n) (l : List α) : (l.flatMap f).length = n * l.length := by
  induction l with
  | nil => simp
  | cons a l ih => simp [h, ih, Nat.mul_add, Nat.add_comm]

/-- Pieces of one length laid end to end: element `k` of piece `i`. -/
theorem getElem?_flatMap_uniform {α β : Type} {f : α → List β} {n : Nat}
    (h : ∀ a, (f a).length = n) (l : List α) (i k : Nat) (hk : k < n) :
    (l.flatMap f)[n * i + k]? = (l[i]?).bind (fun a => (f a)[k]?) := by
  induction l generalizing i with
  | nil => simp
  | cons a l ih =>
    cases i with
    | zero =>
      rw [List.flatMap_cons, List.getElem?_append_left (by rw [h]; omega)]
      simp
    | succ i =>
      rw [List.flatMap_cons, List.getElem?_append_right (by rw [h, Nat.mul_add]; omega), h,
        show n * (i + 1) + k - n = n * i + k by rw [Nat.mul_add]; omega, ih]
      simp

/-- The bytes of an octet by index (R53). -/
theorem octetBytes_getElem? (x : Octet) (j : Fin 8) (k : Nat) (h : k < 4) :
    (octetBytes x)[4 * j.val + k]? = some ((x.get j).extractLsb' (24 - 8 * k) 8) := by
  rw [octetBytes, getElem?_flatMap_uniform wordBytes_length _ _ _ h, Octet.toList_getElem?]
  exact wordBytes_getElem? _ _ h

/-- The fold word by word (R143). -/
theorem foldOctet_get (x y : Octet) (j : Fin 8) :
    (foldOctet x y).get j = x.get j + y.get j := by
  match j with
  | 0 => rfl
  | 1 => rfl
  | 2 => rfl
  | 3 => rfl
  | 4 => rfl
  | 5 => rfl
  | 6 => rfl
  | 7 => rfl

/-- Eight words are known by their indices. -/
theorem Octet.ext_get {x y : Octet} (h : ∀ j, x.get j = y.get j) : x = y := by
  cases x
  cases y
  simp only [Octet.mk.injEq]
  exact ⟨h 0, h 1, h 2, h 3, h 4, h 5, h 6, h 7⟩

end Sys2Proof.Machine
end

