-- ==== Sys2Proof/Laws/Decode.lean ====
section
/-! SUPPORT. What the decoder can answer, said once. -/

namespace Sys2Proof

/-- The micro-operation codes, both ways (R76). -/
theorem decodeUop_ok {c : BitVec 4} {i : Instr} (h : decodeUop c = .ok i) :
    (c = 0#4 ∧ i = .idle) ∨ (c = 1#4 ∧ i = .abs) ∨ (c = 2#4 ∧ i = .pad1) ∨
    (c = 3#4 ∧ i = .padA) ∨ (c = 4#4 ∧ i = .padB) ∨ (c = 5#4 ∧ i = .ldw) ∨
    (c = 6#4 ∧ i = .exp) ∨ (c = 7#4 ∧ i = .seed) ∨ (c = 8#4 ∧ i = .rnd) ∨
    (c = 9#4 ∧ i = .fold) := by
  unfold decodeUop at h
  repeat' split at h
  all_goals cases h
  all_goals simp_all

/-- Every legal phase code decodes (R76, R77). -/
theorem decodeUop_total {c : BitVec 4} (h : c ≤ 9#4) : ∃ i, decodeUop c = .ok i := by
  have hall : ∀ c : BitVec 4, c ≤ 9#4 → (decodeUop c).isOk = true := by decide
  have hc := hall c h
  cases hd : decodeUop c with
  | ok i => exact ⟨i, rfl⟩
  | error e => rw [hd] at hc; cases hc

/-- The command words, by the fields of the word (R72): which word each command is. -/
theorem decodeCommand_ok {w : BitVec 16} {i : Instr} (h : decodeCommand w = .ok i) :
    (cmdOpc w = 1#4 ∧ w.extractLsb' 0 12 = 0#12 ∧ i = .init) ∨
    (cmdOpc w = 2#4 ∧ cmdRsv w = 0#4 ∧ cmdLast w = true ∧ cmdCount w = 0#7 ∧ i = .final) ∨
    (cmdOpc w = 2#4 ∧ cmdRsv w = 0#4 ∧ ¬ (cmdLast w = true ∧ cmdCount w = 0#7) ∧
      i = .push (cmdLast w) (cmdCount w)) ∨
    (cmdOpc w = 3#4 ∧ w.extractLsb' 0 12 = 0#12 ∧ i = .digest) ∨
    (cmdOpc w = 4#4 ∧ w.extractLsb' 0 12 = 0#12 ∧ i = .status) ∨
    (cmdOpc w = 5#4 ∧ w.extractLsb' 0 12 = 0#12 ∧ i = .abort) := by
  unfold decodeCommand decodeNoOperand decodePush at h
  repeat' split at h
  all_goals cases h
  all_goals simp_all

/-- A word whose fields `OPC` and 11:0 are known is known. -/
theorem word_of_fields {w : BitVec 16} {c : BitVec 4} (h : cmdOpc w = c)
    (h0 : w.extractLsb' 0 12 = 0#12) : w = c ++ 0#12 := by
  have : w = w.extractLsb' 12 4 ++ w.extractLsb' 0 12 := by
    rw [BitVec.extractLsb'_append_extractLsb'_eq_extractLsb' (by rfl)]
    simp
  rw [this, ← h, h0]
  rfl

/-- The fields of a command word as numbers (R71). -/
theorem cmdOpc_toNat (w : BitVec 16) : (cmdOpc w).toNat = w.toNat / 4096 := by
  have := w.isLt
  simp only [cmdOpc, BitVec.extractLsb'_toNat, Nat.shiftRight_eq_div_pow]
  omega

theorem cmdRsv_toNat (w : BitVec 16) : (cmdRsv w).toNat = w.toNat / 256 % 16 := by
  simp [cmdRsv, BitVec.extractLsb'_toNat, Nat.shiftRight_eq_div_pow]

theorem cmdCount_toNat (w : BitVec 16) : (cmdCount w).toNat = w.toNat % 128 := by
  simp [cmdCount, BitVec.extractLsb'_toNat]

theorem cmdLow_toNat (w : BitVec 16) : (w.extractLsb' 0 12).toNat = w.toNat % 4096 := by
  simp [BitVec.extractLsb'_toNat]

theorem cmdLast_iff (w : BitVec 16) : cmdLast w = true ↔ w.toNat / 128 % 2 = 1 := by
  simp [cmdLast, BitVec.getLsbD, Nat.testBit, Nat.shiftRight_eq_div_pow]

/-- The one word of `STATUS` (R72). -/
theorem word_of_status {w : BitVec 16} (h : decodeCommand w = .ok .status) : w = 0x4000#16 := by
  rcases decodeCommand_ok h with h | h | h | h | h | h <;> simp_all
  exact word_of_fields h.1 h.2

/-- The one word of `INIT` (R72). -/
theorem word_of_init {w : BitVec 16} (h : decodeCommand w = .ok .init) : w = 0x1000#16 := by
  rcases decodeCommand_ok h with h | h | h | h | h | h <;> simp_all
  exact word_of_fields h.1 h.2

/-- With a `PUSH` word the transport delivers `COUNT` bytes (R71, R80). -/
theorem payloadLength_of_push {w : BitVec 16} {l : Bool} {n : BitVec 7}
    (h : decodeCommand w = .ok (.push l n)) : payloadLength w = n.toNat := by
  rcases decodeCommand_ok h with h | h | h | h | h | h <;> simp_all [payloadLength]

/-- With the word of `FINAL` the transport delivers no byte (R82). -/
theorem payloadLength_of_final {w : BitVec 16} (h : decodeCommand w = .ok .final) :
    payloadLength w = 0 := by
  rcases decodeCommand_ok h with h | h | h | h | h | h <;> simp_all [payloadLength]

/-- A command word decodes to an instruction of the format `CMD`. -/
theorem decodeCommand_format {w : BitVec 16} {i : Instr} (h : decodeCommand w = .ok i) :
    i.format = .cmd := by
  rcases decodeCommand_ok h with h | h | h | h | h | h <;> simp_all [Instr.format]

/-- A phase code decodes to an instruction of the format `UOP`. -/
theorem decodeUop_format {c : BitVec 4} {i : Instr} (h : decodeUop c = .ok i) :
    i.format = .uop := by
  rcases decodeUop_ok h with h | h | h | h | h | h | h | h | h | h <;> simp_all [Instr.format]

end Sys2Proof
end

