-- ==== Sys2Proof/Laws/Memory.lean ====
section
/-! SUPPORT. The laws of byte memory and of the 64-element arrays: what a read finds after a write,
and that every memory operation keeps the canonical form. -/

namespace Sys2Proof.Machine

/-! ### Byte memory -/

/-- A read after a write: the byte written at its own address, the old byte at every other. -/
theorem Memory.read_write (m : Memory) (x : Nat) (b : Byte) (y : Nat) :
    Memory.read (Memory.write m x b) y = if y = x then some b else Memory.read m y := by
  induction m with
  | nil => simp [Memory.write, Memory.read]
  | cons c m ih =>
    simp only [Memory.write]
    split
    · simp [Memory.read]
    · split
      · rename_i h
        simp only [Memory.read, ← h]
        split <;> rfl
      · rename_i h
        simp only [Memory.read, ih]
        split
        · rename_i hy
          rw [if_neg (by omega)]
        · rfl

/-- A read after a write of consecutive bytes. -/
theorem Memory.read_writeBytes (bs : List Byte) (m : Memory) (x y : Nat) :
    Memory.read (Memory.writeBytes m x bs) y =
      if x ≤ y ∧ y < x + bs.length then bs[y - x]? else Memory.read m y := by
  induction bs generalizing m x with
  | nil => simp [Memory.writeBytes]
  | cons b bs ih =>
    simp only [Memory.writeBytes, ih, Memory.read_write, List.length_cons]
    by_cases hy : y = x
    · subst hy
      simp
    · by_cases h : x + 1 ≤ y ∧ y < x + 1 + bs.length
      · rw [if_pos h, if_pos (by omega)]
        obtain ⟨k, rfl⟩ : ∃ k, y = x + 1 + k := ⟨y - (x + 1), by omega⟩
        rw [show x + 1 + k - (x + 1) = k by omega, show x + 1 + k - x = k + 1 by omega]
        simp
      · rw [if_neg h, if_neg hy, if_neg (by omega)]

/-- The addresses a write lists: the old ones and the written one. -/
theorem Memory.mem_write {m : Memory} {x : Nat} {b : Byte} {d : Host.Cell}
    (h : d ∈ Memory.write m x b) : d.1 = x ∨ d ∈ m := by
  induction m with
  | nil => simp [Memory.write] at h; exact .inl (by rw [h])
  | cons c m ih =>
    simp only [Memory.write] at h
    split at h
    · rcases List.mem_cons.mp h with rfl | h
      · exact .inl rfl
      · exact .inr h
    · split at h
      · rcases List.mem_cons.mp h with rfl | h
        · exact .inl rfl
        · exact .inr (List.mem_cons_of_mem _ h)
      · rcases List.mem_cons.mp h with rfl | h
        · exact .inr List.mem_cons_self
        · exact (ih h).imp id (List.mem_cons_of_mem _)

/-- A write in range keeps the canonical form. -/
theorem Memory.wf_write {m : Memory} {x : Nat} {b : Byte} (hm : Memory.wf m = true) (hx : x < 64) :
    Memory.wf (Memory.write m x b) = true := by
  induction m with
  | nil => simp [Memory.write, Memory.wf, hx]
  | cons c m ih =>
    simp only [Memory.wf, Bool.and_eq_true, List.all_eq_true, decide_eq_true_eq] at hm
    obtain ⟨⟨hc, hlt⟩, hm⟩ := hm
    simp only [Memory.write]
    split
    · simp only [Memory.wf, Bool.and_eq_true, List.all_eq_true, decide_eq_true_eq]
      refine ⟨⟨hx, ?_⟩, ⟨hc, hlt⟩, hm⟩
      intro d hd
      rcases List.mem_cons.mp hd with rfl | hd
      · assumption
      · have := hlt d hd; omega
    · split
      · simp only [Memory.wf, Bool.and_eq_true, List.all_eq_true, decide_eq_true_eq]
        refine ⟨⟨hx, fun d hd => ?_⟩, hm⟩
        have := hlt d hd; omega
      · simp only [Memory.wf, Bool.and_eq_true, List.all_eq_true, decide_eq_true_eq]
        refine ⟨⟨hc, fun d hd => ?_⟩, ih hm⟩
        rcases Memory.mem_write hd with h | h
        · omega
        · exact hlt d h

/-- A write of consecutive bytes in range keeps the canonical form. -/
theorem Memory.wf_writeBytes {bs : List Byte} {m : Memory} {x : Nat} (hm : Memory.wf m = true)
    (hx : x + bs.length ≤ 64) : Memory.wf (Memory.writeBytes m x bs) = true := by
  induction bs generalizing m x with
  | nil => exact hm
  | cons b bs ih =>
    simp only [List.length_cons] at hx
    exact ih (Memory.wf_write hm (by omega)) (by omega)

/-- `MemRead(addr, 4)` where all four bytes are written. -/
theorem Memory.read32_ok {m : Memory} {x : Nat} {b0 b1 b2 b3 : Byte}
    (h0 : Memory.read m x = some b0) (h1 : Memory.read m (x + 1) = some b1)
    (h2 : Memory.read m (x + 2) = some b2) (h3 : Memory.read m (x + 3) = some b3) :
    Memory.read32 m x = .ok (be32 b0 b1 b2 b3) := by
  simp [Memory.read32, Memory.fetch, h0, h1, h2, h3]

/-- `MemRead(addr, 4)` fails only at an address, among its four, that nothing has written. -/
theorem Memory.read32_error {m : Memory} {x a : Nat} (h : Memory.read32 m x = .error a) :
    x ≤ a ∧ a < x + 4 ∧ Memory.read m a = none := by
  have hf : ∀ y c, Memory.fetch m y = .error c → c = y ∧ Memory.read m y = none := by
    intro y c hy
    unfold Memory.fetch at hy
    split at hy
    · cases hy
    · cases hy
      exact ⟨rfl, by assumption⟩
  unfold Memory.read32 at h
  split at h
  · cases h
  · cases h
    obtain ⟨rfl, hr⟩ := hf _ _ (by assumption)
    exact ⟨by omega, by omega, hr⟩
  · cases h
    obtain ⟨rfl, hr⟩ := hf _ _ (by assumption)
    exact ⟨by omega, by omega, hr⟩
  · cases h
    obtain ⟨rfl, hr⟩ := hf _ _ (by assumption)
    exact ⟨by omega, by omega, hr⟩
  · cases h
    obtain ⟨rfl, hr⟩ := hf _ _ (by assumption)
    exact ⟨by omega, by omega, hr⟩

/-! ### Arrays of 64 elements -/

/-- A read after a write of an array. -/
theorem readAt_writeAt {α : Type} (xs : Vector α 64) (i j : Index) (x : α) :
    readAt (writeAt xs i x) j = if j = i then x else readAt xs j := by
  unfold readAt writeAt
  show (xs.set _ _ _)[j.toNat] = if _ then _ else xs[j.toNat]
  rw [Vector.getElem_set]
  by_cases h : j = i
  · simp [h]
  · rw [if_neg (fun e => h (BitVec.eq_of_toNat_eq e.symm)), if_neg h]

/-- A read after a write of consecutive elements that fit. -/
theorem readAt_writeFrom {α : Type} (ys : List α) (xs : Vector α 64) (i : Nat)
    (h : i + ys.length ≤ 64) (j : Index) :
    readAt (writeFrom xs i ys) j =
      if i ≤ j.toNat then ys.getD (j.toNat - i) (readAt xs j) else readAt xs j := by
  induction ys generalizing xs i with
  | nil => simp [writeFrom]
  | cons y ys ih =>
    simp only [List.length_cons] at h
    rw [writeFrom, ih _ _ (by omega)]
    have hset : readAt (xs.setIfInBounds i y) j = if i = j.toNat then y else readAt xs j := by
      unfold readAt
      show (xs.setIfInBounds i y)[j.toNat] = if _ then _ else xs[j.toNat]
      rw [Vector.getElem_setIfInBounds]
    by_cases h1 : i + 1 ≤ j.toNat
    · obtain ⟨k, hk⟩ : ∃ k, j.toNat = i + 1 + k := ⟨j.toNat - (i + 1), by omega⟩
      have hne : ¬ i = j.toNat := by omega
      have hle : i ≤ j.toNat := by omega
      have hk' : j.toNat - i = k + 1 := by omega
      have hk'' : j.toNat - (i + 1) = k := by omega
      simp [hset, h1, hne, hle, hk', hk'']
    · by_cases h2 : i = j.toNat
      · rw [if_pos h2] at hset
        simp [hset, ← h2]
      · have h3 : ¬ i ≤ j.toNat := by omega
        simp [hset, h1, h2, h3]

end Sys2Proof.Machine
end

