-- ==== Sys2Proof/Laws/State.lean ====
section
/-! SUPPORT. One lemma per field of State per update of State: which fields a shared operation
writes, and that it leaves every other one. -/

namespace Sys2Proof.Machine

/-! ### `raise` (R206) -/

@[simp] theorem raise_h (c : Cause) (s : State) : (raise c s).h = s.h := rfl
@[simp] theorem raise_v (c : Cause) (s : State) : (raise c s).v = s.v := rfl
@[simp] theorem raise_w (c : Cause) (s : State) : (raise c s).w = s.w := rfl
@[simp] theorem raise_blk (c : Cause) (s : State) : (raise c s).blk = s.blk := rfl
@[simp] theorem raise_len (c : Cause) (s : State) : (raise c s).len = s.len := rfl
@[simp] theorem raise_fill (c : Cause) (s : State) : (raise c s).fill = s.fill := rfl
@[simp] theorem raise_st (c : Cause) (s : State) : (raise c s).st = s.st := rfl
@[simp] theorem raise_seq (c : Cause) (s : State) : (raise c s).seq = s.seq := rfl
@[simp] theorem raise_err (c : Cause) (s : State) : (raise c s).err = c.code := rfl
@[simp] theorem raise_ph (c : Cause) (s : State) : (raise c s).ph = phIdle := rfl
@[simp] theorem raise_idx (c : Cause) (s : State) : (raise c s).idx = s.idx := rfl
@[simp] theorem raise_splitb (c : Cause) (s : State) : (raise c s).splitb = s.splitb := rfl
@[simp] theorem raise_chunk (c : Cause) (s : State) : (raise c s).chunk = s.chunk := rfl
@[simp] theorem raise_cnt (c : Cause) (s : State) : (raise c s).cnt = s.cnt := rfl
@[simp] theorem raise_pos (c : Cause) (s : State) : (raise c s).pos = s.pos := rfl
@[simp] theorem raise_last (c : Cause) (s : State) : (raise c s).last = s.last := rfl
@[simp] theorem raise_tr (c : Cause) (s : State) : (raise c s).tr = s.tr := rfl
@[simp] theorem raise_hpre (c : Cause) (s : State) : (raise c s).hpre = s.hpre := rfl
@[simp] theorem raise_cmd (c : Cause) (s : State) : (raise c s).cmd = s.cmd := rfl
@[simp] theorem raise_rsp (c : Cause) (s : State) : (raise c s).rsp = s.rsp := rfl
@[simp] theorem raise_insp (c : Cause) (s : State) : (raise c s).insp = s.insp := rfl
@[simp] theorem raise_rst (c : Cause) (s : State) : (raise c s).rst = s.rst := rfl
@[simp] theorem raise_resets (c : Cause) (s : State) : (raise c s).resets = s.resets := rfl

/-! ### `startMessage` (R162) -/

@[simp] theorem startMessage_h (s : State) : (startMessage s).h = hinit := rfl
@[simp] theorem startMessage_v (s : State) : (startMessage s).v = s.v := rfl
@[simp] theorem startMessage_w (s : State) : (startMessage s).w = s.w := rfl
@[simp] theorem startMessage_blk (s : State) : (startMessage s).blk = s.blk := rfl
@[simp] theorem startMessage_len (s : State) : (startMessage s).len = 0#64 := rfl
@[simp] theorem startMessage_fill (s : State) : (startMessage s).fill = 0#6 := rfl
@[simp] theorem startMessage_st (s : State) : (startMessage s).st = .reading := rfl
@[simp] theorem startMessage_seq (s : State) : (startMessage s).seq = 0#64 := rfl
@[simp] theorem startMessage_err (s : State) : (startMessage s).err = 0#4 := rfl
@[simp] theorem startMessage_ph (s : State) : (startMessage s).ph = phIdle := rfl
@[simp] theorem startMessage_idx (s : State) : (startMessage s).idx = 0#6 := rfl
@[simp] theorem startMessage_splitb (s : State) : (startMessage s).splitb = false := rfl
@[simp] theorem startMessage_chunk (s : State) : (startMessage s).chunk = s.chunk := rfl
@[simp] theorem startMessage_cnt (s : State) : (startMessage s).cnt = 0#7 := rfl
@[simp] theorem startMessage_pos (s : State) : (startMessage s).pos = 0#7 := rfl
@[simp] theorem startMessage_last (s : State) : (startMessage s).last = false := rfl
@[simp] theorem startMessage_tr (s : State) : (startMessage s).tr = s.tr := rfl
@[simp] theorem startMessage_hpre (s : State) : (startMessage s).hpre = s.hpre := rfl
@[simp] theorem startMessage_cmd (s : State) : (startMessage s).cmd = s.cmd := rfl
@[simp] theorem startMessage_rsp (s : State) : (startMessage s).rsp = s.rsp := rfl
@[simp] theorem startMessage_insp (s : State) : (startMessage s).insp = s.insp := rfl
@[simp] theorem startMessage_rst (s : State) : (startMessage s).rst = s.rst := rfl
@[simp] theorem startMessage_resets (s : State) : (startMessage s).resets = s.resets := rfl

/-! ### `takeCommand` (R161) -/

@[simp] theorem takeCommand_h (s : State) : (takeCommand s).h = s.h := rfl
@[simp] theorem takeCommand_v (s : State) : (takeCommand s).v = s.v := rfl
@[simp] theorem takeCommand_w (s : State) : (takeCommand s).w = s.w := rfl
@[simp] theorem takeCommand_blk (s : State) : (takeCommand s).blk = s.blk := rfl
@[simp] theorem takeCommand_len (s : State) : (takeCommand s).len = s.len := rfl
@[simp] theorem takeCommand_fill (s : State) : (takeCommand s).fill = s.fill := rfl
@[simp] theorem takeCommand_st (s : State) : (takeCommand s).st = s.st := rfl
@[simp] theorem takeCommand_seq (s : State) : (takeCommand s).seq = s.seq := rfl
@[simp] theorem takeCommand_err (s : State) : (takeCommand s).err = s.err := rfl
@[simp] theorem takeCommand_ph (s : State) : (takeCommand s).ph = s.ph := rfl
@[simp] theorem takeCommand_idx (s : State) : (takeCommand s).idx = s.idx := rfl
@[simp] theorem takeCommand_splitb (s : State) : (takeCommand s).splitb = s.splitb := rfl
@[simp] theorem takeCommand_chunk (s : State) : (takeCommand s).chunk = s.chunk := rfl
@[simp] theorem takeCommand_cnt (s : State) : (takeCommand s).cnt = s.cnt := rfl
@[simp] theorem takeCommand_pos (s : State) : (takeCommand s).pos = s.pos := rfl
@[simp] theorem takeCommand_last (s : State) : (takeCommand s).last = s.last := rfl
@[simp] theorem takeCommand_tr (s : State) : (takeCommand s).tr = s.tr := rfl
@[simp] theorem takeCommand_hpre (s : State) : (takeCommand s).hpre = s.hpre := rfl
@[simp] theorem takeCommand_cmd (s : State) : (takeCommand s).cmd = s.cmd.tail := rfl
@[simp] theorem takeCommand_rsp (s : State) : (takeCommand s).rsp = s.rsp := rfl
@[simp] theorem takeCommand_insp (s : State) : (takeCommand s).insp = s.insp := rfl
@[simp] theorem takeCommand_rst (s : State) : (takeCommand s).rst = s.rst := rfl
@[simp] theorem takeCommand_resets (s : State) : (takeCommand s).resets = s.resets := rfl

/-! ### `hostTick` (log 4) -/

@[simp] theorem hostTick_h (s : State) : (hostTick s).h = s.h := by unfold hostTick; split <;> rfl
@[simp] theorem hostTick_v (s : State) : (hostTick s).v = s.v := by unfold hostTick; split <;> rfl
@[simp] theorem hostTick_w (s : State) : (hostTick s).w = s.w := by unfold hostTick; split <;> rfl
@[simp] theorem hostTick_blk (s : State) : (hostTick s).blk = s.blk := by unfold hostTick; split <;> rfl
@[simp] theorem hostTick_len (s : State) : (hostTick s).len = s.len := by unfold hostTick; split <;> rfl
@[simp] theorem hostTick_fill (s : State) : (hostTick s).fill = s.fill := by unfold hostTick; split <;> rfl
@[simp] theorem hostTick_st (s : State) : (hostTick s).st = s.st := by unfold hostTick; split <;> rfl
@[simp] theorem hostTick_seq (s : State) : (hostTick s).seq = s.seq := by unfold hostTick; split <;> rfl
@[simp] theorem hostTick_err (s : State) : (hostTick s).err = s.err := by unfold hostTick; split <;> rfl
@[simp] theorem hostTick_ph (s : State) : (hostTick s).ph = s.ph := by unfold hostTick; split <;> rfl
@[simp] theorem hostTick_idx (s : State) : (hostTick s).idx = s.idx := by unfold hostTick; split <;> rfl
@[simp] theorem hostTick_splitb (s : State) : (hostTick s).splitb = s.splitb := by unfold hostTick; split <;> rfl
@[simp] theorem hostTick_chunk (s : State) : (hostTick s).chunk = s.chunk := by unfold hostTick; split <;> rfl
@[simp] theorem hostTick_cnt (s : State) : (hostTick s).cnt = s.cnt := by unfold hostTick; split <;> rfl
@[simp] theorem hostTick_pos (s : State) : (hostTick s).pos = s.pos := by unfold hostTick; split <;> rfl
@[simp] theorem hostTick_last (s : State) : (hostTick s).last = s.last := by unfold hostTick; split <;> rfl
@[simp] theorem hostTick_tr (s : State) : (hostTick s).tr = s.tr := by unfold hostTick; split <;> rfl
@[simp] theorem hostTick_hpre (s : State) : (hostTick s).hpre = s.hpre := by unfold hostTick; split <;> rfl
@[simp] theorem hostTick_rsp (s : State) : (hostTick s).rsp = s.rsp := by unfold hostTick; split <;> rfl
@[simp] theorem hostTick_insp (s : State) : (hostTick s).insp = s.insp := by unfold hostTick; split <;> rfl
@[simp] theorem hostTick_rst (s : State) : (hostTick s).rst = s.rst := by unfold hostTick; split <;> rfl
@[simp] theorem hostTick_resets (s : State) : (hostTick s).resets = s.resets := by unfold hostTick; split <;> rfl
theorem hostTick_cmd (s : State) : (hostTick s).cmd =
    match s.cmd with
    | [] => []
    | t :: ts => { t with wait := t.wait - 1 } :: ts := by
  unfold hostTick; split <;> simp_all

/-! ### `respond` (R84) -/

@[simp] theorem respond_h (r : Response) (s : State) : (respond r s).h = s.h := rfl
@[simp] theorem respond_v (r : Response) (s : State) : (respond r s).v = s.v := rfl
@[simp] theorem respond_w (r : Response) (s : State) : (respond r s).w = s.w := rfl
@[simp] theorem respond_blk (r : Response) (s : State) : (respond r s).blk = s.blk := rfl
@[simp] theorem respond_len (r : Response) (s : State) : (respond r s).len = s.len := rfl
@[simp] theorem respond_fill (r : Response) (s : State) : (respond r s).fill = s.fill := rfl
@[simp] theorem respond_st (r : Response) (s : State) : (respond r s).st = s.st := rfl
@[simp] theorem respond_seq (r : Response) (s : State) : (respond r s).seq = s.seq := rfl
@[simp] theorem respond_err (r : Response) (s : State) : (respond r s).err = s.err := rfl
@[simp] theorem respond_ph (r : Response) (s : State) : (respond r s).ph = s.ph := rfl
@[simp] theorem respond_idx (r : Response) (s : State) : (respond r s).idx = s.idx := rfl
@[simp] theorem respond_splitb (r : Response) (s : State) : (respond r s).splitb = s.splitb := rfl
@[simp] theorem respond_chunk (r : Response) (s : State) : (respond r s).chunk = s.chunk := rfl
@[simp] theorem respond_cnt (r : Response) (s : State) : (respond r s).cnt = s.cnt := rfl
@[simp] theorem respond_pos (r : Response) (s : State) : (respond r s).pos = s.pos := rfl
@[simp] theorem respond_last (r : Response) (s : State) : (respond r s).last = s.last := rfl
@[simp] theorem respond_tr (r : Response) (s : State) : (respond r s).tr = s.tr := rfl
@[simp] theorem respond_hpre (r : Response) (s : State) : (respond r s).hpre = s.hpre := rfl
@[simp] theorem respond_cmd (r : Response) (s : State) : (respond r s).cmd = s.cmd := rfl
@[simp] theorem respond_rsp (r : Response) (s : State) : (respond r s).rsp = s.rsp ++ [r] := rfl
@[simp] theorem respond_insp (r : Response) (s : State) : (respond r s).insp = s.insp := rfl
@[simp] theorem respond_rst (r : Response) (s : State) : (respond r s).rst = s.rst := rfl
@[simp] theorem respond_resets (r : Response) (s : State) : (respond r s).resets = s.resets := rfl

/-! ### `emitRecord` (R195) -/

@[simp] theorem emitRecord_h (r : InspRecord) (s : State) : (emitRecord r s).h = s.h := rfl
@[simp] theorem emitRecord_v (r : InspRecord) (s : State) : (emitRecord r s).v = s.v := rfl
@[simp] theorem emitRecord_w (r : InspRecord) (s : State) : (emitRecord r s).w = s.w := rfl
@[simp] theorem emitRecord_blk (r : InspRecord) (s : State) : (emitRecord r s).blk = s.blk := rfl
@[simp] theorem emitRecord_len (r : InspRecord) (s : State) : (emitRecord r s).len = s.len := rfl
@[simp] theorem emitRecord_fill (r : InspRecord) (s : State) : (emitRecord r s).fill = s.fill := rfl
@[simp] theorem emitRecord_st (r : InspRecord) (s : State) : (emitRecord r s).st = s.st := rfl
@[simp] theorem emitRecord_seq (r : InspRecord) (s : State) : (emitRecord r s).seq = s.seq := rfl
@[simp] theorem emitRecord_err (r : InspRecord) (s : State) : (emitRecord r s).err = s.err := rfl
@[simp] theorem emitRecord_ph (r : InspRecord) (s : State) : (emitRecord r s).ph = s.ph := rfl
@[simp] theorem emitRecord_idx (r : InspRecord) (s : State) : (emitRecord r s).idx = s.idx := rfl
@[simp] theorem emitRecord_splitb (r : InspRecord) (s : State) : (emitRecord r s).splitb = s.splitb := rfl
@[simp] theorem emitRecord_chunk (r : InspRecord) (s : State) : (emitRecord r s).chunk = s.chunk := rfl
@[simp] theorem emitRecord_cnt (r : InspRecord) (s : State) : (emitRecord r s).cnt = s.cnt := rfl
@[simp] theorem emitRecord_pos (r : InspRecord) (s : State) : (emitRecord r s).pos = s.pos := rfl
@[simp] theorem emitRecord_last (r : InspRecord) (s : State) : (emitRecord r s).last = s.last := rfl
@[simp] theorem emitRecord_tr (r : InspRecord) (s : State) : (emitRecord r s).tr = s.tr := rfl
@[simp] theorem emitRecord_hpre (r : InspRecord) (s : State) : (emitRecord r s).hpre = s.hpre := rfl
@[simp] theorem emitRecord_cmd (r : InspRecord) (s : State) : (emitRecord r s).cmd = s.cmd := rfl
@[simp] theorem emitRecord_rsp (r : InspRecord) (s : State) : (emitRecord r s).rsp = s.rsp := rfl
@[simp] theorem emitRecord_insp (r : InspRecord) (s : State) : (emitRecord r s).insp = s.insp ++ [r] := rfl
@[simp] theorem emitRecord_rst (r : InspRecord) (s : State) : (emitRecord r s).rst = s.rst := rfl
@[simp] theorem emitRecord_resets (r : InspRecord) (s : State) : (emitRecord r s).resets = s.resets := rfl

/-! ### `goTo` (R12) -/

@[simp] theorem goTo_h (p : BitVec 4) (i : Index) (s : State) : (goTo p i s).h = s.h := rfl
@[simp] theorem goTo_v (p : BitVec 4) (i : Index) (s : State) : (goTo p i s).v = s.v := rfl
@[simp] theorem goTo_w (p : BitVec 4) (i : Index) (s : State) : (goTo p i s).w = s.w := rfl
@[simp] theorem goTo_blk (p : BitVec 4) (i : Index) (s : State) : (goTo p i s).blk = s.blk := rfl
@[simp] theorem goTo_len (p : BitVec 4) (i : Index) (s : State) : (goTo p i s).len = s.len := rfl
@[simp] theorem goTo_fill (p : BitVec 4) (i : Index) (s : State) : (goTo p i s).fill = s.fill := rfl
@[simp] theorem goTo_st (p : BitVec 4) (i : Index) (s : State) : (goTo p i s).st = s.st := rfl
@[simp] theorem goTo_seq (p : BitVec 4) (i : Index) (s : State) : (goTo p i s).seq = s.seq := rfl
@[simp] theorem goTo_err (p : BitVec 4) (i : Index) (s : State) : (goTo p i s).err = s.err := rfl
@[simp] theorem goTo_ph (p : BitVec 4) (i : Index) (s : State) : (goTo p i s).ph = p := rfl
@[simp] theorem goTo_idx (p : BitVec 4) (i : Index) (s : State) : (goTo p i s).idx = i := rfl
@[simp] theorem goTo_splitb (p : BitVec 4) (i : Index) (s : State) : (goTo p i s).splitb = s.splitb := rfl
@[simp] theorem goTo_chunk (p : BitVec 4) (i : Index) (s : State) : (goTo p i s).chunk = s.chunk := rfl
@[simp] theorem goTo_cnt (p : BitVec 4) (i : Index) (s : State) : (goTo p i s).cnt = s.cnt := rfl
@[simp] theorem goTo_pos (p : BitVec 4) (i : Index) (s : State) : (goTo p i s).pos = s.pos := rfl
@[simp] theorem goTo_last (p : BitVec 4) (i : Index) (s : State) : (goTo p i s).last = s.last := rfl
@[simp] theorem goTo_tr (p : BitVec 4) (i : Index) (s : State) : (goTo p i s).tr = s.tr := rfl
@[simp] theorem goTo_hpre (p : BitVec 4) (i : Index) (s : State) : (goTo p i s).hpre = s.hpre := rfl
@[simp] theorem goTo_cmd (p : BitVec 4) (i : Index) (s : State) : (goTo p i s).cmd = s.cmd := rfl
@[simp] theorem goTo_rsp (p : BitVec 4) (i : Index) (s : State) : (goTo p i s).rsp = s.rsp := rfl
@[simp] theorem goTo_insp (p : BitVec 4) (i : Index) (s : State) : (goTo p i s).insp = s.insp := rfl
@[simp] theorem goTo_rst (p : BitVec 4) (i : Index) (s : State) : (goTo p i s).rst = s.rst := rfl
@[simp] theorem goTo_resets (p : BitVec 4) (i : Index) (s : State) : (goTo p i s).resets = s.resets := rfl

/-! ### `nextIndex` (R126, R127, R142) -/

@[simp] theorem nextIndex_h (s : State) : (nextIndex s).h = s.h := rfl
@[simp] theorem nextIndex_v (s : State) : (nextIndex s).v = s.v := rfl
@[simp] theorem nextIndex_w (s : State) : (nextIndex s).w = s.w := rfl
@[simp] theorem nextIndex_blk (s : State) : (nextIndex s).blk = s.blk := rfl
@[simp] theorem nextIndex_len (s : State) : (nextIndex s).len = s.len := rfl
@[simp] theorem nextIndex_fill (s : State) : (nextIndex s).fill = s.fill := rfl
@[simp] theorem nextIndex_st (s : State) : (nextIndex s).st = s.st := rfl
@[simp] theorem nextIndex_seq (s : State) : (nextIndex s).seq = s.seq := rfl
@[simp] theorem nextIndex_err (s : State) : (nextIndex s).err = s.err := rfl
@[simp] theorem nextIndex_ph (s : State) : (nextIndex s).ph = s.ph := rfl
@[simp] theorem nextIndex_idx (s : State) : (nextIndex s).idx = s.idx + 1#6 := rfl
@[simp] theorem nextIndex_splitb (s : State) : (nextIndex s).splitb = s.splitb := rfl
@[simp] theorem nextIndex_chunk (s : State) : (nextIndex s).chunk = s.chunk := rfl
@[simp] theorem nextIndex_cnt (s : State) : (nextIndex s).cnt = s.cnt := rfl
@[simp] theorem nextIndex_pos (s : State) : (nextIndex s).pos = s.pos := rfl
@[simp] theorem nextIndex_last (s : State) : (nextIndex s).last = s.last := rfl
@[simp] theorem nextIndex_tr (s : State) : (nextIndex s).tr = s.tr := rfl
@[simp] theorem nextIndex_hpre (s : State) : (nextIndex s).hpre = s.hpre := rfl
@[simp] theorem nextIndex_cmd (s : State) : (nextIndex s).cmd = s.cmd := rfl
@[simp] theorem nextIndex_rsp (s : State) : (nextIndex s).rsp = s.rsp := rfl
@[simp] theorem nextIndex_insp (s : State) : (nextIndex s).insp = s.insp := rfl
@[simp] theorem nextIndex_rst (s : State) : (nextIndex s).rst = s.rst := rfl
@[simp] theorem nextIndex_resets (s : State) : (nextIndex s).resets = s.resets := rfl

/-! ### `loadChunk` (R163) -/

@[simp] theorem loadChunk_h (l : Bool) (n : BitVec 7) (s : State) : (loadChunk l n s).h = s.h := rfl
@[simp] theorem loadChunk_v (l : Bool) (n : BitVec 7) (s : State) : (loadChunk l n s).v = s.v := rfl
@[simp] theorem loadChunk_w (l : Bool) (n : BitVec 7) (s : State) : (loadChunk l n s).w = s.w := rfl
@[simp] theorem loadChunk_blk (l : Bool) (n : BitVec 7) (s : State) : (loadChunk l n s).blk = s.blk := rfl
@[simp] theorem loadChunk_len (l : Bool) (n : BitVec 7) (s : State) : (loadChunk l n s).len = s.len := rfl
@[simp] theorem loadChunk_fill (l : Bool) (n : BitVec 7) (s : State) : (loadChunk l n s).fill = s.fill := rfl
@[simp] theorem loadChunk_st (l : Bool) (n : BitVec 7) (s : State) : (loadChunk l n s).st = s.st := rfl
@[simp] theorem loadChunk_seq (l : Bool) (n : BitVec 7) (s : State) : (loadChunk l n s).seq = s.seq := rfl
@[simp] theorem loadChunk_err (l : Bool) (n : BitVec 7) (s : State) : (loadChunk l n s).err = s.err := rfl
@[simp] theorem loadChunk_ph (l : Bool) (n : BitVec 7) (s : State) : (loadChunk l n s).ph = phAbs := rfl
@[simp] theorem loadChunk_idx (l : Bool) (n : BitVec 7) (s : State) : (loadChunk l n s).idx = 0#6 := rfl
@[simp] theorem loadChunk_splitb (l : Bool) (n : BitVec 7) (s : State) : (loadChunk l n s).splitb = s.splitb := rfl
@[simp] theorem loadChunk_chunk (l : Bool) (n : BitVec 7) (s : State) : (loadChunk l n s).chunk = writeFrom s.chunk 0 (payload s) := rfl
@[simp] theorem loadChunk_cnt (l : Bool) (n : BitVec 7) (s : State) : (loadChunk l n s).cnt = n := rfl
@[simp] theorem loadChunk_pos (l : Bool) (n : BitVec 7) (s : State) : (loadChunk l n s).pos = 0#7 := rfl
@[simp] theorem loadChunk_last (l : Bool) (n : BitVec 7) (s : State) : (loadChunk l n s).last = l := rfl
@[simp] theorem loadChunk_tr (l : Bool) (n : BitVec 7) (s : State) : (loadChunk l n s).tr = s.tr := rfl
@[simp] theorem loadChunk_hpre (l : Bool) (n : BitVec 7) (s : State) : (loadChunk l n s).hpre = s.hpre := rfl
@[simp] theorem loadChunk_cmd (l : Bool) (n : BitVec 7) (s : State) : (loadChunk l n s).cmd = s.cmd := rfl
@[simp] theorem loadChunk_rsp (l : Bool) (n : BitVec 7) (s : State) : (loadChunk l n s).rsp = s.rsp := rfl
@[simp] theorem loadChunk_insp (l : Bool) (n : BitVec 7) (s : State) : (loadChunk l n s).insp = s.insp := rfl
@[simp] theorem loadChunk_rst (l : Bool) (n : BitVec 7) (s : State) : (loadChunk l n s).rst = s.rst := rfl
@[simp] theorem loadChunk_resets (l : Bool) (n : BitVec 7) (s : State) : (loadChunk l n s).resets = s.resets := rfl

/-! ### `folded` (R143) -/

@[simp] theorem folded_h (s : State) : (folded s).h = foldOctet s.h s.v := rfl
@[simp] theorem folded_v (s : State) : (folded s).v = s.v := rfl
@[simp] theorem folded_w (s : State) : (folded s).w = s.w := rfl
@[simp] theorem folded_blk (s : State) : (folded s).blk = s.blk := rfl
@[simp] theorem folded_len (s : State) : (folded s).len = s.len := rfl
@[simp] theorem folded_fill (s : State) : (folded s).fill = s.fill := rfl
@[simp] theorem folded_st (s : State) : (folded s).st = s.st := rfl
@[simp] theorem folded_seq (s : State) : (folded s).seq = s.seq + 1#64 := rfl
@[simp] theorem folded_err (s : State) : (folded s).err = s.err := rfl
@[simp] theorem folded_ph (s : State) : (folded s).ph = s.ph := rfl
@[simp] theorem folded_idx (s : State) : (folded s).idx = 0#6 := rfl
@[simp] theorem folded_splitb (s : State) : (folded s).splitb = s.splitb := rfl
@[simp] theorem folded_chunk (s : State) : (folded s).chunk = s.chunk := rfl
@[simp] theorem folded_cnt (s : State) : (folded s).cnt = s.cnt := rfl
@[simp] theorem folded_pos (s : State) : (folded s).pos = s.pos := rfl
@[simp] theorem folded_last (s : State) : (folded s).last = s.last := rfl
@[simp] theorem folded_tr (s : State) : (folded s).tr = s.tr := rfl
@[simp] theorem folded_hpre (s : State) : (folded s).hpre = s.hpre := rfl
@[simp] theorem folded_cmd (s : State) : (folded s).cmd = s.cmd := rfl
@[simp] theorem folded_rsp (s : State) : (folded s).rsp = s.rsp := rfl
@[simp] theorem folded_insp (s : State) : (folded s).insp = s.insp ++ [foldRecord s] := rfl
@[simp] theorem folded_rst (s : State) : (folded s).rst = s.rst := rfl
@[simp] theorem folded_resets (s : State) : (folded s).resets = s.resets := rfl

end Sys2Proof.Machine
end

