-- ==== Sys2Proof/Laws/Ops.lean ====
section
/-! SUPPORT. What the shared operations of command acceptance and the host's clock can answer, said
once: an inversion lemma for each, which later proofs cite instead of unfolding it. -/

namespace Sys2Proof.Machine

/-- The host's clock leaves a state with no command waiting as it is. -/
theorem hostTick_of_nil {s : State} (h : s.cmd = []) : hostTick s = s := by
  simp [hostTick, h]

/-- The host's clock leaves a presented command as it is. -/
theorem hostTick_of_presented {s : State} {t : Transfer} {ts : List Transfer} (h : s.cmd = t :: ts)
    (ht : t.wait = 0) : hostTick s = s := by
  obtain ⟨w, x, p⟩ := t
  simp only at ht
  subst ht
  unfold hostTick
  rw [h]
  simp only [Nat.zero_sub, ← h]

/-- A presented command is the head of the port with its wait over. -/
theorem presented_eq_some {s : State} {t : Transfer} (h : presented s = some t) :
    ∃ ts, s.cmd = t :: ts ∧ t.wait = 0 := by
  unfold presented at h
  split at h
  · cases h
  · rename_i t' ts heq
    split at h
    · cases h
      exact ⟨ts, heq, by assumption⟩
    · cases h

/-- A head whose wait is over is presented. -/
theorem presented_of_head {s : State} {t : Transfer} {ts : List Transfer} (h : s.cmd = t :: ts)
    (ht : t.wait = 0) : presented s = some t := by
  simp [presented, h, ht]

/-- While a command is presented, or none is there, the host's clock does nothing. -/
theorem hostTick_of_fetch {s : State} {t : Transfer} (h : presented s = some t) :
    hostTick s = s := by
  obtain ⟨ts, h1, h2⟩ := presented_eq_some h
  exact hostTick_of_presented h1 h2

/-- Held while busy (R161 case 2), else the meaning. -/
theorem heldWhileBusy_idle {s : State} {k : Outcome} (h : s.ph = phIdle) :
    heldWhileBusy s k = k := by
  simp [heldWhileBusy, h]

theorem heldWhileBusy_busy {s : State} {k : Outcome} (h : s.ph ≠ phIdle) :
    heldWhileBusy s k = .next s := by
  simp [heldWhileBusy, h]

/-- Accepted: idle and no fault pending (R161). -/
theorem whenAccepted_accepted {s : State} {k : Outcome} (h : s.ph = phIdle) (he : s.err = 0#4) :
    whenAccepted s k = k := by
  simp [whenAccepted, heldWhileBusy, h, he]

/-- Ignored: idle with a fault pending (R161 case 4). -/
theorem whenAccepted_ignored {s : State} {k : Outcome} (h : s.ph = phIdle) (he : s.err ≠ 0#4) :
    whenAccepted s k = .next (takeCommand s) := by
  simp [whenAccepted, heldWhileBusy, h, he]

/-- Held (R161 case 2). -/
theorem whenAccepted_busy {s : State} {k : Outcome} (h : s.ph ≠ phIdle) :
    whenAccepted s k = .next s := heldWhileBusy_busy h

/-- Everything acceptance can answer: held unchanged, ignored with the command taken, or what the
accepted command does. -/
theorem whenAccepted_next {s t : State} {k : Outcome} (h : whenAccepted s k = .next t) :
    (s.ph ≠ phIdle ∧ t = s) ∨ (s.ph = phIdle ∧ s.err ≠ 0#4 ∧ t = takeCommand s) ∨
      (s.ph = phIdle ∧ s.err = 0#4 ∧ k = .next t) := by
  by_cases hp : s.ph = phIdle
  · by_cases he : s.err = 0#4
    · rw [whenAccepted_accepted hp he] at h
      exact .inr (.inr ⟨hp, he, h⟩)
    · rw [whenAccepted_ignored hp he] at h
      cases h
      exact .inr (.inl ⟨hp, he, rfl⟩)
  · rw [whenAccepted_busy hp] at h
    cases h
    exact .inl ⟨hp, rfl⟩

/-- A word that is no command: held, ignored, or the fault `IllegalCommand` (R161, R208). -/
theorem acceptIllegal_next {s t : State} (h : acceptIllegal s = .next t) :
    (s.ph ≠ phIdle ∧ t = s) ∨ (s.ph = phIdle ∧ s.err ≠ 0#4 ∧ t = takeCommand s) ∨
      (s.ph = phIdle ∧ s.err = 0#4 ∧ t = takeCommand (raise .illegalCommand s)) := by
  rcases whenAccepted_next h with h | h | ⟨hp, he, h⟩
  · exact .inl h
  · exact .inr (.inl h)
  · cases h
    exact .inr (.inr ⟨hp, he, rfl⟩)

end Sys2Proof.Machine
end

