-- ==== Sys2Proof/Laws/Exec.lean ====
section
/-! SUPPORT. For each meaning, everything it can answer as a next state, said once. -/

namespace Sys2Proof.Machine

theorem execInit_next {s t : State} (h : execInit s = .next t) :
    (s.ph ≠ phIdle ∧ t = s) ∨ (s.ph = phIdle ∧ t = takeCommand (startMessage s)) := by
  by_cases hp : s.ph = phIdle
  · rw [execInit, heldWhileBusy_idle hp] at h
    cases h
    exact .inr ⟨hp, rfl⟩
  · rw [execInit, heldWhileBusy_busy hp] at h
    cases h
    exact .inl ⟨hp, rfl⟩

theorem pushChunk_next {s t : State} {l : Bool} {n : BitVec 7} (h : pushChunk l n s = .next t) :
    (s.ph ≠ phIdle ∧ t = s) ∨ (s.ph = phIdle ∧ s.err ≠ 0#4 ∧ t = takeCommand s) ∨
    (s.ph = phIdle ∧ s.err = 0#4 ∧ s.st ≠ .reading ∧ t = takeCommand (raise .notReading s)) ∨
    (s.ph = phIdle ∧ s.err = 0#4 ∧ s.st = .reading ∧ 64 < n.toNat ∧
      t = takeCommand (raise .badCount s)) ∨
    (s.ph = phIdle ∧ s.err = 0#4 ∧ s.st = .reading ∧ n.toNat ≤ 64 ∧
      (payload s).length = n.toNat ∧ t = takeCommand (loadChunk l n s)) := by
  rcases whenAccepted_next h with h | h | ⟨hp, he, h⟩
  · exact .inl h
  · exact .inr (.inl h)
  · refine .inr (.inr ?_)
    simp only [Config.chunkMax] at h
    split at h
    · cases h
      exact .inl ⟨hp, he, by assumption, rfl⟩
    · rename_i hst
      have hst : s.st = .reading := by simpa using hst
      split at h
      · cases h
        exact .inr (.inl ⟨hp, he, hst, by assumption, rfl⟩)
      · split at h
        · cases h
          exact .inr (.inr ⟨hp, he, hst, by omega, by assumption, rfl⟩)
        · cases h

theorem execDigest_next {s t : State} (h : execDigest s = .next t) :
    (s.ph ≠ phIdle ∧ t = s) ∨ (s.ph = phIdle ∧ s.err ≠ 0#4 ∧ t = takeCommand s) ∨
    (s.ph = phIdle ∧ s.err = 0#4 ∧ s.st = .done ∧
      t = takeCommand (respond (.digest (octetBytes s.h)) s)) ∨
    (s.ph = phIdle ∧ s.err = 0#4 ∧ s.st ≠ .done ∧ t = takeCommand (raise .digestNotReady s)) := by
  rcases whenAccepted_next h with h | h | ⟨hp, he, h⟩
  · exact .inl h
  · exact .inr (.inl h)
  · refine .inr (.inr ?_)
    split at h
    · cases h
      exact .inl ⟨hp, he, by assumption, rfl⟩
    · cases h
      exact .inr ⟨hp, he, by assumption, rfl⟩

theorem execAbort_next {s t : State} (h : execAbort s = .next t) :
    (s.ph ≠ phIdle ∧ t = s) ∨ (s.ph = phIdle ∧ s.err ≠ 0#4 ∧ t = takeCommand s) ∨
    (s.ph = phIdle ∧ s.err = 0#4 ∧ t = takeCommand (raise .sourceAbort s)) := by
  rcases whenAccepted_next h with h | h | ⟨hp, he, h⟩
  · exact .inl h
  · exact .inr (.inl h)
  · cases h
    exact .inr (.inr ⟨hp, he, rfl⟩)

/-- The latch counters in range, as the two inequalities (R35). -/
theorem latchInRange_iff {s : State} :
    latchInRange s = true ↔ s.pos ≤ s.cnt ∧ s.cnt ≤ 64#7 := by
  simp [latchInRange]

theorem execAbs_next {s t : State} (h : execAbs s = .next t) :
    s.pos ≤ s.cnt ∧ s.cnt ≤ 64#7 ∧
    ((s.pos < s.cnt ∧ 2 ^ 64 ≤ s.len.toNat + 8 ∧ t = raise .lengthOverflow s) ∨
     (s.pos < s.cnt ∧ s.len.toNat + 8 < 2 ^ 64 ∧ t = absorbByte s) ∨
     (s.pos = s.cnt ∧ t = endChunk s)) := by
  unfold execAbs at h
  split at h
  · cases h
  · rename_i hl
    obtain ⟨h1, h2⟩ := latchInRange_iff.mp (by simpa using hl)
    refine ⟨h1, h2, ?_⟩
    split at h
    · split at h
      · rename_i hlen
        cases h
        exact .inl ⟨by assumption, by simpa only [lenAtEnd, decide_eq_true_eq] using hlen, rfl⟩
      · rename_i hlen
        cases h
        exact .inr (.inl ⟨by assumption, by
          have := hlen
          simp only [lenAtEnd, decide_eq_true_eq] at this
          omega, rfl⟩)
    · cases h
      refine .inr (.inr ⟨?_, rfl⟩)
      rename_i hlt
      exact BitVec.le_antisymm h1 (by simpa [BitVec.not_lt] using hlt)

theorem execPad1_next {s t : State} (h : execPad1 s = .next t) :
    s.fill.toNat < 56 ∧ t = goTo phLdw 0#6
      { s with blk := Memory.writeBytes s.blk s.fill.toNat (pad1Bytes s.fill.toNat s.len) } := by
  unfold execPad1 at h
  simp only [Config.padThreshold] at h
  split at h
  · cases h
    exact ⟨by assumption, rfl⟩
  · cases h

theorem execLdw_next {s t : State} (h : execLdw s = .next t) :
    s.idx ≤ 15#6 ∧ ∃ x, Memory.read32 s.blk (4 * s.idx.toNat) = .ok x ∧
      ((s.idx = 15#6 ∧ t = goTo phExp 16#6 { s with w := writeAt s.w s.idx x }) ∨
       (s.idx ≠ 15#6 ∧ t = nextIndex { s with w := writeAt s.w s.idx x })) := by
  unfold execLdw at h
  split at h
  · rename_i hi
    split at h
    · cases h
    · rename_i x hx
      refine ⟨hi, x, hx, ?_⟩
      simp only at h
      split at h
      · cases h
        exact .inl ⟨by assumption, rfl⟩
      · cases h
        exact .inr ⟨by assumption, rfl⟩
  · cases h

/-- The word `EXP` computes. -/
def expWord (s : State) : Word :=
  expandWord (readAt s.w (s.idx - 2#6)) (readAt s.w (s.idx - 7#6))
    (readAt s.w (s.idx - 15#6)) (readAt s.w (s.idx - 16#6))

theorem execExp_next {s t : State} (h : execExp s = .next t) :
    16#6 ≤ s.idx ∧
      ((s.idx = 63#6 ∧ t = goTo phSeed 0#6 { s with w := writeAt s.w s.idx (expWord s) }) ∨
       (s.idx ≠ 63#6 ∧ t = nextIndex { s with w := writeAt s.w s.idx (expWord s) })) := by
  unfold execExp at h
  split at h
  · rename_i hi
    refine ⟨hi, ?_⟩
    simp only at h
    split at h
    · cases h
      exact .inl ⟨by assumption, rfl⟩
    · cases h
      exact .inr ⟨by assumption, rfl⟩
  · cases h

/-- The working variables `RND` computes. -/
def rndOctet (s : State) : Octet := round s.v (kConst s.idx) (readAt s.w s.idx)

theorem execRnd_next {s t : State} (h : execRnd s = .next t) :
    (s.idx = 63#6 ∧
      t = goTo phFold 0#6 { s with v := rndOctet s, tr := writeAt s.tr s.idx (rndOctet s) }) ∨
    (s.idx ≠ 63#6 ∧
      t = nextIndex { s with v := rndOctet s, tr := writeAt s.tr s.idx (rndOctet s) }) := by
  unfold execRnd at h
  simp only at h
  split at h
  · cases h
    exact .inl ⟨by assumption, rfl⟩
  · cases h
    exact .inr ⟨by assumption, rfl⟩

theorem execFold_next {s t : State} (h : execFold s = .next t) :
    (s.st = .reading ∧ t = { folded s with ph := phAbs }) ∨
    (s.st = .paddingShort ∧ t = { folded s with st := .done, ph := phIdle }) ∨
    (s.st = .paddingSplit ∧ s.splitb = false ∧ t = { folded s with ph := phPadB }) ∨
    (s.st = .paddingSplit ∧ s.splitb = true ∧ t = { folded s with st := .done, ph := phIdle }) := by
  unfold execFold at h
  split at h <;> cases h <;> simp_all

end Sys2Proof.Machine
end

