-- ==== Sys2Proof/Laws/Effect.lean ====
section
/-! SUPPORT. Everything an instruction can do, in one place: a relation with one constructor per
branch of a rule, each with its guard, and the inversion theorem that `exec` answers a next state
only along one of them. Rules about the whole machine are proved by cases on it. -/

namespace Sys2Proof.Machine

/-- The branches of the rules: `Effect s i t` says that instruction `i` in state `s` can go on to
`t`. -/
inductive Effect (s : State) : Instr → State → Prop where
  | held (i : Instr) : i.format = .cmd → i ≠ .status → s.ph ≠ phIdle → Effect s i s
  | ignored (i : Instr) : i.format = .cmd → i ≠ .status → i ≠ .init → s.ph = phIdle →
      s.err ≠ 0#4 → Effect s i (takeCommand s)
  | init : s.ph = phIdle → Effect s .init (takeCommand (startMessage s))
  | pushNotReading (l : Bool) (n : BitVec 7) : s.ph = phIdle → s.err = 0#4 → s.st ≠ .reading →
      Effect s (.push l n) (takeCommand (raise .notReading s))
  | finalNotReading : s.ph = phIdle → s.err = 0#4 → s.st ≠ .reading →
      Effect s .final (takeCommand (raise .notReading s))
  | pushBadCount (l : Bool) (n : BitVec 7) : s.ph = phIdle → s.err = 0#4 → s.st = .reading →
      64 < n.toNat → Effect s (.push l n) (takeCommand (raise .badCount s))
  | push (l : Bool) (n : BitVec 7) : s.ph = phIdle → s.err = 0#4 → s.st = .reading →
      n.toNat ≤ 64 → (payload s).length = n.toNat →
      Effect s (.push l n) (takeCommand (loadChunk l n s))
  | final : s.ph = phIdle → s.err = 0#4 → s.st = .reading → payload s = [] →
      Effect s .final (takeCommand (loadChunk true 0#7 s))
  | digest : s.ph = phIdle → s.err = 0#4 → s.st = .done →
      Effect s .digest (takeCommand (respond (.digest (octetBytes s.h)) s))
  | digestNotReady : s.ph = phIdle → s.err = 0#4 → s.st ≠ .done →
      Effect s .digest (takeCommand (raise .digestNotReady s))
  | status : Effect s .status (takeCommand (respond (.status (statusWord s)) s))
  | abort : s.ph = phIdle → s.err = 0#4 → Effect s .abort (takeCommand (raise .sourceAbort s))
  | idle : Effect s .idle s
  | absOverflow : s.cnt ≤ 64#7 → s.pos < s.cnt → 2 ^ 64 ≤ s.len.toNat + 8 →
      Effect s .abs (raise .lengthOverflow s)
  | absFull : s.cnt ≤ 64#7 → s.pos < s.cnt → s.len.toNat + 8 < 2 ^ 64 → s.fill = 63#6 →
      Effect s .abs { s with
        blk := Memory.write s.blk s.fill.toNat (readAt s.chunk (s.pos.setWidth 6))
        pos := s.pos + 1#7
        len := s.len + 8#64
        fill := 0#6
        ph := phLdw
        idx := 0#6 }
  | absByte : s.cnt ≤ 64#7 → s.pos < s.cnt → s.len.toNat + 8 < 2 ^ 64 → s.fill ≠ 63#6 →
      Effect s .abs { s with
        blk := Memory.write s.blk s.fill.toNat (readAt s.chunk (s.pos.setWidth 6))
        pos := s.pos + 1#7
        len := s.len + 8#64
        fill := s.fill + 1#6 }
  | absEnd : s.cnt ≤ 64#7 → s.pos = s.cnt → s.last = false → Effect s .abs { s with ph := phIdle }
  | absShort : s.cnt ≤ 64#7 → s.pos = s.cnt → s.last = true → s.fill.toNat < 56 →
      Effect s .abs { s with st := .paddingShort, ph := phPad1 }
  | absSplit : s.cnt ≤ 64#7 → s.pos = s.cnt → s.last = true → 56 ≤ s.fill.toNat →
      Effect s .abs { s with st := .paddingSplit, ph := phPadA }
  | pad1 : s.fill.toNat < 56 → Effect s .pad1 (goTo phLdw 0#6
      { s with blk := Memory.writeBytes s.blk s.fill.toNat (pad1Bytes s.fill.toNat s.len) })
  | padA : Effect s .padA (goTo phLdw 0#6
      { s with blk := Memory.writeBytes s.blk s.fill.toNat (padABytes s.fill.toNat) })
  | padB : Effect s .padB (goTo phLdw 0#6
      { s with blk := Memory.writeBytes s.blk 0 (padBBytes s.len), splitb := true })
  | ldwLast (x : Word) : Memory.read32 s.blk (4 * s.idx.toNat) = .ok x → s.idx = 15#6 →
      Effect s .ldw (goTo phExp 16#6 { s with w := writeAt s.w s.idx x })
  | ldw (x : Word) : Memory.read32 s.blk (4 * s.idx.toNat) = .ok x → s.idx ≤ 15#6 →
      s.idx ≠ 15#6 → Effect s .ldw (nextIndex { s with w := writeAt s.w s.idx x })
  | expLast : s.idx = 63#6 →
      Effect s .exp (goTo phSeed 0#6 { s with w := writeAt s.w s.idx (expWord s) })
  | exp : 16#6 ≤ s.idx → s.idx ≠ 63#6 →
      Effect s .exp (nextIndex { s with w := writeAt s.w s.idx (expWord s) })
  | seed : Effect s .seed (goTo phRnd 0#6 { s with v := s.h, hpre := s.h })
  | rndLast : s.idx = 63#6 → Effect s .rnd (goTo phFold 0#6
      { s with v := rndOctet s, tr := writeAt s.tr s.idx (rndOctet s) })
  | rnd : s.idx ≠ 63#6 → Effect s .rnd
      (nextIndex { s with v := rndOctet s, tr := writeAt s.tr s.idx (rndOctet s) })
  | foldData : s.st = .reading → Effect s .fold { folded s with ph := phAbs }
  | foldShort : s.st = .paddingShort → Effect s .fold { folded s with st := .done, ph := phIdle }
  | foldSplitA : s.st = .paddingSplit → s.splitb = false →
      Effect s .fold { folded s with ph := phPadB }
  | foldSplitB : s.st = .paddingSplit → s.splitb = true →
      Effect s .fold { folded s with st := .done, ph := phIdle }

theorem absorbByte_effect {s : State} (hc : s.cnt ≤ 64#7) (hp : s.pos < s.cnt)
    (hl : s.len.toNat + 8 < 2 ^ 64) : Effect s .abs (absorbByte s) := by
  unfold absorbByte
  simp only
  split
  · exact .absFull hc hp hl ‹_›
  · exact .absByte hc hp hl ‹_›

theorem endChunk_effect {s : State} (hc : s.cnt ≤ 64#7) (hp : s.pos = s.cnt) :
    Effect s .abs (endChunk s) := by
  unfold endChunk
  split
  · exact .absEnd hc hp ‹_›
  · rename_i hl
    have hl : s.last = true := by simpa using hl
    split
    · exact .absShort hc hp hl ‹_›
    · rename_i hf
      exact .absSplit hc hp hl (by simp only [Config.padThreshold] at hf; omega)

/-- `exec` answers a next state only along a branch of a rule. -/
theorem exec_effect {i : Instr} {s t : State} (h : exec i s = .next t) : Effect s i t := by
  cases i with
  | init =>
    rcases execInit_next h with ⟨hp, rfl⟩ | ⟨hp, rfl⟩
    · exact .held _ rfl (by decide) hp
    · exact .init hp
  | push l n =>
    rcases pushChunk_next h with
      ⟨a, rfl⟩ | ⟨a, b, rfl⟩ | ⟨a, b, c, rfl⟩ | ⟨a, b, c, d, rfl⟩ | ⟨a, b, c, d, e, rfl⟩
    · exact .held _ rfl (by simp) a
    · exact .ignored _ rfl (by simp) (by simp) a b
    · exact .pushNotReading _ _ a b c
    · exact .pushBadCount _ _ a b c d
    · exact .push _ _ a b c d e
  | final =>
    rcases pushChunk_next h with
      ⟨a, rfl⟩ | ⟨a, b, rfl⟩ | ⟨a, b, c, rfl⟩ | ⟨a, b, c, d, rfl⟩ | ⟨a, b, c, d, e, rfl⟩
    · exact .held _ rfl (by simp) a
    · exact .ignored _ rfl (by simp) (by simp) a b
    · exact .finalNotReading a b c
    · exact absurd d (by decide)
    · exact .final a b c (List.length_eq_zero_iff.mp e)
  | digest =>
    rcases execDigest_next h with ⟨a, rfl⟩ | ⟨a, b, rfl⟩ | ⟨a, b, c, rfl⟩ | ⟨a, b, c, rfl⟩
    · exact .held _ rfl (by simp) a
    · exact .ignored _ rfl (by simp) (by simp) a b
    · exact .digest a b c
    · exact .digestNotReady a b c
  | status => cases h; exact .status
  | abort =>
    rcases execAbort_next h with ⟨a, rfl⟩ | ⟨a, b, rfl⟩ | ⟨a, b, rfl⟩
    · exact .held _ rfl (by simp) a
    · exact .ignored _ rfl (by simp) (by simp) a b
    · exact .abort a b
  | idle => cases h; exact .idle
  | abs =>
    obtain ⟨_, hc, ⟨a, b, rfl⟩ | ⟨a, b, rfl⟩ | ⟨a, rfl⟩⟩ := execAbs_next h
    · exact .absOverflow hc a b
    · exact absorbByte_effect hc a b
    · exact endChunk_effect hc a
  | pad1 => obtain ⟨a, rfl⟩ := execPad1_next h; exact .pad1 a
  | padA => cases h; exact .padA
  | padB => cases h; exact .padB
  | ldw =>
    obtain ⟨a, x, b, ⟨c, rfl⟩ | ⟨c, rfl⟩⟩ := execLdw_next h
    · exact .ldwLast x b c
    · exact .ldw x b a c
  | exp =>
    obtain ⟨a, ⟨c, rfl⟩ | ⟨c, rfl⟩⟩ := execExp_next h
    · exact .expLast c
    · exact .exp a c
  | seed => cases h; exact .seed
  | rnd =>
    obtain ⟨c, rfl⟩ | ⟨c, rfl⟩ := execRnd_next h
    · exact .rndLast c
    · exact .rnd c
  | fold =>
    obtain ⟨a, rfl⟩ | ⟨a, rfl⟩ | ⟨a, b, rfl⟩ | ⟨a, b, rfl⟩ := execFold_next h
    · exact .foldData a
    · exact .foldShort a
    · exact .foldSplitA a b
    · exact .foldSplitB a b

/-- A micro-operation leaves the command port, the response port and the reset line alone. -/
theorem Effect.uop_ports {i : Instr} {s t : State} (e : Effect s i t) (hi : i.format = .uop) :
    t.cmd = s.cmd ∧ t.rsp = s.rsp ∧ t.rst = s.rst := by
  cases e with
  | held => exact ⟨rfl, rfl, rfl⟩
  | ignored i a => rw [a] at hi; cases hi
  | _ => first
    | (simp [Instr.format] at hi; done)
    | exact ⟨by simp, by simp, by simp⟩

end Sys2Proof.Machine
end

