-- ==== Sys2Proof/Laws/Function.lean ====
section
/-! SUPPORT. The small lemmas of the function level: the primes behind the tables, the schedule as a
stable prefix that satisfies its recurrence, the cutting of messages into blocks from the front, and
that the transfers of a message are what the transport delivers. -/

namespace Sys2Proof.Machine

/-! ### Primes (R21, R22) -/

/-- Trial division finds exactly the primes. -/
theorem isPrime_iff (n : Nat) : isPrime n = true ↔ Nat.Prime n := by
  rw [Nat.prime_def_lt]
  simp only [isPrime, Bool.and_eq_true, decide_eq_true_eq, List.all_eq_true, List.mem_range,
    Bool.or_eq_true]
  refine and_congr_right fun h2 => forall₂_congr fun d hd => ?_
  rw [show n % d ≠ 0 ↔ ¬ d ∣ n from (Nat.dvd_iff_mod_eq_zero ..).not.symm]
  constructor
  · intro h hdvd
    have hpos : d ≠ 0 := by
      rintro rfl
      exact absurd (Nat.zero_dvd.mp hdvd) (by omega)
    rcases h with h | h
    · omega
    · exact absurd hdvd h
  · intro h
    by_cases hdvd : d ∣ n
    · exact .inl (by have := h hdvd; omega)
    · exact .inr hdvd

theorem mem_primesBelow (n p : Nat) : p ∈ primesBelow n ↔ p < n ∧ Nat.Prime p := by
  simp [primesBelow, isPrime_iff]

/-! ### Schedule (R125) -/

@[simp] theorem schedulePrefix_length (b : List Byte) (n : Nat) :
    (schedulePrefix b n).length = n := by
  induction n with
  | zero => rfl
  | succ n ih => simp [schedulePrefix, ih]

/-- Word `i` of the schedule does not depend on how many words have been computed after it. -/
theorem wordAt_schedulePrefix (b : List Byte) {n m i : Nat} (hi : i < n) (hn : n ≤ m) :
    wordAt (schedulePrefix b m) i = wordAt (schedulePrefix b n) i := by
  induction m with
  | zero => omega
  | succ m ih =>
    by_cases h : n = m + 1
    · rw [h]
    · rw [← ih (by omega)]
      simp only [wordAt, schedulePrefix, List.getD_eq_getElem?_getD]
      rw [List.getElem?_append_left (by simp; omega)]

/-! ### Blocks (R117, R170) -/

@[simp] theorem blocksOf_length (n : Nat) (l : List Byte) : (blocksOf n l).length = n := by
  induction n generalizing l with
  | zero => rfl
  | succ n ih => simp [blocksOf, ih]

/-- Blocks that lie inside the first of two parts are blocks of it alone. -/
theorem blocksOf_append (n : Nat) (p q : List Byte) (h : 64 * n ≤ p.length) :
    blocksOf n (p ++ q) = blocksOf n p := by
  induction n generalizing p with
  | zero => rfl
  | succ n ih =>
    simp only [blocksOf]
    rw [List.take_append_of_le_length (by omega), List.drop_append_of_le_length (by omega),
      ih _ (by simp; omega)]

/-- One more block, at the end. -/
theorem blocksOf_succ (n : Nat) (p : List Byte) :
    blocksOf (n + 1) p = blocksOf n p ++ [(p.drop (64 * n)).take 64] := by
  induction n generalizing p with
  | zero => simp [blocksOf]
  | succ n ih =>
    rw [blocksOf, ih (p.drop 64)]
    simp [blocksOf, Nat.mul_add, Nat.add_comm]

theorem pad_length (m : List Byte) : (pad m).length = m.length + 9 + padZeros m.length := by
  simp [pad]
  omega

/-! ### Transfers (R71, R80) -/

/-- A transfer of at most 64 bytes is what the transport delivers, and its word is no `STATUS`. -/
theorem pushTransfer_sized (l : Bool) (c : List Byte) (h : c.length ≤ 64) :
    Transfer.sized (pushTransfer l c) = true ∧ (pushTransfer l c).word ≠ 0x4000#16 := by
  have hall : ∀ (l : Bool) (n : Fin 65), payloadLength (encodePush l (BitVec.ofNat 7 n)) = n ∧
      encodePush l (BitVec.ofNat 7 n) ≠ 0x4000#16 := by decide
  obtain ⟨h1, h2⟩ := hall l ⟨c.length, by omega⟩
  exact ⟨by simp [Transfer.sized, pushTransfer, h1], h2⟩

end Sys2Proof.Machine
end

