-- ==== Sys2Proof/Laws/PerInstr.lean ====
section
/-! SUPPORT. Statements about every instruction as syntax, one lemma per constructor: that decoding
its encoding gives it back, and that its encoding is a word of its row of the opcode table. -/

namespace Sys2Proof

/-- `match` and `mask` of an instruction's row of spec/opcode_table.json, and the row's format. -/
def Laws.tableRow : Instr → Format × Nat × Nat
  | .init => (.cmd, 0x1000, 0xFFFF)
  | .push _ _ => (.cmd, 0x2000, 0xFF00)
  | .digest => (.cmd, 0x3000, 0xFFFF)
  | .status => (.cmd, 0x4000, 0xFFFF)
  | .abort => (.cmd, 0x5000, 0xFFFF)
  | .final => (.cmd, 0x2080, 0xFFFF)
  | .idle => (.uop, 0x0, 0xF)
  | .abs => (.uop, 0x1, 0xF)
  | .pad1 => (.uop, 0x2, 0xF)
  | .padA => (.uop, 0x3, 0xF)
  | .padB => (.uop, 0x4, 0xF)
  | .ldw => (.uop, 0x5, 0xF)
  | .exp => (.uop, 0x6, 0xF)
  | .seed => (.uop, 0x7, 0xF)
  | .rnd => (.uop, 0x8, 0xF)
  | .fold => (.uop, 0x9, 0xF)

/-- An encoded word fits a row: its format is the row's and `word AND mask = match` (R72). -/
def Laws.fitsRow (e : Encoded) (row : Format × Nat × Nat) : Prop :=
  match e, row.1 with
  | .cmd w, .cmd => w.toNat &&& row.2.2 = row.2.1
  | .uop c, .uop => c.toNat &&& row.2.2 = row.2.1
  | .cmd _, .uop => False
  | .uop _, .cmd => False

/-- The encoding of an instruction is a word of its row, and of no other format. -/
def Laws.TableRow.Statement (i : Instr) : Prop := Laws.fitsRow (encode i) (Laws.tableRow i)

theorem Laws.TableRow.init : Laws.TableRow.Statement .init := by
  simp [Laws.TableRow.Statement, Laws.fitsRow, Laws.tableRow, encode]
theorem Laws.TableRow.push (l : Bool) (n : BitVec 7) : Laws.TableRow.Statement (.push l n) := by
  simp only [Laws.TableRow.Statement, Laws.fitsRow, Laws.tableRow, encode]
  revert n l
  decide
theorem Laws.TableRow.digest : Laws.TableRow.Statement .digest := by
  simp [Laws.TableRow.Statement, Laws.fitsRow, Laws.tableRow, encode]
theorem Laws.TableRow.status : Laws.TableRow.Statement .status := by
  simp [Laws.TableRow.Statement, Laws.fitsRow, Laws.tableRow, encode]
theorem Laws.TableRow.abort : Laws.TableRow.Statement .abort := by
  simp [Laws.TableRow.Statement, Laws.fitsRow, Laws.tableRow, encode]
theorem Laws.TableRow.final : Laws.TableRow.Statement .final := by
  simp [Laws.TableRow.Statement, Laws.fitsRow, Laws.tableRow, encode]
theorem Laws.TableRow.idle : Laws.TableRow.Statement .idle := by
  simp [Laws.TableRow.Statement, Laws.fitsRow, Laws.tableRow, encode]
theorem Laws.TableRow.abs : Laws.TableRow.Statement .abs := by
  simp [Laws.TableRow.Statement, Laws.fitsRow, Laws.tableRow, encode]
theorem Laws.TableRow.pad1 : Laws.TableRow.Statement .pad1 := by
  simp [Laws.TableRow.Statement, Laws.fitsRow, Laws.tableRow, encode]
theorem Laws.TableRow.padA : Laws.TableRow.Statement .padA := by
  simp [Laws.TableRow.Statement, Laws.fitsRow, Laws.tableRow, encode]
theorem Laws.TableRow.padB : Laws.TableRow.Statement .padB := by
  simp [Laws.TableRow.Statement, Laws.fitsRow, Laws.tableRow, encode]
theorem Laws.TableRow.ldw : Laws.TableRow.Statement .ldw := by
  simp [Laws.TableRow.Statement, Laws.fitsRow, Laws.tableRow, encode]
theorem Laws.TableRow.exp : Laws.TableRow.Statement .exp := by
  simp [Laws.TableRow.Statement, Laws.fitsRow, Laws.tableRow, encode]
theorem Laws.TableRow.seed : Laws.TableRow.Statement .seed := by
  simp [Laws.TableRow.Statement, Laws.fitsRow, Laws.tableRow, encode]
theorem Laws.TableRow.rnd : Laws.TableRow.Statement .rnd := by
  simp [Laws.TableRow.Statement, Laws.fitsRow, Laws.tableRow, encode]
theorem Laws.TableRow.fold : Laws.TableRow.Statement .fold := by
  simp [Laws.TableRow.Statement, Laws.fitsRow, Laws.tableRow, encode]

end Sys2Proof
end

