-- ==== Sys2Proof/Laws/Step.lean ====
section
/-! SUPPORT. What a step can do, said once: when it refuses, what it fetches, and the three ways it
answers a next state. -/

namespace Sys2Proof.Machine

/-- A state that a model gives a step (R77, U7, U8, U10). -/
theorem irregularity_none {s : State} : irregularity s = none ↔
    s.ph ≤ 9#4 ∧ indexInRange s.ph s.idx = true ∧ (s.pos ≤ s.cnt ∧ s.cnt ≤ 64#7) ∧ s.err ≤ 6#4 ∧
      ∀ t, presented s = some t → Transfer.sized t = true := by
  rw [← latchInRange_iff]
  unfold irregularity
  constructor
  · intro h
    split at h
    · cases h
    · split at h
      · cases h
      · split at h
        · cases h
        · split at h
          · cases h
          · rename_i h1 h2 h3 h4
            refine ⟨by simpa [BitVec.not_lt] using h1, by simpa using h2, by simpa using h3,
              by simpa [BitVec.not_lt] using h4, ?_⟩
            intro t ht
            rw [ht] at h
            simp only at h
            split at h
            · cases h
            · rename_i h5
              simpa using h5
  · rintro ⟨h1, h2, h3, h4, h5⟩
    rw [if_neg (by simpa [BitVec.not_lt] using h1), if_neg (by simp [h2]), if_neg (by simp [h3]),
      if_neg (by simpa [BitVec.not_lt] using h4)]
    cases hp : presented s with
    | none => rfl
    | some t => simp [h5 t hp]

/-- What a step fetches as an instruction: a presented command that is accepted, or the
micro-operation `PH` selects while no command comes before it (R76, R161). -/
theorem fetch_run {s : State} {i : Instr} (h : fetch s = .run i) :
    (∃ t, presented s = some t ∧ decodeCommand t.word = .ok i ∧ (i = .status ∨ s.ph = phIdle)) ∨
    (decodeUop s.ph = .ok i ∧ ∀ t, presented s = some t → t.word ≠ 0x4000#16 ∧ s.ph ≠ phIdle) := by
  have huop : ∀ j, fetchUop s = .run j → decodeUop s.ph = .ok j := by
    intro j hj
    unfold fetchUop at hj
    split at hj
    · cases hj; assumption
    · cases hj
  unfold fetch at h
  split at h
  · exact .inr ⟨huop i h, by intro t ht; simp_all⟩
  · rename_i t ht
    split at h
    · rename_i hw
      cases h
      exact .inl ⟨t, ht, by rw [hw]; decide, .inl rfl⟩
    · split at h
      · rename_i hp
        split at h
        · cases h
          exact .inl ⟨t, ht, by assumption, .inr hp⟩
        · cases h
      · rename_i hw hp
        refine .inr ⟨huop i h, fun t' ht' => ?_⟩
        rw [ht] at ht'
        cases ht'
        exact ⟨hw, hp⟩

/-- What a step fetches as an illegal word (R75, R161). -/
theorem fetch_illegal {s : State} (h : fetch s = .illegal) :
    ∃ t, presented s = some t ∧ (∃ e, decodeCommand t.word = .error e) ∧ s.ph = phIdle := by
  have huop : fetchUop s ≠ .illegal := by
    unfold fetchUop
    split <;> simp
  unfold fetch at h
  split at h
  · exact absurd h huop
  · rename_i t ht
    split at h
    · cases h
    · split at h
      · split at h
        · cases h
        · exact ⟨t, ht, ⟨_, by assumption⟩, by assumption⟩
      · exact absurd h huop

/-- The three ways a step answers a next state: reset, an instruction, an illegal word. -/
theorem step_next {s t : State} (h : step s = .next t) :
    (s.rst = true ∧ t = hardReset s) ∨
    (s.rst = false ∧ irregularity s = none ∧ ∃ i, fetch s = .run i ∧ exec i (hostTick s) = .next t) ∨
    (s.rst = false ∧ irregularity s = none ∧ fetch s = .illegal ∧ acceptIllegal s = .next t) := by
  unfold step at h
  split at h
  · cases h
    exact .inl ⟨by assumption, rfl⟩
  · rename_i hr
    have hr : s.rst = false := by simpa using hr
    split at h
    · cases h
    · rename_i hi
      split at h
      · exact .inr (.inl ⟨hr, hi, _, by assumption, h⟩)
      · exact .inr (.inr ⟨hr, hi, by assumption, h⟩)
      · cases h

/-- A step in a state that has one: the fetched instruction runs. -/
theorem step_of_run {s : State} {i : Instr} (hr : s.rst = false) (hi : irregularity s = none)
    (hf : fetch s = .run i) : step s = exec i (hostTick s) := by
  simp [step, hr, hi, hf]

/-- A step in a state that has one: an illegal word is accepted as one. -/
theorem step_of_illegal {s : State} (hr : s.rst = false) (hi : irregularity s = none)
    (hf : fetch s = .illegal) : step s = acceptIllegal s := by
  simp [step, hr, hi, hf]

/-- One micro-operation. -/
theorem microStep_of_uop {s : State} {i : Instr} (h : decodeUop s.ph = .ok i) :
    microStep s = exec i s := by
  simp [microStep, fetchUop, h]

/-- Micro-operations in sequence. -/
theorem microRun_add {m n : Nat} {s t : State} (h : microRun m s = .next t) :
    microRun (m + n) s = microRun n t := by
  induction m generalizing s with
  | zero => cases h; simp
  | succ m ih =>
    rw [show m + 1 + n = (m + n) + 1 by omega]
    simp only [microRun] at h ⊢
    cases hs : microStep s with
    | next s' => rw [hs] at h; exact ih h
    | fault r => rw [hs] at h; cases h
    | refused r => rw [hs] at h; cases h

/-- One more micro-operation at the end. -/
theorem microRun_succ {n : Nat} {s t u : State} (h : microRun n s = .next t)
    (hs : microStep t = .next u) : microRun (n + 1) s = .next u := by
  rw [microRun_add h]
  simp [microRun, hs]

/-- One step, as a run. -/
theorem stepRun_one {s t : State} (h : step s = .next t) : stepRun 1 s = .next t := by
  simp [stepRun, h]

/-- Steps in sequence. -/
theorem stepRun_add {m n : Nat} {s t : State} (h : stepRun m s = .next t) :
    stepRun (m + n) s = stepRun n t := by
  induction m generalizing s with
  | zero => cases h; simp
  | succ m ih =>
    rw [show m + 1 + n = (m + n) + 1 by omega]
    simp only [stepRun] at h ⊢
    cases hs : step s with
    | next s' => rw [hs] at h; exact ih h
    | fault r => rw [hs] at h; cases h
    | refused r => rw [hs] at h; cases h

/-- The host's run of the machine is the model's. -/
theorem core_run_eq (k : Nat) (s : State) : Host.Core.run Sys2Proof.core k s = stepRun k s := by
  induction k generalizing s with
  | zero => rfl
  | succ k ih =>
    simp only [Host.Core.run, stepRun]
    have e : Sys2Proof.core.step s = step s := rfl
    cases h : step s with
    | next s' => rw [h] at e; rw [e]; exact ih s'
    | fault r => rw [h] at e; rw [e]; rfl
    | refused r => rw [h] at e; rw [e]; rfl

end Sys2Proof.Machine
end

