-- ==== Sys2Proof/Tests/Slice0.lean ====
section
/-! SUPPORT. The model's own tests: words written out from the spec's encoding tables, single steps
whose expected values are those of spec 95_test_vectors.md (each test names its vector), and for
every statement with hypotheses a theorem that shows states and operands which meet them. -/

namespace Sys2Proof.Tests

open Sys2Proof Sys2Proof.Machine

set_option Elab.async false

/-! ### Small states -/

/-- The state after reset with every unspecified array at zero, so that all of it is known. -/
def base : State :=
  { State.reset with
    v := { a := 0, b := 0, c := 0, d := 0, e := 0, f := 0, g := 0, h := 0 }
    w := Vector.replicate 64 0
    chunk := Vector.replicate 64 0
    tr := Vector.replicate 64 { a := 0, b := 0, c := 0, d := 0, e := 0, f := 0, g := 0, h := 0 }
    hpre := { a := 0, b := 0, c := 0, d := 0, e := 0, f := 0, g := 0, h := 0 } }

/-- A block buffer with the given bytes from address 0 up. -/
def blkOf (bs : List Byte) : Memory := Memory.writeBytes [] 0 bs

/-- A full block buffer. -/
def fullBlk : Memory := blkOf (List.replicate 64 0x61#8)

/-- `base` in a phase, with a block buffer. -/
def phase (ph : BitVec 4) (idx : Index) (blk : Memory) : State :=
  { base with ph := ph, idx := idx, blk := blk }

/-- Padding of a 3-byte message. -/
def padShort (ph : BitVec 4) (idx : Index) : State :=
  { phase ph idx fullBlk with st := .paddingShort, fill := 3, len := 24 }

/-- Padding of a 56-byte message. -/
def padSplit (ph : BitVec 4) (idx : Index) (b : Bool) : State :=
  { phase ph idx fullBlk with st := .paddingSplit, fill := 56, len := 448, splitb := b }

/-- `base` at `ABS` with `n` bytes waiting and the chunk latch at `pos` of `cnt`. -/
def absAt (n : Nat) (pos cnt : BitVec 7) (last : Bool) : State :=
  { base with
    ph := phAbs
    blk := blkOf (List.replicate n 0x61#8)
    fill := BitVec.ofNat 6 n
    len := BitVec.ofNat 64 (8 * n)
    chunk := Vector.replicate 64 0x7a#8
    pos := pos
    cnt := cnt
    last := last }

/-- `base` with a command presented. -/
def given (word : BitVec 16) (payload : List Byte) : State :=
  { base with cmd := [{ wait := 0, word := word, payload := payload }] }

/-- The same, `"abc"` done (vector D-3). -/
def abcDone (word : BitVec 16) (payload : List Byte) : State :=
  { given word payload with
    st := .done
    fill := 3
    len := 0x18
    seq := 1
    h := { a := 0xba7816bf, b := 0x8f01cfea, c := 0x414140de, d := 0x5dae2223,
           e := 0xb00361a3, f := 0x96177a9c, g := 0xb410ff61, h := 0xf20015ad } }

/-- What an outcome's next state shows. -/
def after {α : Type} (o : Outcome) (f : State → α) : Option α :=
  match o with
  | .next s => some (f s)
  | .fault _ => none
  | .refused _ => none

/-- The fault an outcome is. -/
def faultOf (o : Outcome) : Option Fault :=
  match o with
  | .next _ => none
  | .fault r => some r
  | .refused _ => none

/-- The refusal an outcome is. -/
def refusalOf (o : Outcome) : Option Refusal :=
  match o with
  | .next _ => none
  | .fault _ => none
  | .refused r => some r

/-! ### Well-formedness: the one ill-formed term is refused -/

theorem test_wellFormed_refuses_final_as_push :
    Instr.wellFormed (.push true 0#7) = false ∧ Instr.wellFormed .final = true := by decide

theorem test_wellFormed_admits_other_pushes :
    Instr.wellFormed (.push false 0#7) = true ∧ Instr.wellFormed (.push true 1#7) = true ∧
    Instr.wellFormed (.push true 127#7) = true := by decide

/-! ### Decoding: words written out bit by bit from R71, R72, R73 and R76 -/

theorem test_decode_init : decodeCommand 0b0001_0000_0000_0000#16 = .ok .init := by decide
/-- `PUSH 3, LAST` is `0x2083` (programs P1, F-9). -/
theorem test_decode_push_last : decodeCommand 0b0010_0000_1_0000011#16 = .ok (.push true 3#7) := by
  decide
/-- `PUSH 65` is `0x2041` (F-5). -/
theorem test_decode_push : decodeCommand 0b0010_0000_0_1000001#16 = .ok (.push false 65#7) := by
  decide
theorem test_decode_digest : decodeCommand 0b0011_0000_0000_0000#16 = .ok .digest := by decide
theorem test_decode_status : decodeCommand 0b0100_0000_0000_0000#16 = .ok .status := by decide
theorem test_decode_abort : decodeCommand 0b0101_0000_0000_0000#16 = .ok .abort := by decide
/-- `FINAL` is `0x2080` (program P3). -/
theorem test_decode_final : decodeCommand 0b0010_0000_1_0000000#16 = .ok .final := by decide
theorem test_decode_idle : decodeUop 0b0000#4 = .ok .idle := by decide
theorem test_decode_abs : decodeUop 0b0001#4 = .ok .abs := by decide
theorem test_decode_pad1 : decodeUop 0b0010#4 = .ok .pad1 := by decide
theorem test_decode_padA : decodeUop 0b0011#4 = .ok .padA := by decide
theorem test_decode_padB : decodeUop 0b0100#4 = .ok .padB := by decide
theorem test_decode_ldw : decodeUop 0b0101#4 = .ok .ldw := by decide
theorem test_decode_exp : decodeUop 0b0110#4 = .ok .exp := by decide
theorem test_decode_seed : decodeUop 0b0111#4 = .ok .seed := by decide
theorem test_decode_rnd : decodeUop 0b1000#4 = .ok .rnd := by decide
theorem test_decode_fold : decodeUop 0b1001#4 = .ok .fold := by decide
theorem test_decode_reserved_opcodes :
    decodeCommand 0x0000#16 = .error .reservedOpcode ∧
    decodeCommand 0x6000#16 = .error .reservedOpcode ∧
    decodeCommand 0x7000#16 = .error .reservedOpcode ∧
    decodeCommand 0xf000#16 = .error .reservedOpcode := by decide
theorem test_decode_reserved_bits :
    decodeCommand 0x2103#16 = .error .reservedBitsSet ∧
    decodeCommand 0x2800#16 = .error .reservedBitsSet ∧
    decodeCommand 0x1001#16 = .error .reservedBitsSet ∧
    decodeCommand 0x5800#16 = .error .reservedBitsSet := by decide
theorem test_decode_reserved_phases :
    decodeUop 10#4 = .error .reservedPhase ∧ decodeUop 15#4 = .error .reservedPhase := by decide

/-- The rows of the opcode table: each word is read as its row's instruction. -/
theorem test_table_words :
    decodeTableWord 16 0x1000 = some .init ∧ decodeTableWord 16 0x2000 = some (.push false 0#7) ∧
    decodeTableWord 16 0x3000 = some .digest ∧ decodeTableWord 16 0x4000 = some .status ∧
    decodeTableWord 16 0x5000 = some .abort ∧ decodeTableWord 16 0x2080 = some .final ∧
    decodeTableWord 8 0 = some .idle ∧ decodeTableWord 8 1 = some .abs ∧
    decodeTableWord 8 2 = some .pad1 ∧ decodeTableWord 8 3 = some .padA ∧
    decodeTableWord 8 4 = some .padB ∧ decodeTableWord 8 5 = some .ldw ∧
    decodeTableWord 8 6 = some .exp ∧ decodeTableWord 8 7 = some .seed ∧
    decodeTableWord 8 8 = some .rnd ∧ decodeTableWord 8 9 = some .fold := by decide

/-! ### Datapath: rows of the tables of section 2.1 -/

theorem test_rotr : rotr 0x61626380 7 = 0x00c2c4c7 ∧ rotr 0x00000001 1 = 0x80000000 := by decide
theorem test_shr : shr 0xffffffff 3 = 0x1fffffff := by decide
theorem test_ssig : ssig0 0xffffffff = 0x1fffffff ∧ ssig1 0x61626380 = 0x7da86405 := by decide
theorem test_bsig : bsig0 0x6a09e667 = 0xce20b47e ∧ bsig1 0x510e527f = 0x3587272b := by decide
theorem test_ch : ch 0x510e527f 0x9b05688c 0x1f83d9ab = 0x1f85c98c := by decide
theorem test_maj : maj 0x6a09e667 0xbb67ae85 0x3c6ef372 = 0x3a6fe667 := by decide
theorem test_add32 : add32 0xffffffff 0x00000001 = 0x00000000 := by decide

/-- R21: the first, a middle and the last entry of the printed table, and the primes it is made of,
"the first 64 primes 2..311". -/
theorem test_tables :
    kConst 0 = 0x428a2f98 ∧ kConst 31 = 0x14292967 ∧ kConst 63 = 0xc67178f2 ∧
    (primesBelow 312).length = 64 ∧ (primesBelow 312)[0]? = some 2 ∧
    (primesBelow 312)[63]? = some 311 := by decide +kernel

/-! ### One step per instruction -/

/-- F-16: `INIT` leaves a fault and `DONE` behind. -/
theorem test_init :
    after (step { abcDone 0x1000 [] with err := 2 })
      (fun s => (s.err, s.st, s.h, s.len, s.fill, statusWord s))
      = some (0#4, .reading, hinit, 0#64, 0#6, 0x00000004#32) := by decide +kernel

/-- F-3 and P1: right after `PUSH 3, LAST` is accepted. -/
theorem test_push :
    after (step (given 0x2083 [0x61, 0x62, 0x63]))
      (fun s => (s.ph, s.cnt, s.pos, s.last, readAt s.chunk 2, statusWord s))
      = some (phAbs, 3#7, 0#7, true, 0x63#8, 0x00000000#32) := by decide +kernel

/-- F-5, F-11: the count fault after reset, the state fault in `DONE`. -/
theorem test_push_faults :
    after (step (given 0x2041 (List.replicate 65 0#8))) (fun s => (statusWord s, s.cmd))
      = some (0x00000034#32, []) ∧
    after (step (abcDone 0x2041 (List.replicate 65 0#8))) statusWord = some 0x00000327#32 := by
  decide +kernel

/-- F-17: the 32 bytes of `"abc"`; the first and the last four. -/
theorem test_digest :
    (after (step (abcDone 0x3000 [])) (fun s => s.rsp)).map
      (fun r => r.map (fun x => match x with
        | .digest bs => (bs.take 4, bs.drop 28)
        | .status _ => ([], [])))
      = some [([0xba, 0x78, 0x16, 0xbf], [0xf2, 0x00, 0x15, 0xad])] := by decide +kernel

/-- F-4: `DIGEST` before the end. -/
theorem test_digest_not_ready :
    after (step (given 0x3000 [])) (fun s => (statusWord s, s.rsp)) = some (0x00000044#32, []) := by
  decide +kernel

/-- F-1, F-15. -/
theorem test_status :
    after (step (given 0x4000 [])) (fun s => s.rsp) = some [.status 0x00000004] ∧
    after (step { abcDone 0x4000 [] with err := 2 }) (fun s => s.rsp)
      = some [.status 0x00000327] := by decide +kernel

/-- F-8; F-12: ignored while a fault is pending. -/
theorem test_abort :
    after (step (given 0x5000 [])) statusWord = some 0x00000054#32 ∧
    after (step { abcDone 0x5000 [] with err := 2 }) statusWord = some 0x00000327#32 := by
  decide +kernel

/-- P3: `FINAL`; P4 line 15: ignored while a fault is pending. -/
theorem test_final :
    after (step (given 0x2080 [])) (fun s => (s.ph, s.cnt, s.last)) = some (phAbs, 0#7, true) ∧
    after (step { given 0x2080 [] with err := 5 }) (fun s => (s.ph, s.err, s.st))
      = some (phIdle, 5#4, .reading) := by decide +kernel

/-- F-6, F-7. -/
theorem test_illegal_word :
    after (step (given 0x2103 [0, 0, 0])) statusWord = some 0x00000014#32 ∧
    after (step (given 0x0000 [])) statusWord = some 0x00000014#32 := by decide +kernel

/-- With nothing presented an idle step changes nothing that `STATUS` shows. -/
theorem test_idle : after (step base) (fun s => (s.ph, statusWord s)) = some (phIdle, 0x4#32) := by
  decide +kernel

/-- F-18, step 1. -/
theorem test_abs_byte :
    after (step { absAt 62 0 2 false with len := 0xfffffffffffffff0 })
      (fun s => (Memory.read s.blk 62, s.len, s.fill, s.pos))
      = some (some 0x7a#8, 0xfffffffffffffff8#64, 63#6, 1#7) := by decide +kernel

/-- F-18, step 2. -/
theorem test_abs_overflow :
    after (step { absAt 63 1 2 false with len := 0xfffffffffffffff8 })
      (fun s => (statusWord s, Memory.read s.blk 63, s.pos))
      = some (0x00003f64#32, none, 1#7) := by decide +kernel

/-- PD-55: no zero fill at all; the trailer of `LEN = 0x1b8`. -/
theorem test_pad1 :
    after (step { absAt 55 0 0 true with ph := phPad1, st := .paddingShort })
      (fun s => (Memory.read s.blk 54, Memory.read s.blk 55, Memory.read s.blk 62,
        Memory.read s.blk 63, s.ph))
      = some (some 0x61#8, some 0x80#8, some 0x01#8, some 0xb8#8, phLdw) := by decide +kernel

/-- PD-63: the terminator at byte 63, no zero fill. -/
theorem test_padA :
    after (step { absAt 63 0 0 true with ph := phPadA, st := .paddingSplit })
      (fun s => (Memory.read s.blk 62, Memory.read s.blk 63, s.ph, s.splitb))
      = some (some 0x61#8, some 0x80#8, phLdw, false) := by decide +kernel

/-- D-56, step 189: block B. -/
theorem test_padB :
    after (step { absAt 56 0 0 true with ph := phPadB, st := .paddingSplit, seq := 1 })
      (fun s => (Memory.read s.blk 0, Memory.read s.blk 55, Memory.read s.blk 62,
        Memory.read s.blk 63, s.splitb))
      = some (some 0x00#8, some 0x00#8, some 0x01#8, some 0xc0#8, true) := by decide +kernel

/-- Section 2.3, byte order: block bytes `00 01 02 ...` give `W[15] = 3c3d3e3f`. -/
theorem test_ldw :
    after (step (phase phLdw 15 (blkOf ((List.range 64).map (BitVec.ofNat 8)))))
      (fun s => (readAt s.w 15, s.ph, s.idx)) = some (0x3c3d3e3f#32, phExp, 16#6) := by
  decide +kernel

/-- SC-abc, step `EXP 17`: `σ1(W15) = 000f0000`. -/
theorem test_exp :
    after (step { phase phExp 17 [] with w := writeAt (Vector.replicate 64 0) 15 0x18 })
      (fun s => (readAt s.w 17, s.idx)) = some (0x000f0000#32, 18#6) := by decide +kernel

/-- R141: `V = HINIT` before the first round. -/
theorem test_seed :
    after (step (phase phSeed 0 [])) (fun s => (s.v, s.hpre, s.ph)) = some (hinit, hinit, phRnd) := by
  decide +kernel

/-- CP-r0. -/
theorem test_rnd :
    after (step { phase phRnd 0 [] with v := hinit, w := writeAt (Vector.replicate 64 0) 0 0x61626380 })
      (fun s => (s.v.a, s.v.b, s.v.e, (readAt s.tr 0).a, s.idx))
      = some (0x5d6aebcd#32, 0x6a09e667#32, 0xfa2a4622#32, 0x5d6aebcd#32, 1#6) := by decide +kernel

/-- The last row of the trace of `"abc"` in `V` (CP-abc, `t = 63`), `H = HINIT`, at `FOLD`. -/
def atFold : State :=
  { phase phFold 0 [] with
    st := .paddingShort
    v := { a := 0x506e3058, b := 0xd39a2165, c := 0x04d24d6c, d := 0xb85e2ce9,
           e := 0x5ef50f24, f := 0xfb121210, g := 0x948d25b6, h := 0x961f4894 } }

/-- CP-abc, `FOLD`: the digest words, two of them with a carry dropped; the end of the message. -/
theorem test_fold :
    after (step atFold) (fun s => s.h)
      = some { a := 0xba7816bf, b := 0x8f01cfea, c := 0x414140de, d := 0x5dae2223,
               e := 0xb00361a3, f := 0x96177a9c, g := 0xb410ff61, h := 0xf20015ad } ∧
    after (step atFold) (fun s => (s.seq, s.st, s.ph)) = some (1#64, .done, phIdle) ∧
    after (step atFold) (fun s => s.insp.map (fun r => (r.seq, r.hpost.d)))
      = some [(0#64, 0x5dae2223#32)] := by decide +kernel

/-- R143, split padding: after block A the next is `PADB`, after block B the end. -/
theorem test_fold_split :
    after (step { phase phFold 0 [] with st := .paddingSplit, fill := 56 }) (fun s => (s.ph, s.st))
      = some (phPadB, .paddingSplit) ∧
    after (step { phase phFold 0 [] with st := .paddingSplit, fill := 56, splitb := true })
      (fun s => (s.ph, s.st)) = some (phIdle, .done) := by decide +kernel

/-! ### The first step after reset, with an opcode-table row placed -/

theorem test_first_step_commands :
    after (step (State.reset.withFetchWord 16 0x1000)) (fun s => s.ph) = some phIdle ∧
    after (step (State.reset.withFetchWord 16 0x2000)) (fun s => s.ph) = some phAbs ∧
    after (step (State.reset.withFetchWord 16 0x3000)) (fun s => s.err) = some 4#4 ∧
    after (step (State.reset.withFetchWord 16 0x4000)) (fun s => s.rsp) = some [.status 4] ∧
    after (step (State.reset.withFetchWord 16 0x5000)) (fun s => s.err) = some 5#4 ∧
    after (step (State.reset.withFetchWord 16 0x2080)) (fun s => s.last) = some true := by
  decide +kernel

theorem test_first_step_uops :
    after (step (State.reset.withFetchWord 8 0)) (fun s => s.ph) = some phIdle ∧
    after (step (State.reset.withFetchWord 8 1)) (fun s => s.ph) = some phIdle ∧
    after (step (State.reset.withFetchWord 8 2)) (fun s => s.ph) = some phLdw ∧
    after (step (State.reset.withFetchWord 8 3)) (fun s => s.ph) = some phLdw ∧
    after (step (State.reset.withFetchWord 8 4)) (fun s => s.splitb) = some true ∧
    faultOf (step (State.reset.withFetchWord 8 5)) = some (.blkUnwritten 0) ∧
    after (step (State.reset.withFetchWord 8 6)) (fun s => s.idx) = some 17#6 ∧
    after (step (State.reset.withFetchWord 8 7)) (fun s => s.v) = some hinit ∧
    after (step (State.reset.withFetchWord 8 8)) (fun s => s.idx) = some 1#6 ∧
    after (step (State.reset.withFetchWord 8 9)) (fun s => s.seq) = some 1#64 := by
  decide +kernel

/-! ### Witnesses: for every statement with hypotheses, states and operands that meet them -/

/-- An outcome that shows a value is a next state with that value. -/
theorem next_of_after {α : Type} {o : Outcome} {f : State → α} {x : α} (h : after o f = some x) :
    ∃ t, o = .next t ∧ f t = x := by
  cases o with
  | next t => exact ⟨t, rfl, by simpa [after] using h⟩
  | fault r => simp [after] at h
  | refused r => simp [after] at h

/-- A state that a model gives a step, with the command at the head of its port. -/
abbrev Takes (s : State) (w : BitVec 16) (bs : List Byte) : Prop :=
  s.rst = false ∧ irregularity s = none ∧
    s.cmd = [{ wait := 0, word := w, payload := bs }]

theorem witness_IllegalWordsRaiseIllegalCommand :
    (∃ e, decodeCommand 0x2103#16 = .error e) ∧ Takes (given 0x2103 [0, 0, 0]) 0x2103 [0, 0, 0] ∧
    (∃ e, decodeCommand 0x0fff#16 = .error e) ∧ (∃ e, decodeCommand 0xffff#16 = .error e) ∧
    (∃ e, decodeCommand 0x1001#16 = .error e) ∧ (∃ e, decodeCommand 0x2f00#16 = .error e) ∧
    (given 0x2103 [0, 0, 0]).ph = phIdle ∧ (given 0x2103 [0, 0, 0]).err = 0#4 :=
  ⟨⟨_, rfl⟩, by decide +kernel, ⟨_, rfl⟩, ⟨_, rfl⟩, ⟨_, rfl⟩, ⟨_, rfl⟩, rfl, rfl⟩

/-- Both ends of the `PUSH` row, the word of `FINAL`, illegal words of `OPC` 0x2 at both ends of what
is no `PUSH` row, and the words of other opcodes next to them. -/
theorem witness_PushWordFields :
    ((0x2000#16).toNat / 256 = 0x20 ∧ (0x2000#16 ≠ 0x2080#16)) ∧
    ((0x20ff#16).toNat / 256 = 0x20 ∧ (0x20ff#16 ≠ 0x2080#16)) ∧
    ((0x2100#16).toNat / 4096 = 2 ∧ payloadLength 0x2100#16 = 0) ∧
    ((0x21ff#16).toNat / 4096 = 2 ∧ payloadLength 0x21ff#16 = 127 ∧
      decodeCommand 0x21ff#16 = .error .reservedBitsSet) ∧
    ((0x2fff#16).toNat / 4096 = 2 ∧ payloadLength 0x2fff#16 = 127) ∧
    ((0x1fff#16).toNat / 4096 ≠ 2 ∧ payloadLength 0x1fff#16 = 0) ∧
    ((0x3001#16).toNat / 4096 ≠ 2 ∧ payloadLength 0x3001#16 = 0) := by decide

/-- `PH = ABS` with nothing on the port, with a command not presented yet, with one held; a `STATUS`
while busy; a command in `IDLE`. -/
theorem witness_StepRunsTheDecodedInstruction :
    ((absAt 0 0 1 false).cmd = [] ∧ (absAt 0 0 1 false).rst = false ∧
      irregularity (absAt 0 0 1 false) = none ∧ decodeUop (absAt 0 0 1 false).ph = .ok .abs) ∧
    irregularity { absAt 0 0 1 false with cmd := [{ wait := 1, word := 0x3000, payload := [] }] }
      = none ∧
    (Takes { absAt 0 0 1 false with cmd := (given 0x3000 []).cmd } 0x3000 [] ∧
      (absAt 0 0 1 false).ph ≠ phIdle ∧ (0x3000#16 ≠ 0x4000#16)) ∧
    (Takes { absAt 0 0 1 false with cmd := (given 0x4000 []).cmd } 0x4000 [] ∧
      decodeCommand 0x4000#16 = .ok .status) ∧
    (Takes (given 0x3000 []) 0x3000 [] ∧ (given 0x3000 []).ph = phIdle ∧
      decodeCommand 0x3000#16 = .ok .digest) := by decide +kernel

/-- The six cases of R161. -/
theorem witness_CommandAcceptanceOrder :
    Takes (given 0x4000 []) 0x4000 [] ∧
    (Takes { absAt 0 0 1 false with cmd := (given 0x3000 []).cmd } 0x3000 [] ∧
      (absAt 0 0 1 false).ph ≠ phIdle) ∧
    (Takes (given 0x1000 []) 0x1000 [] ∧ (given 0x1000 []).ph = phIdle) ∧
    (Takes { given 0x3000 [] with err := 6 } 0x3000 [] ∧ (6#4 ≠ 0#4)) ∧
    (Takes (given 0x0000 []) 0x0000 [] ∧
      decodeCommand 0x0000#16 = .error .reservedOpcode ∧ (given 0x0000 []).err = 0#4) ∧
    (Takes (given 0x2040 (List.replicate 64 0#8)) 0x2040 (List.replicate 64 0#8) ∧
      decodeCommand 0x2040#16 = .ok (.push false 64#7)) := by decide +kernel

/-- The reserved values at the ends of their ranges. -/
theorem witness_StepRefusesReservedStates :
    (10#4 ≤ (phase 10 0 []).ph ∧ 10#4 ≤ (phase 15 0 []).ph) ∧
    ((phase phLdw 16 []).ph = phLdw ∧ 16#6 ≤ (phase phLdw 16 []).idx) ∧
    ((phase phExp 15 []).ph = phExp ∧ (phase phExp 15 []).idx ≤ 15#6) ∧
    (64#7 < (absAt 0 0 65 false).cnt ∧ (absAt 0 0 65 false).ph ≤ phFold) ∧
    ((absAt 0 1 0 false).cnt < (absAt 0 1 0 false).pos) ∧
    ((phase phLdw 15 []).ph = phLdw ∧ (phase phLdw 15 []).idx ≤ 15#6 ∧
      64#7 < { phase phLdw 15 [] with cnt := 65 }.cnt) ∧
    ((phase phExp 16 []).ph = phExp ∧ 16#6 ≤ (phase phExp 16 []).idx ∧
      7#4 ≤ { phase phExp 16 [] with err := 15 }.err) ∧
    (7#4 ≤ { base with err := 7#4 }.err ∧ base.pos ≤ base.cnt ∧ base.cnt ≤ 64#7) ∧
    ((given 0x2002 [0]).err ≤ 6#4 ∧ [0#8].length ≠ payloadLength 0x2002#16) := by decide +kernel

theorem witness_MeaningsStopByName :
    ((phase phLdw 15 (blkOf (List.replicate 63 0#8))).idx ≤ 15#6 ∧
      Memory.read (phase phLdw 15 (blkOf (List.replicate 63 0#8))).blk (4 * 15 + 3) = none) ∧
    16#6 ≤ (phase phLdw 16 []).idx ∧ (phase phExp 15 []).idx ≤ 15#6 ∧
    64#7 < (absAt 0 0 65 false).cnt ∧ (absAt 0 1 0 false).cnt < (absAt 0 1 0 false).pos ∧
    ((given 0x2001 []).ph = phIdle ∧ (given 0x2001 []).err = 0#4 ∧
      (given 0x2001 []).st = .reading ∧ (1#7).toNat ≤ 64 ∧
      (payload (given 0x2001 [])).length ≠ (1#7).toNat) ∧
    ((64#7).toNat ≤ 64 ∧ (payload (given 0x2040 [0])).length ≠ (64#7).toNat) ∧
    payload (given 0x2080 [0]) ≠ [] ∧
    56 ≤ (absAt 56 0 0 true).fill.toNat ∧ { phase phFold 0 [] with st := .done }.st = .done := by
  decide +kernel

theorem witness_InitStartsAMessage : (given 0x1000 []).ph = phIdle := rfl

/-- The three outcomes, the counts 0, 64 and 65 among them. -/
theorem witness_PushLoadsTheChunkLatch :
    ((abcDone 0x2000 []).st ≠ .reading ∧ (abcDone 0x2000 []).ph = phIdle ∧
      (abcDone 0x2000 []).err = 0#4) ∧
    ((given 0x2041 []).st = .reading ∧ 64 < (65#7).toNat) ∧
    ((given 0x2000 []).st = .reading ∧ (0#7).toNat ≤ 64 ∧ ([] : List Byte).length = (0#7).toNat) ∧
    ((given 0x2040 (List.replicate 64 0#8)).st = .reading ∧ (64#7).toNat ≤ 64 ∧
      (List.replicate 64 0#8).length = (64#7).toNat) := by decide +kernel

theorem witness_FinalIsAnEmptyLastPush :
    (given 0x2080 []).ph = phIdle ∧ (given 0x2080 []).err = 0#4 ∧ (given 0x2080 []).st = .reading ∧
    (given 0x2080 []).cmd = [{ wait := 0, word := 0x2080, payload := [] }] := by decide +kernel

theorem witness_DigestRespondsOnlyInDone :
    ((abcDone 0x3000 []).ph = phIdle ∧ (abcDone 0x3000 []).err = 0#4 ∧
      (abcDone 0x3000 []).st = .done) ∧
    ((given 0x3000 []).ph = phIdle ∧ (given 0x3000 []).err = 0#4 ∧
      (given 0x3000 []).st ≠ .done) := by decide +kernel

/-- The four codes of `ST` in the status word, each in a state of the spec's vectors: after reset, P1
step 4, D-56 step 57, and the end of the 64-byte message. -/
theorem witness_StatusRespondsTheStatusWord :
    (base.st = .reading ∧ statusWord base = 0x00000004) ∧
    ((padShort phPad1 0).st = .paddingShort ∧
      statusWord (padShort phPad1 0) = 0x00000301) ∧
    ((padSplit phPadA 0 false).st = .paddingSplit ∧
      statusWord (padSplit phPadA 0 false) = 0x00003802) ∧
    ({ base with st := .done }.st = .done ∧ statusWord { base with st := .done } = 0x0000000f) := by
  decide +kernel

theorem witness_AbortRaisesSourceAbort :
    (given 0x5000 []).ph = phIdle ∧ (given 0x5000 []).err = 0#4 := by decide +kernel

theorem witness_CommandsAreHeldOrIgnored :
    (absAt 0 0 1 false).ph ≠ phIdle ∧
    ({ base with err := 1#4 }.ph = phIdle ∧ { base with err := 1#4 }.err ≠ 0#4) := by decide +kernel

/-- The five branches of `ABS`, with `LEN` at its last value, `FILL` at 63 and 62, 55 and 56. -/
theorem witness_AbsAbsorbsOneByteOrEndsTheChunk :
    ((absAt 63 1 2 false).pos ≤ (absAt 63 1 2 false).cnt ∧ (absAt 63 1 2 false).cnt ≤ 64#7 ∧
      { absAt 63 1 2 false with len := 0xfffffffffffffff8 }.len.toNat % 8 = 0 ∧
      (absAt 63 1 2 false).pos < (absAt 63 1 2 false).cnt ∧
      { absAt 63 1 2 false with len := 0xfffffffffffffff8 }.len.toNat = 2 ^ 64 - 8) ∧
    ((absAt 63 63 64 false).pos < (absAt 63 63 64 false).cnt ∧
      (absAt 63 63 64 false).len.toNat ≠ 2 ^ 64 - 8 ∧ (absAt 63 63 64 false).fill.toNat = 63) ∧
    ((absAt 62 0 1 false).pos < (absAt 62 0 1 false).cnt ∧
      (absAt 62 0 1 false).len.toNat % 8 = 0 ∧ (absAt 62 0 1 false).fill.toNat ≠ 63) ∧
    ((absAt 0 64 64 false).pos = (absAt 0 64 64 false).cnt ∧ (absAt 0 64 64 false).last = false) ∧
    ((absAt 55 0 0 true).pos = (absAt 55 0 0 true).cnt ∧ (absAt 55 0 0 true).last = true ∧
      (absAt 55 0 0 true).fill.toNat < 56) ∧
    ((absAt 56 0 0 true).pos = (absAt 56 0 0 true).cnt ∧ (absAt 56 0 0 true).last = true ∧
      56 ≤ (absAt 56 0 0 true).fill.toNat) := by decide +kernel

theorem witness_LenNeverWraps :
    ((absAt 0 0 1 false).pos < (absAt 0 0 1 false).cnt ∧ (absAt 0 0 1 false).cnt ≤ 64#7) ∧
    2 ^ 64 ≤ { absAt 0 0 1 false with len := 0xffffffffffffffff }.len.toNat + 8 ∧
    2 ^ 64 ≤ { absAt 0 0 1 false with len := 0xfffffffffffffff8 }.len.toNat + 8 ∧
    { absAt 0 0 1 false with len := 0xfffffffffffffff0 }.len.toNat + 8 < 2 ^ 64 := by decide +kernel

theorem witness_Pad1GeneratesTheSinglePaddingBlock :
    (absAt 0 0 0 true).fill.toNat ≤ 55 ∧ (absAt 55 0 0 true).fill.toNat ≤ 55 := by decide +kernel

theorem witness_LdwLoadsABigEndianWord :
    ((phase phLdw 0 fullBlk).idx.toNat ≤ 15 ∧ (phase phLdw 15 fullBlk).idx.toNat ≤ 15) ∧
    Memory.read fullBlk (4 * 0) = some 0x61#8 ∧ Memory.read fullBlk (4 * 15) = some 0x61#8 ∧
    Memory.read fullBlk (4 * 15 + 1) = some 0x61#8 ∧
    Memory.read fullBlk (4 * 15 + 2) = some 0x61#8 ∧
    Memory.read fullBlk (4 * 15 + 3) = some 0x61#8 := by decide +kernel

theorem witness_ExpComputesTheRecurrence :
    16 ≤ (phase phExp 16 []).idx.toNat ∧ 16 ≤ (phase phExp 63 []).idx.toNat := by decide +kernel

theorem witness_RndComputesOneRound :
    ∃ t1 t2 : Word, t1 = base.v.h + bsig1 base.v.e + ch base.v.e base.v.f base.v.g
      + kConst base.idx + readAt base.w base.idx ∧ t2 = bsig0 base.v.a + maj base.v.a base.v.b base.v.c :=
  ⟨_, _, rfl, rfl⟩

/-- The folded octet exists, and each of the four driver states of the rule. -/
theorem witness_FoldUpdatesAccumulatorAndEmitsARecord :
    (∃ h' : Octet, ∀ j, h'.get j = (phase phFold 0 []).h.get j + (phase phFold 0 []).v.get j) ∧
    (phase phFold 0 []).st = .reading ∧ { phase phFold 0 [] with st := .paddingShort }.st
      = .paddingShort ∧
    ({ phase phFold 0 [] with st := .paddingSplit }.st = .paddingSplit ∧
      (phase phFold 0 []).splitb = false) ∧
    { phase phFold 0 [] with st := .paddingSplit, splitb := true }.splitb = true :=
  ⟨⟨foldOctet (phase phFold 0 []).h (phase phFold 0 []).v, foldOctet_get _ _⟩, rfl, rfl,
    ⟨rfl, rfl⟩, rfl⟩

theorem witness_RotrPermutesBits_and_bitwise :
    (1 ≤ 1 ∧ 1 ≤ 31 ∧ 0 < 32) ∧ (1 ≤ 31 ∧ 31 ≤ 31 ∧ 31 < 32) := by decide

/-- A pass can begin: `LDW 0` with a full block, in each driver state that has one. -/
theorem witness_PassEqualsCompress_and_Expander :
    (List.replicate 64 0x61#8).length = 64 ∧ (phase phLdw 0 fullBlk).ph = phLdw ∧
    (phase phLdw 0 fullBlk).idx = 0#6 ∧ (phase phLdw 0 fullBlk).st ≠ .done ∧
    { phase phLdw 0 fullBlk with st := .paddingShort }.st = .paddingShort ∧
    ({ phase phLdw 0 fullBlk with st := .paddingSplit }.st = .paddingSplit ∧
      (phase phLdw 0 fullBlk).splitb = false) ∧
    ({ phase phLdw 0 fullBlk with st := .paddingSplit, splitb := true }.st = .paddingSplit ∧
      { phase phLdw 0 fullBlk with st := .paddingSplit, splitb := true }.splitb = true) ∧
    (∀ a, a < 64 → Memory.read (phase phLdw 0 fullBlk).blk a = (List.replicate 64 0x61#8)[a]?) := by
  decide +kernel

theorem witness_ExactlySixtyFourRounds : (phase phRnd 0 []).ph = phRnd ∧ (phase phRnd 0 []).idx = 0#6 := by
  decide +kernel

/-- Three chunks, one of them empty. -/
theorem witness_MachineComputesTheDigest :
    let s : State := { base with
      cmd := messageTransfers [[0x61, 0x62], [], [0x63]]
        ++ [{ wait := 0, word := 0x3000#16, payload := [] }] }
    (∀ c ∈ [[0x61#8, 0x62], [], [0x63]], c.length ≤ 64) ∧
    [0x61#8, 0x62, 0x63] = [[0x61#8, 0x62], [], [0x63]].flatten ∧
    [0x61#8, 0x62, 0x63].length ≤ 2 ^ 61 - 1 ∧
    s.h = hinit ∧ s.len = 0 ∧ s.fill = 0 ∧ s.st = .reading ∧ s.seq = 0 ∧ s.err = 0 ∧
    s.ph = phIdle ∧ s.idx = 0 ∧ s.splitb = false ∧ s.cnt = 0 ∧ s.pos = 0 ∧ s.last = false ∧
    s.rst = false ∧ Memory.wf s.blk = true := by decide +kernel

/-- Three messages of `HashCutsTheMessageIntoChunks`: an exact multiple of 64 has no empty chunk. -/
theorem witness_HashCutsTheMessageIntoChunks :
    hashChunks 2 (List.replicate 128 0x61#8) = [List.replicate 64 0x61#8, List.replicate 64 0x61#8] ∧
    hashChunks 1 (List.replicate 65 0x61#8) = [List.replicate 64 0x61#8, [0x61#8]] ∧
    (List.replicate 128 0x61#8 ≠ []) := by decide +kernel

theorem witness_BlockBufferReadAfterWrite : Memory.wf [] = true ∧ (63 : Nat) < 64 := by decide

/-! Invariant witnesses: states of every phase that meet `Inv`. -/

theorem inv_reset : Machine.Inv State.reset := by constructor <;> decide
theorem inv_given : Machine.Inv (given 0x2103 [0, 0, 0]) := by constructor <;> decide +kernel
theorem inv_push : Machine.Inv (given 0x2041 (List.replicate 65 0#8)) := by
  constructor <;> decide +kernel
theorem inv_digest : Machine.Inv (given 0x3000 []) := by constructor <;> decide +kernel
theorem inv_abort : Machine.Inv (given 0x5000 []) := by constructor <;> decide +kernel
theorem inv_final : Machine.Inv (given 0x2080 []) := by constructor <;> decide +kernel
theorem inv_done : Machine.Inv (abcDone 0x2001 [0x64]) := by constructor <;> decide +kernel
theorem inv_done_init : Machine.Inv (abcDone 0x1000 []) := by constructor <;> decide +kernel
theorem inv_done_reset : Machine.Inv { abcDone 0 [] with rst := true } := by
  constructor <;> decide +kernel
theorem inv_pending : Machine.Inv { abcDone 0x3000 [] with err := 2 } := by
  constructor <;> decide +kernel
theorem inv_pending_status : Machine.Inv { abcDone 0x4000 [] with err := 2 } := by
  constructor <;> decide +kernel
theorem inv_abs_byte : Machine.Inv (absAt 62 0 1 false) := by constructor <;> decide +kernel
theorem inv_abs_full : Machine.Inv (absAt 63 63 64 false) := by constructor <;> decide +kernel
theorem inv_abs_end : Machine.Inv (absAt 0 64 64 false) := by constructor <;> decide +kernel
theorem inv_abs_short : Machine.Inv (absAt 55 0 0 true) := by constructor <;> decide +kernel
theorem inv_abs_split : Machine.Inv (absAt 56 0 0 true) := by constructor <;> decide +kernel

/-- F-18 after its first step: `LEN` at its last value. -/
def atOverflow : State :=
  { absAt 63 1 2 false with len := 0xfffffffffffffff8, seq := 0x7fffffffffffff }

theorem inv_abs_overflow : Machine.Inv atOverflow := by constructor <;> decide +kernel

def dataPass (ph : BitVec 4) (idx : Index) : State :=
  { phase ph idx fullBlk with len := 512, pos := 64, cnt := 64 }

theorem inv_pad1 : Machine.Inv (padShort phPad1 0) := by constructor <;> decide +kernel
theorem inv_padA : Machine.Inv (padSplit phPadA 0 false) := by constructor <;> decide +kernel
theorem inv_padB : Machine.Inv (padSplit phPadB 0 false) := by constructor <;> decide +kernel
theorem inv_ldw : Machine.Inv (dataPass phLdw 0) := by constructor <;> decide +kernel
theorem inv_ldw_last : Machine.Inv (dataPass phLdw 15) := by constructor <;> decide +kernel
theorem inv_exp : Machine.Inv (dataPass phExp 16) := by constructor <;> decide +kernel
theorem inv_exp_last : Machine.Inv (dataPass phExp 63) := by constructor <;> decide +kernel
theorem inv_seed : Machine.Inv (dataPass phSeed 0) := by constructor <;> decide +kernel
theorem inv_rnd : Machine.Inv (dataPass phRnd 62) := by constructor <;> decide +kernel
theorem inv_rnd_last : Machine.Inv (dataPass phRnd 63) := by constructor <;> decide +kernel
theorem inv_fold : Machine.Inv (dataPass phFold 0) := by constructor <;> decide +kernel
theorem inv_fold_short : Machine.Inv (padShort phFold 0) := by constructor <;> decide +kernel
theorem inv_fold_splitA : Machine.Inv (padSplit phFold 0 false) := by constructor <;> decide +kernel
theorem inv_fold_splitB : Machine.Inv (padSplit phFold 0 true) := by constructor <;> decide +kernel

/-- `IdleWithin457MicroOperations` and `StepKeepsTheInvariantAndNeverStops`: a busy state. -/
theorem witness_IdleWithin457_and_StepKeepsTheInvariant : Machine.Inv (absAt 63 63 64 false) ∧ (absAt 63 63 64 false).ph ≠ phIdle :=
  ⟨inv_abs_full, by decide +kernel⟩

/-- The three ways the accumulator changes, each a step that is taken. -/
theorem witness_AccumulatorWrittenOnlyByFoldInitAndReset :
    (∃ t, step { abcDone 0 [] with rst := true } = .next t ∧ t.h = hinit) ∧
    (∃ t, step (abcDone 0x1000 []) = .next t ∧ t.h = hinit) ∧
    (∃ t, step { padShort phFold 0 with v := hinit } = .next t ∧ t.h = foldOctet hinit hinit) :=
  ⟨next_of_after (f := State.h) (by decide +kernel), next_of_after (f := State.h) (by decide +kernel),
    next_of_after (f := State.h) (by decide +kernel)⟩

/-- Every row of the transition table of R160 is taken. -/
theorem witness_DriverStateTransitions :
    (∃ t, step { abcDone 0 [] with rst := true } = .next t ∧ t.st = .reading) ∧
    (∃ t, step (abcDone 0x1000 []) = .next t ∧ t.st = .reading) ∧
    (∃ t, step (absAt 55 0 0 true) = .next t ∧ t.st = .paddingShort) ∧
    (∃ t, step (absAt 56 0 0 true) = .next t ∧ t.st = .paddingSplit) ∧
    (∃ t, step (padShort phFold 0) = .next t ∧ t.st = .done) ∧
    (∃ t, step (padSplit phFold 0 true) = .next t ∧ t.st = .done) :=
  ⟨next_of_after (f := State.st) (by decide +kernel), next_of_after (f := State.st) (by decide +kernel),
    next_of_after (f := State.st) (by decide +kernel), next_of_after (f := State.st) (by decide +kernel),
    next_of_after (f := State.st) (by decide +kernel), next_of_after (f := State.st) (by decide +kernel)⟩

theorem witness_DoneIsTerminal :
    Machine.Inv (abcDone 0x2001 [0x64]) ∧ (abcDone 0x2001 [0x64]).st = .done ∧
    (abcDone 0x2001 [0x64]).rst = false ∧ fetch (abcDone 0x2001 [0x64]) ≠ .run .init ∧
    ∃ t, step (abcDone 0x2001 [0x64]) = .next t ∧ t.err = 2#4 :=
  ⟨inv_done, rfl, rfl, by decide +kernel, next_of_after (f := State.err) (by decide +kernel)⟩

/-- A pending fault, with a command that is ignored and with a `STATUS` that is answered (F-15). -/
theorem witness_FirstFaultIsKept :
    Machine.Inv { abcDone 0x3000 [] with err := 2 } ∧
    { abcDone 0x3000 [] with err := 2 }.err ≠ 0#4 ∧ (abcDone 0x3000 []).rst = false ∧
    fetch { abcDone 0x3000 [] with err := 2 } ≠ .run .init ∧
    (∃ t, step { abcDone 0x3000 [] with err := 2 } = .next t ∧ (t.err, t.rsp) = (2#4, [])) ∧
    Machine.Inv { abcDone 0x4000 [] with err := 2 } ∧
    fetch { abcDone 0x4000 [] with err := 2 } = .run .status ∧
    ∃ t, step { abcDone 0x4000 [] with err := 2 } = .next t ∧
      (t.err, t.rsp) = (2#4, [.status 0x00000327]) :=
  ⟨inv_pending, by decide +kernel, rfl, by decide +kernel,
    next_of_after (f := fun t => (t.err, t.rsp)) (by decide +kernel), inv_pending_status,
    by decide +kernel, next_of_after (f := fun t => (t.err, t.rsp)) (by decide +kernel)⟩

/-- Each of the six causes is raised somewhere. -/
theorem witness_FaultsAreRaisedWhereTheTableSays :
    (∃ t, step (given 0x2103 [0, 0, 0]) = .next t ∧ t.err = 1#4) ∧
    (∃ t, step (abcDone 0x2001 [0x64]) = .next t ∧ t.err = 2#4) ∧
    (∃ t, step (given 0x2041 (List.replicate 65 0#8)) = .next t ∧ t.err = 3#4) ∧
    (∃ t, step (given 0x3000 []) = .next t ∧ t.err = 4#4) ∧
    (∃ t, step (given 0x5000 []) = .next t ∧ t.err = 5#4) ∧
    (∃ t, step atOverflow = .next t ∧ t.err = 6#4) :=
  ⟨next_of_after (f := State.err) (by decide +kernel), next_of_after (f := State.err) (by decide +kernel),
    next_of_after (f := State.err) (by decide +kernel), next_of_after (f := State.err) (by decide +kernel),
    next_of_after (f := State.err) (by decide +kernel), next_of_after (f := State.err) (by decide +kernel)⟩

theorem witness_NoDigestBeforeDone :
    ∃ t, step (abcDone 0x3000 []) = .next t ∧
      t.rsp = (abcDone 0x3000 []).rsp ++ [.digest (octetBytes (abcDone 0x3000 []).h)] :=
  next_of_after (f := State.rsp) (by decide +kernel)

/-- Rows of R169 at the ends of their index ranges; the states meet `Inv` (above). -/
theorem witness_NextPositionTable :
    (∃ t, step (given 0x2080 []) = .next t ∧ (t.ph, t.err) = (phAbs, 0#4)) ∧
    (∃ t, step (given 0x5000 []) = .next t ∧ (t.ph, t.err) = (phIdle, 5#4)) ∧
    (∃ t, microStep atOverflow = .next t ∧ (t.ph, t.idx) = (phIdle, 0#6)) ∧
    (∃ t, microStep (absAt 62 0 1 false) = .next t ∧ (t.ph, t.idx) = (phAbs, 0#6)) ∧
    (∃ t, microStep (absAt 63 63 64 false) = .next t ∧ (t.ph, t.idx) = (phLdw, 0#6)) ∧
    (∃ t, microStep (absAt 0 64 64 false) = .next t ∧ (t.ph, t.idx) = (phIdle, 0#6)) ∧
    (∃ t, microStep (absAt 55 0 0 true) = .next t ∧ (t.ph, t.idx) = (phPad1, 0#6)) ∧
    (∃ t, microStep (absAt 56 0 0 true) = .next t ∧ (t.ph, t.idx) = (phPadA, 0#6)) :=
  ⟨next_of_after (f := fun t => (t.ph, t.err)) (by decide +kernel),
    next_of_after (f := fun t => (t.ph, t.err)) (by decide +kernel),
    next_of_after (f := fun t => (t.ph, t.idx)) (by decide +kernel),
    next_of_after (f := fun t => (t.ph, t.idx)) (by decide +kernel),
    next_of_after (f := fun t => (t.ph, t.idx)) (by decide +kernel),
    next_of_after (f := fun t => (t.ph, t.idx)) (by decide +kernel),
    next_of_after (f := fun t => (t.ph, t.idx)) (by decide +kernel),
    next_of_after (f := fun t => (t.ph, t.idx)) (by decide +kernel)⟩

theorem witness_NextPositionTable_pass :
    (∃ t, microStep (padShort phPad1 0) = .next t ∧ (t.ph, t.idx) = (phLdw, 0#6)) ∧
    (∃ t, microStep (dataPass phLdw 0) = .next t ∧ (t.ph, t.idx) = (phLdw, 1#6)) ∧
    (∃ t, microStep (dataPass phLdw 15) = .next t ∧ (t.ph, t.idx) = (phExp, 16#6)) ∧
    (∃ t, microStep (dataPass phExp 16) = .next t ∧ (t.ph, t.idx) = (phExp, 17#6)) ∧
    (∃ t, microStep (dataPass phExp 63) = .next t ∧ (t.ph, t.idx) = (phSeed, 0#6)) ∧
    (∃ t, microStep (dataPass phSeed 0) = .next t ∧ (t.ph, t.idx) = (phRnd, 0#6)) ∧
    (∃ t, microStep (dataPass phRnd 62) = .next t ∧ (t.ph, t.idx) = (phRnd, 63#6)) ∧
    (∃ t, microStep (dataPass phRnd 63) = .next t ∧ (t.ph, t.idx) = (phFold, 0#6)) :=
  ⟨next_of_after (f := fun t => (t.ph, t.idx)) (by decide +kernel),
    next_of_after (f := fun t => (t.ph, t.idx)) (by decide +kernel),
    next_of_after (f := fun t => (t.ph, t.idx)) (by decide +kernel),
    next_of_after (f := fun t => (t.ph, t.idx)) (by decide +kernel),
    next_of_after (f := fun t => (t.ph, t.idx)) (by decide +kernel),
    next_of_after (f := fun t => (t.ph, t.idx)) (by decide +kernel),
    next_of_after (f := fun t => (t.ph, t.idx)) (by decide +kernel),
    next_of_after (f := fun t => (t.ph, t.idx)) (by decide +kernel)⟩

theorem witness_NextPositionTable_fold :
    (∃ t, microStep (dataPass phFold 0) = .next t ∧ (t.ph, t.idx) = (phAbs, 0#6)) ∧
    (∃ t, microStep (padShort phFold 0) = .next t ∧ (t.ph, t.idx) = (phIdle, 0#6)) ∧
    (∃ t, microStep (padSplit phFold 0 false) = .next t ∧ (t.ph, t.idx) = (phPadB, 0#6)) ∧
    (∃ t, microStep (padSplit phFold 0 true) = .next t ∧ (t.ph, t.idx) = (phIdle, 0#6)) :=
  ⟨next_of_after (f := fun t => (t.ph, t.idx)) (by decide +kernel),
    next_of_after (f := fun t => (t.ph, t.idx)) (by decide +kernel),
    next_of_after (f := fun t => (t.ph, t.idx)) (by decide +kernel),
    next_of_after (f := fun t => (t.ph, t.idx)) (by decide +kernel)⟩

/-- A held command stays, a waiting one comes nearer, a presented one is taken. -/
theorem witness_CommandsAreSerialised :
    (∃ t, step { absAt 0 0 1 false with cmd := (given 0x3000 []).cmd } = .next t ∧
      t.cmd = (given 0x3000 []).cmd) ∧
    (∃ t, step { base with cmd := [{ wait := 1, word := 0x3000, payload := [] }] } = .next t ∧
      t.cmd = (given 0x3000 []).cmd) ∧
    (∃ t, step (given 0x3000 []) = .next t ∧ t.cmd = []) :=
  ⟨next_of_after (f := State.cmd) (by decide +kernel), next_of_after (f := State.cmd) (by decide +kernel),
    next_of_after (f := State.cmd) (by decide +kernel)⟩

theorem witness_OneRecordPerFold :
    (∃ t, step (dataPass phFold 0) = .next t ∧ t.insp.length = 1) ∧
    (∃ t, step (given 0x3000 []) = .next t ∧ t.insp.length = 0) :=
  ⟨next_of_after (f := fun t => t.insp.length) (by decide +kernel),
    next_of_after (f := fun t => t.insp.length) (by decide +kernel)⟩

/-- Two states that differ in `TR`, with a next state, with a fault, with a refusal. -/
theorem witness_InspectionInfluencesNothing :
    (dataPass phFold 0 ≠ { dataPass phFold 0 with tr := Vector.replicate 64 hinit }) ∧
    (∃ t, step (dataPass phFold 0) = .next t ∧ t.ph = phAbs) ∧
    faultOf (step (phase phLdw 0 [])) = some (.blkUnwritten 0) ∧
    refusalOf (step (phase 10 0 [])) = some .reservedPhase :=
  ⟨by decide +kernel, next_of_after (f := State.ph) (by decide +kernel), by decide +kernel,
    by decide +kernel⟩

theorem witness_ResetInAnyPhase :
    { absAt 5 1 2 false with rst := true, cmd := (given 0x3000 []).cmd }.rst = true ∧
    { absAt 5 1 2 false with rst := true, cmd := (given 0x3000 []).cmd }.cmd
      = [{ wait := 0, word := 0x3000, payload := [] }] ∧
    (absAt 5 1 2 false).ph ≠ phIdle ∧ (0x3000#16 ≠ 0x4000#16) := by decide +kernel

end Sys2Proof.Tests
end

section
/-! PROOFS. The block buffer: the obligation about a read of `BLK` after a write (00_scope.md R11,
20_memory.md R50). -/

namespace Sys2Proof.Machine

/-- Settles O39: both halves are laws of byte memory, what a read finds after a write (for any list of
cells, sorted or not) and that a write in range keeps the canonical form. -/
theorem blockBufferReadAfterWrite : Obligations.BlockBufferReadAfterWrite := by
  unfold Obligations.BlockBufferReadAfterWrite
  intro m x b
  exact ⟨Memory.read_write m x b, Memory.wf_write⟩

end Sys2Proof.Machine
end

section
/-! PROOFS. The invariant phase by phase: which part of it does not depend on the phase, what it
asks in each phase, and that the two together are the invariant (10_state.md R39, R41). -/

namespace Sys2Proof.Machine

/-- The part of the invariant that names no phase. -/
structure PhaseFree (s : State) : Prop where
  blkWf : Memory.wf s.blk = true
  errLegal : s.err ≤ 6#4
  latch : s.pos ≤ s.cnt ∧ s.cnt ≤ 64#7
  lenBytes : s.len.toNat % 8 = 0
  lenFill : s.len.toNat / 8 % 64 = s.fill.toNat
  splitState : s.splitb = true → s.st = .paddingSplit ∨ s.st = .done
  shapeShort : s.st = .paddingShort → s.fill.toNat < 56
  shapeSplit : s.st = .paddingSplit → 56 ≤ s.fill.toNat
  transport : ∀ t ∈ s.cmd, Transfer.sized t = true

/-- Between the passes of a message that is still read: every full block is compressed, and the
bytes that wait are written (R39, R41 item 3). -/
structure Buffered (s : State) : Prop where
  blocks : s.seq.toNat = s.len.toNat / 512
  written : WrittenBelow s.blk s.fill.toNat

/-- In the pass of a data block: that block is counted in `LEN` and not yet in `SEQ`, and the buffer
is empty (R41 item 3, R164). -/
structure DataBlock (s : State) : Prop where
  blocks : s.seq.toNat + 1 = s.len.toNat / 512
  empty : s.fill = 0#6

/-- The index that goes with a phase of a pass (R33, R76). -/
abbrev PassIndex (p : BitVec 4) (i : Index) : Prop :=
  (p = phLdw → i ≤ 15#6) ∧ (p = phExp → 16#6 ≤ i) ∧ (p = phSeed ∨ p = phFold → i = 0#6)

/-- What the invariant asks in each phase. -/
inductive AtPhase (s : State) : Prop where
  | idle : s.ph = phIdle → s.idx = 0#6 → s.st = .reading ∧ Buffered s ∨ s.st = .done → AtPhase s
  | abs : s.ph = phAbs → s.err = 0#4 → s.idx = 0#6 → s.st = .reading → Buffered s → AtPhase s
  | pad1 : s.ph = phPad1 → s.err = 0#4 → s.idx = 0#6 → s.st = .paddingShort →
      WrittenBelow s.blk s.fill.toNat → AtPhase s
  | padA : s.ph = phPadA → s.err = 0#4 → s.idx = 0#6 → s.st = .paddingSplit → s.splitb = false →
      WrittenBelow s.blk s.fill.toNat → AtPhase s
  | padB : s.ph = phPadB → s.err = 0#4 → s.idx = 0#6 → s.st = .paddingSplit → s.splitb = false →
      AtPhase s
  | pass : InPass s → s.err = 0#4 → PassIndex s.ph s.idx → s.st ≠ .done →
      (s.st = .reading → DataBlock s) → (s.ph = phLdw → WrittenBelow s.blk 64) → AtPhase s

/-- A legal phase is one of the five outside a pass, or one of a pass (R76). -/
theorem phase_cases : ∀ p : BitVec 4, p ≤ phFold →
    p = phIdle ∨ p = phAbs ∨ p = phPad1 ∨ p = phPadA ∨ p = phPadB ∨ phLdw ≤ p := by decide

/-- A phase of a pass is none of the other five. -/
theorem pass_phase_ne : ∀ p : BitVec 4, phLdw ≤ p →
    p ≠ phIdle ∧ p ≠ phAbs ∧ p ≠ phPad1 ∧ p ≠ phPadA ∧ p ≠ phPadB := by decide

/-- A phase of a pass in which `IDX` is ignored is `SEED` or `FOLD` (R76). -/
theorem pass_phase_seed_or_fold : ∀ p : BitVec 4, phLdw ≤ p → p ≤ phFold → p ≠ phLdw → p ≠ phExp →
    p ≠ phRnd → p = phSeed ∨ p = phFold := by decide

theorem phaseFree_of_inv {s : State} (h : Inv s) : PhaseFree s := { h with }

/-- A fault is pending only in `IDLE` (R215). -/
theorem err_zero_at {s : State} {p : BitVec 4} (h : Inv s) (hp : s.ph = p) (hb : p ≠ phIdle) :
    s.err = 0#4 :=
  Decidable.byContradiction fun he => hb (hp ▸ h.faultIdle he)

/-- `IDX` is 0 in the phases that ignore it (R33). -/
theorem idx_zero_at {s : State} {p : BitVec 4} (h : Inv s) (hp : s.ph = p)
    (hn : p ≠ phLdw ∧ p ≠ phExp ∧ p ≠ phRnd) : s.idx = 0#6 := by
  subst hp
  exact h.indexIgnored hn.1 hn.2.1 hn.2.2

theorem buffered_of_inv {s : State} (h : Inv s) (hst : s.st = .reading) (hb : BetweenPasses s) :
    Buffered s :=
  ⟨h.seqBetween hst hb, h.fillWritten hst hb⟩

theorem atPhase_of_inv {s : State} (h : Inv s) : AtPhase s := by
  rcases phase_cases s.ph h.phaseLegal with hp | hp | hp | hp | hp | hp
  · exact .idle hp (idx_zero_at h hp (by decide))
      ((h.idleState hp).imp_left fun hst => ⟨hst, buffered_of_inv h hst (.inl hp)⟩)
  · exact .abs hp (err_zero_at h hp (by decide)) (idx_zero_at h hp (by decide)) (h.absState hp)
      (buffered_of_inv h (h.absState hp) (.inr hp))
  · exact .pad1 hp (err_zero_at h hp (by decide)) (idx_zero_at h hp (by decide)) (h.pad1State hp)
      (h.padWritten (.inl hp))
  · exact .padA hp (err_zero_at h hp (by decide)) (idx_zero_at h hp (by decide)) (h.padAState hp).1
      (h.padAState hp).2 (h.padWritten (.inr hp))
  · exact .padB hp (err_zero_at h hp (by decide)) (idx_zero_at h hp (by decide)) (h.padBState hp).1
      (h.padBState hp).2
  · obtain ⟨hidle, habs, -⟩ := pass_phase_ne s.ph hp
    have hb : ¬ BetweenPasses s := not_or.mpr ⟨hidle, habs⟩
    refine .pass ⟨hp, h.phaseLegal⟩ (err_zero_at h rfl hidle) ⟨h.indexLdw, h.indexExp, ?_⟩
      (mt h.doneIdle hidle) (fun hst => ⟨h.seqInPass hst hb, h.passEmpty hst hb⟩) h.blockWritten
    rintro (hq | hq) <;> exact idx_zero_at h hq (by decide)

/-- The fields that name no phase are those of `PhaseFree`. Of the others, one that speaks of
another phase is void, and one that speaks of this phase is among what `AtPhase` gives. -/
theorem inv_of_atPhase {s : State} (f : PhaseFree s) (a : AtPhase s) : Inv s := by
  obtain ⟨blkWf, errLegal, latch, lenBytes, lenFill, splitState, shapeShort, shapeSplit,
    transport⟩ := f
  cases a with
  | idle hp hi hst =>
    have hread (h : s.st = .reading) : Buffered s := by simpa [h] using hst
    constructor
    any_goals assumption
    case seqBetween => exact fun h _ => (hread h).blocks
    case fillWritten => exact fun h _ => (hread h).written
    case idleState => exact fun _ => hst.imp_left And.left
    all_goals simp [hp, hi, phIdle, phAbs, phPad1, phPadA, phPadB, phLdw, phExp]
  | abs hp he hi hst hb =>
    constructor
    any_goals assumption
    case seqBetween => exact fun _ _ => hb.blocks
    case fillWritten => exact fun _ _ => hb.written
    all_goals simp [hp, he, hi, hst, phIdle, phAbs, phPad1, phPadA, phPadB, phLdw, phExp]
  | pad1 hp he hi hst hw =>
    constructor
    any_goals assumption
    case padWritten => exact fun _ => hw
    all_goals simp [hp, he, hi, hst, phIdle, phAbs, phPad1, phPadA, phPadB, phLdw, phExp]
  | padA hp he hi hst hb hw =>
    constructor
    any_goals assumption
    case padWritten => exact fun _ => hw
    all_goals simp [hp, he, hi, hst, hb, phIdle, phAbs, phPad1, phPadA, phPadB, phLdw, phExp]
  | padB hp he hi hst hb =>
    constructor
    any_goals assumption
    all_goals simp [hp, he, hi, hst, hb, phIdle, phAbs, phPad1, phPadA, phPadB, phLdw, phExp]
  | pass hp he hi hst hd hw =>
    obtain ⟨hidle, habs, hpad1, hpadA, hpadB⟩ := pass_phase_ne s.ph hp.1
    obtain ⟨indexLdw, indexExp, indexZero⟩ := hi
    constructor
    any_goals assumption
    case phaseLegal => exact hp.2
    case indexIgnored =>
      exact fun hl hx hr => indexZero (pass_phase_seed_or_fold s.ph hp.1 hp.2 hl hx hr)
    case seqInPass => exact fun h _ => (hd h).blocks
    case passEmpty => exact fun h _ => (hd h).empty
    all_goals simp [he, hst, hidle, habs, hpad1, hpadA, hpadB]

theorem inv_iff {s : State} : Inv s ↔ PhaseFree s ∧ AtPhase s :=
  ⟨fun h => ⟨phaseFree_of_inv h, atPhase_of_inv h⟩, fun h => inv_of_atPhase h.1 h.2⟩

end Sys2Proof.Machine
end

section
/-! PROOFS. Every operation keeps the invariant: the ports and the reset, a fault, the commands, and
the micro-operations, each in the phase that selects it. -/

namespace Sys2Proof.Machine

/-! ### What the driver and the padding stage have written (R39) -/

theorem writtenBelow_write {m : Memory} {n : Nat} (h : WrittenBelow m n) (b : Byte) :
    WrittenBelow (Memory.write m n b) (n + 1) := by
  intro a ha
  rw [Memory.read_write]
  split
  · rfl
  · exact h a (by omega)

theorem writtenBelow_writeBytes {m : Memory} {n : Nat} (h : WrittenBelow m n) (bs : List Byte) :
    WrittenBelow (Memory.writeBytes m n bs) (n + bs.length) := by
  induction bs generalizing m n with
  | nil => exact h
  | cons b bs ih =>
    rw [List.length_cons, Nat.add_comm bs.length, ← Nat.add_assoc]
    exact ih (writtenBelow_write h b)

theorem add_pad1Bytes_length {r : Nat} (h : r < 56) (len : BitVec 64) :
    r + (pad1Bytes r len).length = 64 := by
  simp [pad1Bytes]
  omega

theorem add_padABytes_length {r : Nat} (h : r < 64) : r + (padABytes r).length = 64 := by
  simp [padABytes]
  omega

theorem padBBytes_length (len : BitVec 64) : 0 + (padBBytes len).length = 64 := by
  simp [padBBytes]

/-! ### The ports, the reset and the registers of which the invariant does not speak -/

theorem inv_ports {s : State} (hs : Inv s) (r : List Response) {c : List Transfer}
    (hc : ∀ t ∈ c, Transfer.sized t = true) : Inv { s with cmd := c, rsp := r } :=
  { hs with transport := hc }

theorem inv_takeCommand {s : State} (hs : Inv s) : Inv (takeCommand s) :=
  inv_ports hs s.rsp fun t ht => hs.transport t (List.mem_of_mem_tail ht)

theorem inv_respond {s : State} (hs : Inv s) (r : Response) : Inv (respond r s) :=
  inv_ports hs (s.rsp ++ [r]) hs.transport

/-- Waiting changes neither the word nor the payload of a command (log 4). -/
theorem inv_hostTick {s : State} (hs : Inv s) : Inv (hostTick s) := by
  unfold hostTick
  split
  · exact hs
  · rename_i t ts hcmd
    have hsized := hs.transport
    rw [hcmd, List.forall_mem_cons] at hsized
    exact inv_ports hs s.rsp (List.forall_mem_cons.mpr hsized)

/-- The invariant does not speak of `V`, `W`, `TR`, `HPRE`. -/
theorem inv_datapath {s : State} (hs : Inv s) (v : Octet) (w : Vector Word 64)
    (tr : Vector Octet 64) (hpre : Octet) : Inv { s with v := v, w := w, tr := tr, hpre := hpre } :=
  { hs with }

/-- Before the first byte of a message nothing waits in the buffer. -/
theorem buffered_of_empty {s : State} (hseq : s.seq = 0#64) (hlen : s.len = 0#64)
    (hfill : s.fill = 0#6) : Buffered s :=
  ⟨by simp [hseq, hlen], by simp [hfill, WrittenBelow]⟩

/-- The values of R40 with any commands the transport delivers, whatever the other ports hold. -/
theorem inv_powerOn (n : Nat) (r : List Response) (i : List InspRecord) {c : List Transfer}
    (hc : ∀ t ∈ c, Transfer.sized t = true) :
    Inv { State.powerOn n with cmd := c, rsp := r, insp := i } := by
  refine inv_iff.mpr ⟨?_, .idle rfl rfl (.inl ⟨rfl, buffered_of_empty rfl rfl rfl⟩)⟩
  constructor
  case transport => exact hc
  all_goals simp [State.powerOn, Memory.wf]

theorem inv_hardReset {s : State} (hs : Inv s) : Inv (hardReset s) := by
  refine inv_powerOn _ _ _ fun t ht => hs.transport t ?_
  split at ht
  · exact List.mem_of_mem_tail ht
  · exact ht

/-! ### Faults and commands -/

/-- Between passes the driver reads or has finished. -/
theorem buffered_or_done_of_betweenPasses {s : State} (hs : Inv s) (hb : BetweenPasses s) :
    s.st = .reading ∧ Buffered s ∨ s.st = .done := by
  have hst : s.st = .reading ∨ s.st = .done := hb.elim hs.idleState fun h => .inl (hs.absState h)
  exact hst.imp_left fun h => ⟨h, buffered_of_inv hs h hb⟩

/-- Between passes `IDX` is ignored, and 0 (R33). -/
theorem idx_zero_of_betweenPasses {s : State} (hs : Inv s) (hb : BetweenPasses s) : s.idx = 0#6 :=
  hb.elim (idx_zero_at hs · (by decide)) (idx_zero_at hs · (by decide))

/-- A fault is taken from `IDLE` or from `ABS` (R215). -/
theorem inv_raise {s : State} (hs : Inv s) (hb : BetweenPasses s) (c : Cause) :
    Inv (raise c s) := by
  have hi := idx_zero_of_betweenPasses hs hb
  have hst := buffered_or_done_of_betweenPasses hs hb
  have hc : c.code ≤ 6#4 := by cases c <;> decide
  exact inv_iff.mpr ⟨{ phaseFree_of_inv hs with errLegal := hc },
    .idle rfl hi (hst.imp_left fun ⟨h, b⟩ => ⟨h, b.blocks, b.written⟩)⟩

theorem inv_startMessage {s : State} (hs : Inv s) : Inv (startMessage s) := by
  refine inv_iff.mpr ⟨?_, .idle rfl rfl (.inl ⟨rfl, buffered_of_empty rfl rfl rfl⟩)⟩
  constructor
  case blkWf => exact hs.blkWf
  case transport => exact hs.transport
  all_goals simp

theorem inv_loadChunk {s : State} (hs : Inv s) (hp : s.ph = phIdle) (he : s.err = 0#4)
    (hst : s.st = .reading) (l : Bool) {n : BitVec 7} (hn : n.toNat ≤ 64) :
    Inv (loadChunk l n s) := by
  have hb := buffered_of_inv hs hst (.inl hp)
  exact inv_iff.mpr ⟨{ phaseFree_of_inv hs with latch := ⟨Nat.zero_le _, hn⟩ },
    .abs rfl he rfl hst ⟨hb.blocks, hb.written⟩⟩

/-! ### `ABS` (R164) -/

/-- What `ABS` finds. -/
theorem abs_of_inv {s : State} (hs : Inv s) (hp : s.ph = phAbs) :
    s.err = 0#4 ∧ s.idx = 0#6 ∧ s.st = .reading ∧ Buffered s :=
  ⟨err_zero_at hs hp (by decide), idx_zero_at hs hp (by decide), hs.absState hp,
    buffered_of_inv hs (hs.absState hp) (.inr hp)⟩

/-- `LEN` counts eight bits more and has not wrapped. -/
theorem len_add_eight {s : State} (h : s.len.toNat + 8 < 2 ^ 64) :
    (s.len + 8#64).toNat = s.len.toNat + 8 := by
  bv_omega

/-- Where a pass begins (R38). -/
theorem ldw_in_pass : phLdw ≤ phLdw ∧ phLdw ≤ phFold := by decide

theorem passIndex_ldw_zero : PassIndex phLdw 0#6 := by decide

section Absorb

variable {s : State} (hs : Inv s) (hp : s.ph = phAbs) (hpos : s.pos < s.cnt)
  (hlen : s.len.toNat + 8 < 2 ^ 64)

include hpos in
theorem pos_succ_le_cnt : s.pos + 1#7 ≤ s.cnt := by bv_omega

include hs hp hpos hlen

/-- A byte that does not fill the buffer. -/
theorem inv_absorb_byte (hf : s.fill ≠ 63#6) (b : Byte) : Inv { s with
    blk := Memory.write s.blk s.fill.toNat b
    pos := s.pos + 1#7
    len := s.len + 8#64
    fill := s.fill + 1#6 } := by
  obtain ⟨he, hi, hst, hb⟩ := abs_of_inv hs hp
  have hfill : (s.fill + 1#6).toNat = s.fill.toNat + 1 := by bv_omega
  have hfull : s.fill.toNat ≠ 63 := by bv_omega
  have hbytes := hs.lenBytes
  have hcount := hs.lenFill
  have hblocks := hb.blocks
  refine inv_iff.mpr ⟨{ phaseFree_of_inv hs with
      blkWf := Memory.wf_write hs.blkWf s.fill.isLt
      latch := ⟨pos_succ_le_cnt hpos, hs.latch.2⟩
      lenBytes := ?_
      lenFill := ?_
      shapeShort := by simp [hst]
      shapeSplit := by simp [hst] },
    .abs hp he hi hst ⟨?_, ?_⟩⟩
  · simp only [len_add_eight hlen]; omega
  · simp only [len_add_eight hlen, hfill]; omega
  · simp only [len_add_eight hlen]; omega
  · simp only [hfill]; exact writtenBelow_write hb.written b

/-- The byte that fills the buffer: the block is complete and its pass begins. -/
theorem inv_absorb_full (hf : s.fill = 63#6) (b : Byte) : Inv { s with
    blk := Memory.write s.blk s.fill.toNat b
    pos := s.pos + 1#7
    len := s.len + 8#64
    fill := 0#6
    ph := phLdw
    idx := 0#6 } := by
  obtain ⟨he, hi, hst, hb⟩ := abs_of_inv hs hp
  have hfull : s.fill.toNat = 63 := by simp [hf]
  have hbytes := hs.lenBytes
  have hcount := hs.lenFill
  have hblocks := hb.blocks
  have hwritten := writtenBelow_write hb.written b
  refine inv_iff.mpr ⟨{ phaseFree_of_inv hs with
      blkWf := Memory.wf_write hs.blkWf s.fill.isLt
      latch := ⟨pos_succ_le_cnt hpos, hs.latch.2⟩
      lenBytes := ?_
      lenFill := ?_
      shapeShort := by simp [hst]
      shapeSplit := by simp [hst] },
    .pass ldw_in_pass he passIndex_ldw_zero (by simp [hst])
      (fun _ => ⟨?_, rfl⟩) (fun _ => ?_)⟩
  · simp only [len_add_eight hlen]; omega
  · simp only [len_add_eight hlen, BitVec.toNat_zero]; omega
  · simp only [len_add_eight hlen]; omega
  · simpa only [hfull] using hwritten

end Absorb

section EndChunk

variable {s : State} (hs : Inv s) (hp : s.ph = phAbs)
include hs hp

/-- `SPLITB` is 0 as long as the driver reads (R41 item 5). -/
theorem splitb_false_of_abs : s.splitb = false := by
  have hst := hs.absState hp
  simpa [hst] using hs.splitState

theorem inv_chunk_end : Inv { s with ph := phIdle } := by
  obtain ⟨he, hi, hst, hb⟩ := abs_of_inv hs hp
  exact inv_iff.mpr ⟨{ phaseFree_of_inv hs with },
    .idle rfl hi (.inl ⟨hst, hb.blocks, hb.written⟩)⟩

theorem inv_end_short (hf : s.fill.toNat < 56) :
    Inv { s with st := .paddingShort, ph := phPad1 } := by
  obtain ⟨he, hi, hst, hb⟩ := abs_of_inv hs hp
  have hsplit := splitb_false_of_abs hs hp
  exact inv_iff.mpr ⟨{ phaseFree_of_inv hs with
      splitState := by simp [hsplit]
      shapeShort := fun _ => hf
      shapeSplit := by simp },
    .pad1 rfl he hi rfl
      hb.written⟩

theorem inv_end_split (hf : 56 ≤ s.fill.toNat) :
    Inv { s with st := .paddingSplit, ph := phPadA } := by
  obtain ⟨he, hi, hst, hb⟩ := abs_of_inv hs hp
  have hsplit := splitb_false_of_abs hs hp
  exact inv_iff.mpr ⟨{ phaseFree_of_inv hs with
      splitState := fun _ => .inl rfl
      shapeShort := by simp
      shapeSplit := fun _ => hf },
    .padA rfl he hi rfl
      hsplit hb.written⟩

end EndChunk

/-! ### The padding stage (R111 to R113) -/

/-- Padding fills the block from an address below which it is written, and its pass begins. -/
theorem inv_padded {s : State} (hs : Inv s) (he : s.err = 0#4)
    (hst : s.st = .paddingShort ∨ s.st = .paddingSplit) {b : Bool}
    (hsplit : b = true → s.st = .paddingSplit ∨ s.st = .done) {x : Nat} {bs : List Byte}
    (hw : WrittenBelow s.blk x) (hx : x + bs.length = 64) :
    Inv (goTo phLdw 0#6 { s with blk := Memory.writeBytes s.blk x bs, splitb := b }) := by
  have hwritten := writtenBelow_writeBytes hw bs
  rw [hx] at hwritten
  exact inv_iff.mpr ⟨{ phaseFree_of_inv hs with
      blkWf := Memory.wf_writeBytes hs.blkWf hx.le
      splitState := hsplit },
    .pass ldw_in_pass he passIndex_ldw_zero (by rcases hst with h | h <;> simp [h])
      (by rcases hst with h | h <;> simp [h]) fun _ => hwritten⟩

theorem inv_pad1 {s : State} (hs : Inv s) (hp : s.ph = phPad1) : Inv (goTo phLdw 0#6
    { s with blk := Memory.writeBytes s.blk s.fill.toNat (pad1Bytes s.fill.toNat s.len) }) :=
  inv_padded hs (err_zero_at hs hp (by decide)) (.inl (hs.pad1State hp)) hs.splitState
    (hs.padWritten (.inl hp)) (add_pad1Bytes_length (hs.shapeShort (hs.pad1State hp)) s.len)

theorem inv_padA {s : State} (hs : Inv s) (hp : s.ph = phPadA) : Inv (goTo phLdw 0#6
    { s with blk := Memory.writeBytes s.blk s.fill.toNat (padABytes s.fill.toNat) }) :=
  inv_padded hs (err_zero_at hs hp (by decide)) (.inr (hs.padAState hp).1) hs.splitState
    (hs.padWritten (.inr hp)) (add_padABytes_length s.fill.isLt)

theorem inv_padB {s : State} (hs : Inv s) (hp : s.ph = phPadB) : Inv (goTo phLdw 0#6
    { s with blk := Memory.writeBytes s.blk 0 (padBBytes s.len), splitb := true }) :=
  inv_padded hs (err_zero_at hs hp (by decide)) (.inr (hs.padBState hp).1)
    (fun _ => .inl (hs.padBState hp).1) (fun a ha => absurd ha a.not_lt_zero)
    (padBBytes_length s.len)

/-! ### The pass (R126, R127, R141 to R143) -/

/-- What a pass has in each of its phases. -/
theorem pass_of_inv {s : State} (hs : Inv s) (hp : phLdw ≤ s.ph) :
    s.err = 0#4 ∧ s.st ≠ .done ∧ (s.st = .reading → DataBlock s) := by
  obtain ⟨hidle, habs, -⟩ := pass_phase_ne s.ph hp
  have hb : ¬ BetweenPasses s := not_or.mpr ⟨hidle, habs⟩
  exact ⟨err_zero_at hs rfl hidle, mt hs.doneIdle hidle,
    fun hst => ⟨hs.seqInPass hst hb, hs.passEmpty hst hb⟩⟩

/-- A pass goes on to a phase and an index that fit; only `LDW` still needs the block. -/
theorem inv_goTo_of_pass {s : State} (hs : Inv s) {q p : BitVec 4} {i : Index} (hp : s.ph = q)
    (hq : phLdw ≤ q) (hp' : phLdw ≤ p ∧ p ≤ phFold) (hi : PassIndex p i)
    (hl : p = phLdw → q = phLdw) : Inv (goTo p i s) := by
  obtain ⟨he, hst, hd⟩ := pass_of_inv hs (hp ▸ hq)
  exact inv_iff.mpr ⟨{ phaseFree_of_inv hs with },
    .pass hp' he hi hst (fun h => ⟨(hd h).blocks, (hd h).empty⟩)
      fun h => hs.blockWritten (hp.trans (hl h))⟩

/-- A pass goes on in its phase. -/
theorem inv_nextIndex_of_pass {s : State} (hs : Inv s) {q : BitVec 4} (hp : s.ph = q)
    (hq : phLdw ≤ q) (hi : PassIndex q (s.idx + 1#6)) : Inv (nextIndex s) := by
  subst hp
  exact inv_goTo_of_pass hs rfl hq ⟨hq, hs.phaseLegal⟩ hi id

theorem passIndex_ldw_succ : ∀ i : Index, i ≤ 15#6 → i ≠ 15#6 → PassIndex phLdw (i + 1#6) := by
  decide

theorem passIndex_exp_succ : ∀ i : Index, 16#6 ≤ i → i ≠ 63#6 → PassIndex phExp (i + 1#6) := by
  decide

theorem passIndex_rnd : ∀ i : Index, PassIndex phRnd i := by decide

section Fold

variable {s : State} (hs : Inv s) (hp : s.ph = phFold)
include hs

theorem phaseFree_folded : PhaseFree (folded s) := { phaseFree_of_inv hs with }

include hp in
/-- `FOLD` of a data block: the driver goes on reading, with that block counted. -/
theorem inv_folded_data (hst : s.st = .reading) : Inv { folded s with ph := phAbs } := by
  obtain ⟨he, -, hd⟩ := pass_of_inv hs (by simp [hp])
  obtain ⟨hblocks, hempty⟩ := hd hst
  refine inv_iff.mpr ⟨{ phaseFree_folded hs with }, .abs rfl he rfl hst ⟨?_, ?_⟩⟩
  · have hlen := s.len.isLt
    show (s.seq + 1#64).toNat = s.len.toNat / 512
    rw [BitVec.toNat_add, Nat.mod_eq_of_lt (by simp; omega)]
    exact hblocks
  · intro a ha
    simp [hempty] at ha

/-- `FOLD` of the last block: the message is done. -/
theorem inv_folded_done : Inv { folded s with st := .done, ph := phIdle } :=
  inv_iff.mpr ⟨{ phaseFree_folded hs with
      splitState := fun _ => .inr rfl
      shapeShort := by simp
      shapeSplit := by simp },
    .idle rfl rfl (.inr rfl)⟩

include hp in
/-- `FOLD` of the first of two padding blocks. -/
theorem inv_folded_splitA (hst : s.st = .paddingSplit) (hb : s.splitb = false) :
    Inv { folded s with ph := phPadB } :=
  have he := err_zero_at hs hp (by decide)
  inv_iff.mpr ⟨{ phaseFree_folded hs with },
    .padB rfl he rfl hst hb⟩

end Fold

end Sys2Proof.Machine
end

section
/-! PROOFS. From every state of the invariant a step answers a next state, and the invariant holds
there again (10_state.md R39, R41; 60_exceptions.md R205; 70_reset_and_hazards.md R223). -/

namespace Sys2Proof.Machine

/-- The code of the phase that selects a micro-operation is its encoding (R76). -/
theorem encode_of_decodeUop {c : BitVec 4} {i : Instr} (h : decodeUop c = .ok i) :
    encode i = .uop c := by
  rcases decodeUop_ok h with
    ⟨rfl, rfl⟩ | ⟨rfl, rfl⟩ | ⟨rfl, rfl⟩ | ⟨rfl, rfl⟩ | ⟨rfl, rfl⟩ | ⟨rfl, rfl⟩ | ⟨rfl, rfl⟩ |
    ⟨rfl, rfl⟩ | ⟨rfl, rfl⟩ | ⟨rfl, rfl⟩ <;> rfl

/-! ### Every branch keeps the invariant -/

/-- Every branch of a rule keeps the invariant: a command's in every state, a micro-operation's in
the phase that selects it. -/
theorem inv_of_effect {i : Instr} {s t : State} (e : Effect s i t) (hs : Inv s)
    (hi : i.format = .uop → encode i = .uop s.ph) : Inv t := by
  have phase {p : BitVec 4} (hf : i.format = .uop) (hp : encode i = .uop p) : s.ph = p :=
    Encoded.uop.inj ((hi hf).symm.trans hp)
  cases e with
  | held => exact hs
  | ignored => exact inv_takeCommand hs
  | init => exact inv_takeCommand (inv_startMessage hs)
  | pushNotReading _ _ hp => exact inv_takeCommand (inv_raise hs (.inl hp) _)
  | finalNotReading hp => exact inv_takeCommand (inv_raise hs (.inl hp) _)
  | pushBadCount _ _ hp => exact inv_takeCommand (inv_raise hs (.inl hp) _)
  | push l n hp he hst hn => exact inv_takeCommand (inv_loadChunk hs hp he hst l hn)
  | final hp he hst => exact inv_takeCommand (inv_loadChunk hs hp he hst true (by decide))
  | digest => exact inv_takeCommand (inv_respond hs _)
  | digestNotReady hp => exact inv_takeCommand (inv_raise hs (.inl hp) _)
  | status => exact inv_takeCommand (inv_respond hs _)
  | abort hp => exact inv_takeCommand (inv_raise hs (.inl hp) _)
  | idle => exact hs
  | absOverflow => exact inv_raise hs (.inr (phase rfl rfl)) _
  | absFull _ hpos hlen hf => exact inv_absorb_full hs (phase rfl rfl) hpos hlen hf _
  | absByte _ hpos hlen hf => exact inv_absorb_byte hs (phase rfl rfl) hpos hlen hf _
  | absEnd => exact inv_chunk_end hs (phase rfl rfl)
  | absShort _ _ _ hf => exact inv_end_short hs (phase rfl rfl) hf
  | absSplit _ _ _ hf => exact inv_end_split hs (phase rfl rfl) hf
  | pad1 => exact inv_pad1 hs (phase rfl rfl)
  | padA => exact inv_padA hs (phase rfl rfl)
  | padB => exact inv_padB hs (phase rfl rfl)
  | ldwLast =>
    exact inv_goTo_of_pass (inv_datapath hs s.v _ s.tr s.hpre) (q := phLdw)
      (phase rfl rfl) (by decide) (by decide) (by decide) (by decide)
  | ldw _ _ hle hne =>
    exact inv_nextIndex_of_pass (inv_datapath hs s.v _ s.tr s.hpre)
      (phase rfl rfl) (by decide) (passIndex_ldw_succ s.idx hle hne)
  | expLast =>
    exact inv_goTo_of_pass (inv_datapath hs s.v _ s.tr s.hpre) (q := phExp)
      (phase rfl rfl) (by decide) (by decide) (by decide) (by decide)
  | exp hle hne =>
    exact inv_nextIndex_of_pass (inv_datapath hs s.v _ s.tr s.hpre)
      (phase rfl rfl) (by decide) (passIndex_exp_succ s.idx hle hne)
  | seed =>
    exact inv_goTo_of_pass (inv_datapath hs _ s.w s.tr _) (q := phSeed)
      (phase rfl rfl) (by decide) (by decide) (by decide) (by decide)
  | rndLast =>
    exact inv_goTo_of_pass (inv_datapath hs _ s.w _ s.hpre) (q := phRnd)
      (phase rfl rfl) (by decide) (by decide) (by decide) (by decide)
  | rnd =>
    exact inv_nextIndex_of_pass (inv_datapath hs _ s.w _ s.hpre)
      (phase rfl rfl) (by decide) (passIndex_rnd _)
  | foldData hst => exact inv_folded_data hs (phase rfl rfl) hst
  | foldShort => exact inv_folded_done hs
  | foldSplitA hst hb => exact inv_folded_splitA hs (phase rfl rfl) hst hb
  | foldSplitB => exact inv_folded_done hs

/-! ### No instruction stops -/

/-- Acceptance answers a next state where the accepted command does (R161). -/
theorem whenAccepted_total {s : State} {k : Outcome}
    (h : s.ph = phIdle → s.err = 0#4 → ∃ t, k = .next t) : ∃ t, whenAccepted s k = .next t := by
  by_cases hp : s.ph = phIdle
  · by_cases he : s.err = 0#4
    · rw [whenAccepted_accepted hp he]
      exact h hp he
    · exact ⟨_, whenAccepted_ignored hp he⟩
  · exact ⟨_, whenAccepted_busy hp⟩

/-- A `PUSH` that comes with `COUNT` payload bytes answers a next state (R163). -/
theorem pushChunk_total {s : State} {l : Bool} {n : BitVec 7} (h : (payload s).length = n.toNat) :
    ∃ t, pushChunk l n s = .next t := by
  refine whenAccepted_total fun _ _ => ?_
  rw [if_pos h]
  split
  · exact ⟨_, rfl⟩
  · split <;> exact ⟨_, rfl⟩

/-- A presented command comes with the payload its word calls for (D23). -/
theorem payload_length_of_presented {s : State} {t : Transfer} (ht : presented s = some t)
    (hsized : Transfer.sized t = true) : (payload s).length = payloadLength t.word := by
  obtain ⟨ts, hcmd, -⟩ := presented_eq_some ht
  simpa [payload, hcmd, Transfer.sized] using hsized

/-- A presented command answers a next state. -/
theorem exec_command_total {s : State} {t : Transfer} {i : Instr} (ht : presented s = some t)
    (hsized : Transfer.sized t = true) (hd : decodeCommand t.word = .ok i) :
    ∃ u, exec i s = .next u := by
  have hlen := payload_length_of_presented ht hsized
  rcases decodeCommand_ok hd with
    ⟨-, -, rfl⟩ | ⟨-, -, -, -, rfl⟩ | ⟨-, -, -, rfl⟩ | ⟨-, -, rfl⟩ | ⟨-, -, rfl⟩ | ⟨-, -, rfl⟩
  · by_cases hp : s.ph = phIdle
    · exact ⟨_, heldWhileBusy_idle hp⟩
    · exact ⟨_, heldWhileBusy_busy hp⟩
  · exact pushChunk_total (hlen.trans (payloadLength_of_final hd))
  · exact pushChunk_total (hlen.trans (payloadLength_of_push hd))
  · refine whenAccepted_total fun _ _ => ?_
    split <;> exact ⟨_, rfl⟩
  · exact ⟨_, rfl⟩
  · exact whenAccepted_total fun _ _ => ⟨_, rfl⟩

theorem execAbs_total {s : State} (hl : s.pos ≤ s.cnt ∧ s.cnt ≤ 64#7) :
    ∃ t, execAbs s = .next t := by
  unfold execAbs
  rw [latchInRange_iff.mpr hl, if_neg (by simp)]
  split
  · split <;> exact ⟨_, rfl⟩
  · exact ⟨_, rfl⟩

/-- `LDW` reads four bytes of a written block (R39). -/
theorem execLdw_total {s : State} (hi : s.idx ≤ 15#6) (hw : WrittenBelow s.blk 64) :
    ∃ t, execLdw s = .next t := by
  have hidx : s.idx.toNat ≤ 15 := hi
  unfold execLdw
  rw [if_pos hi]
  cases hr : Memory.read32 s.blk (4 * s.idx.toNat) with
  | error a =>
    obtain ⟨-, ha, hnone⟩ := Memory.read32_error hr
    have hsome := hw a (by omega)
    simp [hnone] at hsome
  | ok x =>
    simp only
    split <;> exact ⟨_, rfl⟩

theorem execExp_total {s : State} (hi : 16#6 ≤ s.idx) : ∃ t, execExp s = .next t := by
  unfold execExp
  rw [if_pos hi]
  simp only
  split <;> exact ⟨_, rfl⟩

theorem execRnd_total (s : State) : ∃ t, execRnd s = .next t := by
  unfold execRnd
  simp only
  split <;> exact ⟨_, rfl⟩

theorem execFold_total {s : State} (hst : s.st ≠ .done) : ∃ t, execFold s = .next t := by
  unfold execFold
  split
  case h_5 => contradiction
  all_goals exact ⟨_, rfl⟩

/-- The micro-operation `PH` selects answers a next state. -/
theorem exec_uop_total {s : State} {i : Instr} (hs : Inv s) (hd : decodeUop s.ph = .ok i) :
    ∃ t, exec i s = .next t := by
  rcases decodeUop_ok hd with
    ⟨-, rfl⟩ | ⟨-, rfl⟩ | ⟨hp, rfl⟩ | ⟨-, rfl⟩ | ⟨-, rfl⟩ | ⟨hp, rfl⟩ | ⟨hp, rfl⟩ | ⟨-, rfl⟩ |
    ⟨-, rfl⟩ | ⟨hp, rfl⟩
  · exact ⟨_, rfl⟩
  · exact execAbs_total hs.latch
  · exact ⟨_, if_pos (hs.shapeShort (hs.pad1State hp))⟩
  · exact ⟨_, rfl⟩
  · exact ⟨_, rfl⟩
  · exact execLdw_total (hs.indexLdw hp) (hs.blockWritten hp)
  · exact execExp_total (hs.indexExp hp)
  · exact ⟨_, rfl⟩
  · exact execRnd_total s
  · exact execFold_total fun hst => absurd (hp.symm.trans (hs.doneIdle hst)) (by decide)

/-! ### The step -/

/-- A presented command is one of those the transport delivers. -/
theorem sized_of_presented {s : State} {t : Transfer} (hs : Inv s) (ht : presented s = some t) :
    Transfer.sized t = true := by
  obtain ⟨ts, hcmd, -⟩ := presented_eq_some ht
  exact hs.transport t (hcmd ▸ List.mem_cons_self)

/-- A model gives every state of the invariant a step (R77, U7, U8, U10). -/
theorem irregularity_none_of_inv {s : State} (hs : Inv s) : irregularity s = none := by
  refine irregularity_none.mpr ⟨hs.phaseLegal, ?_, hs.latch, hs.errLegal,
    fun _ => sized_of_presented hs⟩
  unfold indexInRange
  split
  · exact decide_eq_true (hs.indexLdw ‹_›)
  · split
    · exact decide_eq_true (hs.indexExp ‹_›)
    · rfl

/-- In a legal phase a step finds something to do (R76). -/
theorem fetch_ne_nothing {s : State} (hp : s.ph ≤ phFold) : fetch s ≠ .nothing := by
  obtain ⟨i, hi⟩ := decodeUop_total hp
  have huop : fetchUop s = .run i := by simp [fetchUop, hi]
  unfold fetch
  rw [huop]
  repeat' split
  all_goals simp

theorem acceptIllegal_total (s : State) : ∃ t, acceptIllegal s = .next t :=
  whenAccepted_total fun _ _ => ⟨_, rfl⟩

theorem inv_acceptIllegal {s t : State} (hs : Inv s) (h : acceptIllegal s = .next t) : Inv t := by
  rcases acceptIllegal_next h with ⟨-, rfl⟩ | ⟨-, -, rfl⟩ | ⟨hp, -, rfl⟩
  · exact hs
  · exact inv_takeCommand hs
  · exact inv_takeCommand (inv_raise hs (.inl hp) _)

/-- The fetched instruction answers a next state, and the invariant holds there: a presented command
with its payload, or the micro-operation of the phase after the host's clock. -/
theorem exec_of_fetch_run {s : State} {i : Instr} (hs : Inv s) (hf : fetch s = .run i) :
    ∃ t, exec i (hostTick s) = .next t ∧ Inv t := by
  rcases fetch_run hf with ⟨c, hc, hd, -⟩ | ⟨hd, -⟩
  · obtain ⟨t, ht⟩ := exec_command_total hc (sized_of_presented hs hc) hd
    rw [hostTick_of_fetch hc]
    refine ⟨t, ht, inv_of_effect (exec_effect ht) hs fun hu => ?_⟩
    simp [decodeCommand_format hd] at hu
  · have hd' : decodeUop (hostTick s).ph = .ok i := by rwa [hostTick_ph]
    obtain ⟨t, ht⟩ := exec_uop_total (inv_hostTick hs) hd'
    exact ⟨t, ht, inv_of_effect (exec_effect ht) (inv_hostTick hs) fun _ => encode_of_decodeUop hd'⟩

/-- Settles O41: what the step fetches in a state of the invariant runs to a next state, and the
reset, an illegal word and every branch of a rule keep the invariant. -/
theorem stepKeepsTheInvariantAndNeverStops : Obligations.StepKeepsTheInvariantAndNeverStops := by
  unfold Obligations.StepKeepsTheInvariantAndNeverStops
  intro s hs
  cases hr : s.rst with
  | true => exact ⟨hardReset s, by simp [step, hr], inv_hardReset hs⟩
  | false =>
    have hi := irregularity_none_of_inv hs
    cases hf : fetch s with
    | run i =>
      obtain ⟨t, ht, hinv⟩ := exec_of_fetch_run hs hf
      exact ⟨t, (step_of_run hr hi hf).trans ht, hinv⟩
    | illegal =>
      obtain ⟨t, ht⟩ := acceptIllegal_total s
      exact ⟨t, (step_of_illegal hr hi hf).trans ht, inv_acceptIllegal hs ht⟩
    | nothing => exact absurd hf (fetch_ne_nothing hs.phaseLegal)

end Sys2Proof.Machine
end

section
/-! PROOFS. The state after reset: that it meets the invariant, and the value of every register that
has one (10_state.md R40, R41). -/

namespace Sys2Proof.Machine

/-- Settles O40: it is the state after hardware reset number 0 with empty ports. -/
theorem resetMeetsTheInvariant : Obligations.ResetMeetsTheInvariant := by
  unfold Obligations.ResetMeetsTheInvariant
  exact inv_powerOn 0 [] [] (List.forall_mem_nil _)

/-- Settles O53: the fields of the literal `State.powerOn 0`. -/
theorem resetValues : Obligations.ResetValues := by
  unfold Obligations.ResetValues
  exact ⟨rfl, rfl, rfl, rfl, rfl, rfl, rfl, rfl, rfl, rfl, rfl, rfl⟩

end Sys2Proof.Machine
end

section
/-! PROOFS. The status word field by field and the command that responds it (10_state.md R29, R37;
44_driver.md R167). -/

namespace Sys2Proof.Machine

/-- Field `ST`, bits 1:0. -/
theorem statusWord_st (s : State) : (statusWord s).extractLsb' 0 2 = s.st.code := by
  refine BitVec.eq_of_getLsbD_eq fun i hi => ?_
  rw [BitVec.getLsbD_extractLsb', statusWord_getLsbD]
  simp [hi]

/-- Flag `READY`, bit 2. -/
theorem statusWord_ready (s : State) : (statusWord s).getLsbD 2 = readyFlag s := by
  rw [statusWord_getLsbD]
  simp

/-- Flag `DONE`, bit 3. -/
theorem statusWord_done (s : State) : (statusWord s).getLsbD 3 = doneFlag s := by
  rw [statusWord_getLsbD]
  simp

/-- Field `ERR`, bits 7:4. -/
theorem statusWord_err (s : State) : (statusWord s).extractLsb' 4 4 = s.err := by
  refine BitVec.eq_of_getLsbD_eq fun i hi => ?_
  rw [BitVec.getLsbD_extractLsb', statusWord_getLsbD, if_neg (by omega), if_neg (by omega),
    if_neg (by omega), if_pos (by omega), Nat.add_sub_cancel_left]
  simp [hi]

/-- Field `FILL`, bits 13:8. -/
theorem statusWord_fill (s : State) : (statusWord s).extractLsb' 8 6 = s.fill := by
  refine BitVec.eq_of_getLsbD_eq fun i hi => ?_
  rw [BitVec.getLsbD_extractLsb', statusWord_getLsbD, if_neg (by omega), if_neg (by omega),
    if_neg (by omega), if_neg (by omega), Nat.add_sub_cancel_left]
  simp [hi]

/-- Bits 31:14 read as 0. -/
theorem statusWord_reserved (s : State) : (statusWord s).extractLsb' 14 18 = 0#18 := by
  refine BitVec.eq_of_getLsbD_eq fun i hi => ?_
  rw [BitVec.getLsbD_extractLsb', statusWord_getLsbD, if_neg (by omega), if_neg (by omega),
    if_neg (by omega), if_neg (by omega), BitVec.getLsbD_of_ge _ _ (by omega)]
  simp

theorem readyFlag_iff (s : State) : readyFlag s = true ↔ s.ph = phIdle := by simp [readyFlag]

theorem doneFlag_iff (s : State) :
    doneFlag s = true ↔ s.st = .done ∧ s.ph = phIdle ∧ s.err = 0#4 := by
  simp [doneFlag, and_assoc]

/-- Settles O13: each field of the word is read off its bits, and `STATUS` completes by
definition. -/
theorem statusRespondsTheStatusWord : Obligations.StatusRespondsTheStatusWord := by
  unfold Obligations.StatusRespondsTheStatusWord
  refine ⟨fun s => ?_, rfl⟩
  rw [statusWord_st, statusWord_ready, statusWord_done, readyFlag_iff, doneFlag_iff]
  have code {d : DriverState} (h : s.st = d) : s.st.code = d.code := congrArg _ h
  exact ⟨code, code, code, code, Iff.rfl, Iff.rfl, statusWord_err s, statusWord_fill s,
    statusWord_reserved s, rfl⟩

end Sys2Proof.Machine
end

section
/-! PROOFS. Where the meanings stop by name, and that `LEN` never wraps (10_state.md R27, R39;
30_encoding.md R77; 60_exceptions.md R213). -/

namespace Sys2Proof.Machine

/-! ### `LEN` -/

theorem lenAtEnd_iff {s : State} : lenAtEnd s = true ↔ 2 ^ 64 ≤ s.len.toNat + 8 :=
  decide_eq_true_iff

/-- `ABS` with a byte to absorb: the overflow test decides (R164, R213). -/
theorem exec_abs_of_lt {s : State} (hp : s.pos < s.cnt) (hc : s.cnt ≤ 64#7) : exec .abs s =
    if lenAtEnd s then .next (raise .lengthOverflow s) else .next (absorbByte s) := by
  have hl : latchInRange s = true := latchInRange_iff.mpr ⟨BitVec.le_of_lt hp, hc⟩
  simp [exec, execAbs, hl, hp]

theorem absorbByte_len (s : State) : (absorbByte s).len = s.len + 8#64 := by
  unfold absorbByte
  simp only
  split <;> rfl

/-- Settles O18: the test compares `LEN + 8` with 2^64 as numbers, so the sum it lets pass has not
wrapped. -/
theorem lenNeverWraps : Obligations.LenNeverWraps := by
  unfold Obligations.LenNeverWraps
  intro s hp hc
  rw [exec_abs_of_lt hp hc]
  refine ⟨fun hlen => ?_, fun hlen => ?_⟩
  · rw [if_pos (lenAtEnd_iff.mpr hlen)]
    rfl
  · rw [if_neg (mt lenAtEnd_iff.mp hlen.not_ge)]
    exact ⟨absorbByte s, rfl, by rw [absorbByte_len, len_add_eight hlen]⟩

/-! ### Stops -/

/-- `MemRead(addr, 4)` gives a word only where all four bytes are written (R11, R39). -/
theorem isSome_read_of_read32_ok {m : Memory} {x : Nat} {w : Word}
    (h : Memory.read32 m x = .ok w) : ∀ k < 4, (Memory.read m (x + k)).isSome = true := by
  have hf {y : Nat} {b : Byte} (hy : Memory.fetch m y = .ok b) :
      (Memory.read m y).isSome = true := by
    unfold Memory.fetch at hy
    split at hy
    · simp [*]
    · cases hy
  unfold Memory.read32 at h
  split at h
  case h_1 h0 h1 h2 h3 =>
    intro k hk
    interval_cases k
    exacts [hf h0, hf h1, hf h2, hf h3]
  all_goals cases h

/-- Where one of the four bytes is unwritten, `LDW` faults at one that is (R39, log 2). -/
theorem execLdw_of_unwritten {s : State} (hi : s.idx ≤ 15#6)
    (h : ∃ k < 4, Memory.read s.blk (4 * s.idx.toNat + k) = none) :
    ∃ k < 4, Memory.read s.blk (4 * s.idx.toNat + k) = none ∧
      execLdw s = .fault (.blkUnwritten (4 * s.idx.toNat + k)) := by
  cases hr : Memory.read32 s.blk (4 * s.idx.toNat) with
  | ok x =>
    obtain ⟨k, hk, hnone⟩ := h
    have hsome := isSome_read_of_read32_ok hr k hk
    simp [hnone] at hsome
  | error a =>
    obtain ⟨hle, hlt, hnone⟩ := Memory.read32_error hr
    obtain ⟨k, rfl⟩ := Nat.exists_eq_add_of_le hle
    exact ⟨k, by omega, hnone, by simp [execLdw, hi, hr]⟩

/-- An accepted `PUSH` whose payload is not `COUNT` bytes long (U10, log 11). -/
theorem pushChunk_of_length_ne {s : State} {l : Bool} {n : BitVec 7} (hp : s.ph = phIdle)
    (he : s.err = 0#4) (hst : s.st = .reading) (hn : n.toNat ≤ 64)
    (hlen : (payload s).length ≠ n.toNat) : pushChunk l n s = .refused .payloadMismatch := by
  rw [pushChunk, whenAccepted_accepted hp he, if_neg (by simp [hst]), if_neg (by simpa using hn),
    if_neg hlen]

/-- The latch counters out of range (R35, U7). -/
theorem latchInRange_eq_false {s : State} (h : 64#7 < s.cnt ∨ s.cnt < s.pos) :
    latchInRange s = false := by
  rw [← Bool.not_eq_true, latchInRange_iff, not_and_or, BitVec.not_le, BitVec.not_le]
  exact h.symm

/-- Settles O8: in each of the states the guard of the meaning fails. -/
theorem meaningsStopByName : Obligations.MeaningsStopByName := by
  unfold Obligations.MeaningsStopByName
  intro s
  refine ⟨execLdw_of_unwritten, fun hi => ?_, fun hi => ?_, fun hl => ?_, fun hp he hst => ⟨?_, ?_⟩,
    fun hf => ?_, fun hst => ?_⟩
  · exact if_neg (by bv_omega)
  · exact if_neg (by bv_omega)
  · exact if_pos (latchInRange_eq_false hl)
  · intro l n hn hlen
    exact pushChunk_of_length_ne hp he hst hn hlen
  · intro hne
    exact pushChunk_of_length_ne hp he hst (by decide) (by simpa using hne)
  · exact if_neg (by simpa using hf)
  · show execFold s = _
    simp [execFold, hst]

end Sys2Proof.Machine
end

section
/-! PROOFS. The constant tables by the roots of the primes (10_state.md R21, R22). -/

namespace Sys2Proof.Machine

/-- The first 64 primes (R21). -/
def firstPrimes : List Nat :=
  [2, 3, 5, 7, 11, 13, 17, 19, 23, 29, 31, 37, 41, 43, 47, 53,
   59, 61, 67, 71, 73, 79, 83, 89, 97, 101, 103, 107, 109, 113, 127, 131,
   137, 139, 149, 151, 157, 163, 167, 173, 179, 181, 191, 193, 197, 199, 211, 223,
   227, 229, 233, 239, 241, 251, 257, 263, 269, 271, 277, 281, 283, 293, 307, 311]

theorem primesBelow_312 : primesBelow 312 = firstPrimes := by decide +kernel

/-- `x` is the floor of the `k`-th root of `p`, scaled by `2^32`. -/
abbrev IsScaledRoot (k p x : Nat) : Prop :=
  x ^ k ≤ p * 2 ^ (32 * k) ∧ p * 2 ^ (32 * k) < (x + 1) ^ k

/-- The cube roots of the first 64 primes have a whole part below 7. -/
theorem kConst_root : ∀ t : Index, ∃ n < 7,
    IsScaledRoot 3 (firstPrimes.getD t.toNat 0) (n * 2 ^ 32 + (kConst t).toNat) := by
  decide +kernel

/-- The square roots of the first 8 primes have a whole part below 5. -/
theorem hinit_root : ∀ j : Fin 8, ∃ n < 5,
    IsScaledRoot 2 (firstPrimes.getD j.val 0) (n * 2 ^ 32 + (hinit.get j).toNat) := by
  decide +kernel

theorem firstPrimes_getElem? {i : Nat} (h : i < 64) :
    firstPrimes[i]? = some (firstPrimes.getD i 0) := by
  have hi : i < firstPrimes.length := h
  simp [hi]

/-- Settles O55: the primes are computed once, and each entry of a table is checked against its
prime with the whole part of the root found below a bound. -/
theorem constantTablesAreRootFractions : Obligations.ConstantTablesAreRootFractions := by
  unfold Obligations.ConstantTablesAreRootFractions
  rw [primesBelow_312]
  refine ⟨rfl, fun t => ?_, fun j => ?_⟩
  · obtain ⟨n, -, hle, hlt⟩ := kConst_root t
    exact ⟨_, n, firstPrimes_getElem? t.isLt, hle, hlt⟩
  · obtain ⟨n, -, hle, hlt⟩ := hinit_root j
    exact ⟨_, n, firstPrimes_getElem? (by omega), hle, hlt⟩

end Sys2Proof.Machine
end

section
/-! PROOFS. What leaves the command port (20_memory.md R60, R62). -/

namespace Sys2Proof.Machine

/-- The host's clock keeps the port, or brings a waiting command one step nearer (log 4). -/
theorem hostTick_cmd_cases (s : State) :
    (hostTick s).cmd = s.cmd ∨
    ∃ c cs n, s.cmd = c :: cs ∧ c.wait = n + 1 ∧
      (hostTick s).cmd = { c with wait := n } :: cs := by
  cases hcmd : s.cmd with
  | nil => exact .inl (by rw [hostTick_of_nil hcmd, hcmd])
  | cons c cs =>
    cases hw : c.wait with
    | zero => exact .inl (by rw [hostTick_of_presented hcmd hw, hcmd])
    | succ n => exact .inr ⟨c, cs, n, rfl, hw, by simp [hostTick_cmd, hcmd, hw]⟩

/-- An instruction keeps the port or takes its head: the branches that take it are those of a
command that is not held. -/
theorem Effect.cmd_kept_or_tail {i : Instr} {s t : State} (e : Effect s i t) :
    t.cmd = s.cmd ∨ t.cmd = s.cmd.tail := by
  cases e with
  | ignored | init | pushNotReading | finalNotReading | pushBadCount | push | final | digest
  | digestNotReady | status | abort => exact .inr (by simp)
  | _ => exact .inl (by simp)

/-- An illegal word is held or taken off the port (R161). -/
theorem acceptIllegal_cmd_kept_or_tail {s t : State} (h : acceptIllegal s = .next t) :
    t.cmd = s.cmd ∨ t.cmd = s.cmd.tail := by
  rcases acceptIllegal_next h with ⟨-, rfl⟩ | ⟨-, -, rfl⟩ | ⟨-, -, rfl⟩
  · exact .inl rfl
  · exact .inr rfl
  · exact .inr rfl

/-- What is taken off the port while a command is presented is that command. -/
theorem cmd_kept_or_presented_taken {s t : State} {c : Transfer} (hc : presented s = some c)
    (hport : t.cmd = s.cmd ∨ t.cmd = s.cmd.tail) (hw : s.ph = phIdle ∨ c.word = 0x4000#16) :
    t.cmd = s.cmd ∨
    ∃ c cs, s.cmd = c :: cs ∧ c.wait = 0 ∧ t.cmd = cs ∧
      (s.ph = phIdle ∨ c.word = 0x4000#16) := by
  obtain ⟨cs, hcmd, hwait⟩ := presented_eq_some hc
  exact hport.imp_right fun htail => ⟨c, cs, hcmd, hwait, by rw [htail, hcmd, List.tail_cons], hw⟩

/-- Settles O49: a micro-operation leaves the port to the host's clock; an accepted command or
illegal word takes at most the presented transfer, and while the engine is busy only `STATUS` is
accepted. -/
theorem commandsAreSerialised : Obligations.CommandsAreSerialised := by
  unfold Obligations.CommandsAreSerialised
  intro s t hr h
  rcases step_next h with ⟨hr', -⟩ | ⟨-, -, i, hf, ht⟩ | ⟨-, -, hf, ht⟩
  · simp [hr] at hr'
  · rcases fetch_run hf with ⟨c, hc, hd, hi⟩ | ⟨hd, -⟩
    · have hw : s.ph = phIdle ∨ c.word = 0x4000#16 :=
        hi.symm.imp_right fun hstatus => word_of_status (by rw [hd, hstatus])
      rw [hostTick_of_fetch hc] at ht
      exact (cmd_kept_or_presented_taken hc (exec_effect ht).cmd_kept_or_tail hw).imp_right .inr
    · obtain ⟨hcmd, -, -⟩ := (exec_effect ht).uop_ports (decodeUop_format hd)
      rw [hcmd]
      exact (hostTick_cmd_cases s).imp_right .inl
  · obtain ⟨c, hc, -, hp⟩ := fetch_illegal hf
    exact (cmd_kept_or_presented_taken hc (acceptIllegal_cmd_kept_or_tail ht)
      (.inl hp)).imp_right .inr

end Sys2Proof.Machine
end

section
/-! PROOFS. The decoder and the encoder: that they agree, the fields of a `PUSH` word, and which
command words are illegal (30_encoding.md R70 to R77, R80). -/

namespace Sys2Proof.Machine

/-! ### The word of `PUSH` -/

/-- The word of `PUSH` as a number (R72). -/
theorem encodePush_toNat (l : Bool) (n : BitVec 7) :
    (encodePush l n).toNat = 0x2000 + 0x80 * l.toNat + n.toNat := by
  have key : (0x2#4 ++ 0x0#4 ++ BitVec.ofBool l ++ n : BitVec (4 + 4 + 1 + 7)).toNat =
      0x2000 + 0x80 * l.toNat + n.toNat := by
    rw [BitVec.toNat_append, ← Nat.shiftLeft_add_eq_or_of_lt n.isLt]
    cases l <;> simp [Nat.shiftLeft_eq]
  exact key

theorem cmdLast_toNat (w : BitVec 16) : (cmdLast w).toNat = w.toNat / 128 % 2 := by
  have h := cmdLast_iff w
  cases hl : cmdLast w <;> simp [hl] at h ⊢ <;> omega

theorem cmdOpc_eq_iff {w : BitVec 16} {c : BitVec 4} :
    cmdOpc w = c ↔ w.toNat / 4096 = c.toNat := by
  rw [← BitVec.toNat_inj, cmdOpc_toNat]

theorem cmdRsv_eq_iff {w : BitVec 16} {c : BitVec 4} :
    cmdRsv w = c ↔ w.toNat / 256 % 16 = c.toNat := by
  rw [← BitVec.toNat_inj, cmdRsv_toNat]

theorem cmdLow_eq_iff {w : BitVec 16} {c : BitVec 12} :
    w.extractLsb' 0 12 = c ↔ w.toNat % 4096 = c.toNat := by
  rw [← BitVec.toNat_inj, cmdLow_toNat]

section Fields

variable (l : Bool) (n : BitVec 7)

@[simp] theorem cmdOpc_encodePush : cmdOpc (encodePush l n) = 2#4 := by
  rw [cmdOpc_eq_iff, encodePush_toNat]
  have := l.toNat_lt
  simp; omega

@[simp] theorem cmdRsv_encodePush : cmdRsv (encodePush l n) = 0#4 := by
  rw [cmdRsv_eq_iff, encodePush_toNat]
  have := l.toNat_lt
  simp; omega

@[simp] theorem cmdLast_encodePush : cmdLast (encodePush l n) = l := by
  rw [Bool.eq_iff_iff, cmdLast_iff, encodePush_toNat]
  cases l <;> simp <;> omega

@[simp] theorem cmdCount_encodePush : cmdCount (encodePush l n) = n := by
  apply BitVec.eq_of_toNat_eq
  rw [cmdCount_toNat, encodePush_toNat]
  omega

/-- The decoder reads the fields of a `PUSH` word back; one of these words is `FINAL` (log 3). -/
theorem decodeCommand_encodePush : decodeCommand (encodePush l n) =
    if l = true ∧ n = 0#7 then .ok .final else .ok (.push l n) := by
  simp [decodeCommand, decodePush]

end Fields

/-- A word of the `PUSH` row is the `PUSH` word of its fields (R71, R72). -/
theorem encodePush_fields {w : BitVec 16} (h : w.toNat / 256 = 0x20) :
    encodePush (cmdLast w) (cmdCount w) = w := by
  apply BitVec.eq_of_toNat_eq
  rw [encodePush_toNat, cmdLast_toNat, cmdCount_toNat]
  omega

theorem pushRow_of_fields {w : BitVec 16} (ho : cmdOpc w = 2#4) (hr : cmdRsv w = 0#4) :
    w.toNat / 256 = 0x20 := by
  rw [cmdOpc_eq_iff] at ho
  rw [cmdRsv_eq_iff] at hr
  simp at ho hr
  omega

/-! ### Decoding and encoding agree -/

theorem wellFormed_push_iff {l : Bool} {n : BitVec 7} :
    (Instr.push l n).wellFormed = true ↔ ¬ (l = true ∧ n = 0#7) := by
  simp [Instr.wellFormed, imp_iff_not_or]

/-- The decoder answers only instructions under the canonical name of their word (log 3). -/
theorem wellFormed_of_decode {e : Encoded} {i : Instr} (h : decode e = .ok i) :
    i.wellFormed = true := by
  cases e with
  | cmd w =>
    rcases decodeCommand_ok h with
      ⟨-, -, rfl⟩ | ⟨-, -, -, -, rfl⟩ | ⟨-, -, hne, rfl⟩ | ⟨-, -, rfl⟩ | ⟨-, -, rfl⟩ | ⟨-, -, rfl⟩
    case inr.inr.inl => exact wellFormed_push_iff.mpr hne
    all_goals rfl
  | uop c =>
    have hf := decodeUop_format h
    cases i with
    | push l n => cases hf
    | _ => rfl

/-- The encoding of the instruction a command word decodes to is that word (R72, R82). -/
theorem encode_of_decodeCommand {w : BitVec 16} {i : Instr} (h : decodeCommand w = .ok i) :
    encode i = .cmd w := by
  rcases decodeCommand_ok h with
    ⟨ho, h0, rfl⟩ | ⟨ho, hr, hl, hc, rfl⟩ | ⟨ho, hr, -, rfl⟩ | ⟨ho, h0, rfl⟩ | ⟨ho, h0, rfl⟩ |
    ⟨ho, h0, rfl⟩
  case inr.inl =>
    rw [← encodePush_fields (pushRow_of_fields ho hr), hl, hc]
    rfl
  case inr.inr.inl => rw [encode, encodePush_fields (pushRow_of_fields ho hr)]
  all_goals
    rw [word_of_fields ho h0]
    rfl

theorem encode_of_decode {e : Encoded} {i : Instr} (h : decode e = .ok i) : encode i = e := by
  cases e with
  | cmd w => exact encode_of_decodeCommand h
  | uop c => exact encode_of_decodeUop h

/-- A well-formed instruction is what its encoding decodes to. -/
theorem decode_encode {i : Instr} (h : i.wellFormed = true) : decode (encode i) = .ok i := by
  cases i with
  | push l n =>
    exact (decodeCommand_encodePush l n).trans (if_neg (wellFormed_push_iff.mp h))
  | _ => rfl

/-- Settles O1: what the decoder answers is well formed and encodes to the word, and a well-formed
instruction is decoded from its own encoding. -/
theorem decodeAndEncodeAgree : Obligations.DecodeAndEncodeAgree := by
  unfold Obligations.DecodeAndEncodeAgree
  refine fun e i => ⟨fun h => ⟨wellFormed_of_decode h, encode_of_decode h⟩, ?_⟩
  rintro ⟨hwf, rfl⟩
  exact decode_encode hwf

/-- Settles O4: the decoder is evaluated on each of the words. -/
theorem tableWordsDecode : Obligations.TableWordsDecode := by
  unfold Obligations.TableWordsDecode
  decide

/-! ### The fields and the payload of a word -/

theorem payloadLength_of_opc {w : BitVec 16} (h : w.toNat / 4096 = 2) :
    payloadLength w = w.toNat % 128 := by
  rw [payloadLength, if_pos (cmdOpc_eq_iff.mpr h), cmdCount_toNat]

theorem payloadLength_of_opc_ne {w : BitVec 16} (h : w.toNat / 4096 ≠ 2) : payloadLength w = 0 :=
  if_neg (mt cmdOpc_eq_iff.mp h)

/-- Settles O3: a word of the `PUSH` row is the `PUSH` word of its fields, and of these only `0x2080`
does not decode to `PUSH`. -/
theorem pushWordFields : Obligations.PushWordFields := by
  unfold Obligations.PushWordFields
  refine fun w => ⟨payloadLength_of_opc, payloadLength_of_opc_ne, fun hrow hne => ?_, ?_⟩
  · have hw := encodePush_fields hrow
    refine ⟨cmdLast w, cmdCount w, ?_, cmdLast_iff w, cmdCount_toNat w⟩
    have hnf : ¬ (cmdLast w = true ∧ cmdCount w = 0#7) := by
      rintro ⟨hl, hc⟩
      rw [hl, hc] at hw
      exact hne hw.symm
    calc decodeCommand w = decodeCommand (encodePush (cmdLast w) (cmdCount w)) := by rw [hw]
      _ = .ok (.push (cmdLast w) (cmdCount w)) :=
        (decodeCommand_encodePush _ _).trans (if_neg hnf)
  · rintro rfl
    exact decodeCommand_encodePush true 0#7

/-! ### Illegal words -/

/-- A command without operand is illegal with a bit of 11:0 set (R74). -/
theorem decodeNoOperand_error_iff {w : BitVec 16} {i : Instr} :
    (∃ e, decodeNoOperand w i = .error e) ↔ w.toNat % 4096 ≠ 0 := by
  have h0 : w.extractLsb' 0 12 = 0#12 ↔ w.toNat % 4096 = 0 := cmdLow_eq_iff
  unfold decodeNoOperand
  split <;> simp_all

/-- A `PUSH` is illegal with a bit of `RSV` set (R75). -/
theorem decodePush_error_iff {w : BitVec 16} :
    (∃ e, decodePush w = .error e) ↔ w.toNat / 256 % 16 ≠ 0 := by
  have h0 : cmdRsv w = 0#4 ↔ w.toNat / 256 % 16 = 0 := cmdRsv_eq_iff
  unfold decodePush
  split
  · split <;> simp_all
  · simp_all

/-- The illegal command words (R75). -/
theorem decodeCommand_error_iff {w : BitVec 16} : (∃ e, decodeCommand w = .error e) ↔
    (w.toNat / 4096 = 0 ∨ 6 ≤ w.toNat / 4096) ∨
    ((w.toNat / 4096 = 1 ∨ w.toNat / 4096 = 3 ∨ w.toNat / 4096 = 4 ∨ w.toNat / 4096 = 5) ∧
      w.toNat % 4096 ≠ 0) ∨
    (w.toNat / 4096 = 2 ∧ w.toNat / 256 % 16 ≠ 0) := by
  simp only [decodeCommand, cmdOpc_eq_iff, BitVec.reduceToNat]
  split_ifs
  · rw [decodeNoOperand_error_iff]; omega
  · rw [decodePush_error_iff]; omega
  · rw [decodeNoOperand_error_iff]; omega
  · rw [decodeNoOperand_error_iff]; omega
  · rw [decodeNoOperand_error_iff]; omega
  · simp; omega

end Sys2Proof.Machine
end

section
/-! PROOFS. What a step fetches and runs, an accepted illegal word, and the states a step refuses
(30_encoding.md R75 to R77; 44_driver.md R161). -/

namespace Sys2Proof.Machine

/-! ### Fetching -/

theorem fetchUop_of_decodeUop {s : State} {i : Instr} (h : decodeUop s.ph = .ok i) :
    fetchUop s = .run i := by
  simp [fetchUop, h]

/-- With no command presented the sequencer takes its step (R161). -/
theorem fetch_of_presented_none {s : State} (h : presented s = none) : fetch s = fetchUop s := by
  simp [fetch, h]

section Presented

variable {s : State} {t : Transfer} (h : presented s = some t)
include h

/-- A presented `STATUS` is answered in any phase (R161 case 1). -/
theorem fetch_of_status (hw : t.word = 0x4000#16) : fetch s = .run .status := by
  simp [fetch, h, hw]

/-- Any other presented command is held while the engine is busy (R161 case 2). -/
theorem fetch_of_busy (hw : t.word ≠ 0x4000#16) (hp : s.ph ≠ phIdle) : fetch s = fetchUop s := by
  simp [fetch, h, hw, hp]

/-- A presented command is accepted by an idle engine (R161 cases 3 to 6). -/
theorem fetch_of_idle {i : Instr} (hp : s.ph = phIdle) (hd : decodeCommand t.word = .ok i) :
    fetch s = .run i := by
  by_cases hw : t.word = 0x4000#16
  · have hi : decodeCommand t.word = .ok .status := by
      rw [hw]
      rfl
    rw [fetch_of_status h hw, Except.ok.inj (hi.symm.trans hd)]
  · simp [fetch, h, hw, hp, hd]

/-- A presented word that is no command is accepted as one (R161 cases 4 and 5). -/
theorem fetch_of_illegal {e : DecodeError} (hp : s.ph = phIdle)
    (hd : decodeCommand t.word = .error e) : fetch s = .illegal := by
  have hw : t.word ≠ 0x4000#16 := by
    intro hw
    rw [hw] at hd
    cases hd
  simp [fetch, h, hw, hp, hd]

end Presented

/-- A command that still waits is not presented (log 4). -/
theorem presented_of_waiting {s : State} {t : Transfer} {ts : List Transfer}
    (h : s.cmd = t :: ts) (hw : t.wait ≠ 0) : presented s = none := by
  simp [presented, h, hw]

/-- Settles O2: the illegal words are those that no row of the decoder accepts, and an idle engine
with no fault takes one off the port and raises `IllegalCommand`. -/
theorem illegalWordsRaiseIllegalCommand : Obligations.IllegalWordsRaiseIllegalCommand := by
  unfold Obligations.IllegalWordsRaiseIllegalCommand
  refine fun w => ⟨decodeCommand_error_iff, ?_⟩
  rintro s bs ts ⟨e, hd⟩ hr hi hcmd hp he
  have hf : fetch s = .illegal := fetch_of_illegal (presented_of_head hcmd rfl) hp hd
  rw [step_of_illegal hr hi hf, acceptIllegal, whenAccepted_accepted hp he]
  simp [takeCommand, raise, hcmd, hp, Cause.code]

/-- Settles O5: in each situation of the port the step fetches that instruction, and only a waiting
command is touched by the host's clock. -/
theorem stepRunsTheDecodedInstruction : Obligations.StepRunsTheDecodedInstruction := by
  unfold Obligations.StepRunsTheDecodedInstruction
  intro s i hr hi
  refine ⟨fun hcmd hd => ?_, fun n w bs ts hcmd hd => ?_, fun w bs ts hcmd => ?_⟩
  · have hf := fetch_of_presented_none (s := s) (by simp [presented, hcmd])
    rw [step_of_run hr hi (hf.trans (fetchUop_of_decodeUop hd)), hostTick_of_nil hcmd]
  · have hf := fetch_of_presented_none (presented_of_waiting hcmd n.succ_ne_zero)
    rw [step_of_run hr hi (hf.trans (fetchUop_of_decodeUop hd))]
    simp [hostTick, hcmd]
  · have ht := presented_of_head hcmd rfl
    have run {j : Instr} (hf : fetch s = .run j) : step s = exec j s := by
      rw [step_of_run hr hi hf, hostTick_of_fetch ht]
    exact ⟨fun hp hw hd => run ((fetch_of_busy ht hw hp).trans (fetchUop_of_decodeUop hd)),
      fun hd => run (fetch_of_status ht (word_of_status hd)),
      fun hp hd => run (fetch_of_idle ht hp hd)⟩

/-! ### Refusals -/

theorem step_of_irregular {s : State} {r : Refusal} (hr : s.rst = false)
    (hi : irregularity s = some r) : step s = .refused r := by
  simp [step, hr, hi]

/-- The range of `IDX` in a phase (R76). -/
theorem indexInRange_iff {p : BitVec 4} {i : Index} : indexInRange p i = true ↔
    (p = phLdw → i ≤ 15#6) ∧ (p = phExp → 16#6 ≤ i) := by
  by_cases hl : p = phLdw
  · simp [indexInRange, hl, phLdw, phExp]
  · by_cases hx : p = phExp
    · simp [indexInRange, hx, phLdw, phExp]
    · simp [indexInRange, hl, hx]

/-- `IDX` out of the range of its phase (R77). -/
theorem indexInRange_eq_false {p : BitVec 4} {i : Index}
    (h : (p = phLdw ∧ 16#6 ≤ i) ∨ (p = phExp ∧ i ≤ 15#6)) : indexInRange p i = false := by
  refine Bool.eq_false_iff.mpr fun hin => ?_
  obtain ⟨hldw, hexp⟩ := indexInRange_iff.mp hin
  rcases h with ⟨hp, hi⟩ | ⟨hp, hi⟩
  · have hle := hldw hp
    bv_omega
  · have hle := hexp hp
    bv_omega

theorem irregularity_of_reservedPhase {s : State} (h : 10#4 ≤ s.ph) :
    irregularity s = some .reservedPhase :=
  if_pos (by bv_omega)

section LegalPhase

variable {s : State} (hp : s.ph ≤ phFold)
include hp

theorem irregularity_of_index (hx : indexInRange s.ph s.idx = false) :
    irregularity s = some .indexOutOfRange := by
  rw [irregularity, if_neg (BitVec.not_lt.mpr hp), if_pos hx]

variable (hx : indexInRange s.ph s.idx = true)
include hx

theorem irregularity_of_latch (hl : latchInRange s = false) :
    irregularity s = some .latchOutOfRange := by
  rw [irregularity, if_neg (BitVec.not_lt.mpr hp), if_neg (by simp [hx]), if_pos hl]

variable (hl : latchInRange s = true)
include hl

theorem irregularity_of_reservedErr (he : 7#4 ≤ s.err) :
    irregularity s = some .reservedErr := by
  rw [irregularity, if_neg (BitVec.not_lt.mpr hp), if_neg (by simp [hx]), if_neg (by simp [hl]),
    if_pos (by bv_omega)]

theorem irregularity_of_payload (he : s.err ≤ 6#4) {t : Transfer} (ht : presented s = some t)
    (hlen : t.payload.length ≠ payloadLength t.word) :
    irregularity s = some .payloadMismatch := by
  have hsized : Transfer.sized t = false := by simpa [Transfer.sized] using hlen
  rw [irregularity, if_neg (BitVec.not_lt.mpr hp), if_neg (by simp [hx]), if_neg (by simp [hl]),
    if_neg (BitVec.not_lt.mpr he), ht]
  exact if_pos hsized

end LegalPhase

/-- Settles O7: the tests of a step in their order, each reached where those before it pass. -/
theorem stepRefusesReservedStates : Obligations.StepRefusesReservedStates := by
  unfold Obligations.StepRefusesReservedStates
  refine fun s hr => ⟨fun hp => step_of_irregular hr (irregularity_of_reservedPhase hp),
    fun hp hi => ?_, fun hp hi => ?_, fun hp hldw hexp => ?_⟩
  · have hx := indexInRange_eq_false (.inl ⟨hp, hi⟩)
    exact step_of_irregular hr (irregularity_of_index (by simp [hp]) hx)
  · have hx := indexInRange_eq_false (.inr ⟨hp, hi⟩)
    exact step_of_irregular hr (irregularity_of_index (by simp [hp]) hx)
  · have hx := indexInRange_iff.mpr ⟨hldw, hexp⟩
    refine ⟨fun hl => ?_, fun hpos hcnt he => ?_, fun hpos hcnt he t ts hcmd hw hlen => ?_⟩
    · exact step_of_irregular hr (irregularity_of_latch hp hx (latchInRange_eq_false hl))
    · have hl := latchInRange_iff.mpr ⟨hpos, hcnt⟩
      exact step_of_irregular hr (irregularity_of_reservedErr hp hx hl he)
    · have hl := latchInRange_iff.mpr ⟨hpos, hcnt⟩
      have ht := presented_of_head hcmd hw
      exact step_of_irregular hr (irregularity_of_payload hp hx hl he ht hlen)

end Sys2Proof.Machine
end

section
/-! PROOFS. The pseudo-instructions `HASH` and `FINAL`, and `IDLE` (30_encoding.md R76, R82). -/

namespace Sys2Proof.Machine

/-! ### The chunks of `HASH` -/

/-- The induction of `hashChunks`: a property of the cutting of a message holds if it does for a
message of at most 64 bytes, and for 64 bytes put before a message of which it holds. -/
theorem hashChunks_induction {P : List Byte → List (List Byte) → Prop}
    (short : ∀ m, m.length ≤ 64 → P m [m])
    (cut : ∀ m cs, 64 < m.length → P (m.drop 64) cs → P m (m.take 64 :: cs))
    (n : Nat) (m : List Byte) (h : m.length ≤ 64 * (n + 1)) : P m (hashChunks n m) := by
  induction n generalizing m with
  | zero => exact short m h
  | succ n ih =>
    unfold hashChunks
    split
    · exact short m ‹_›
    · exact cut m _ (by omega) (ih _ (by rw [List.length_drop]; omega))

/-- What R82 says of the chunks of a message. -/
structure ChunksOf (m : List Byte) (cs : List (List Byte)) : Prop where
  flatten : cs.flatten = m
  nonempty : cs ≠ []
  atMost : ∀ c ∈ cs, c.length ≤ 64
  full : ∀ c ∈ cs.dropLast, c.length = 64
  noneEmpty : m ≠ [] → ∀ c ∈ cs, c ≠ []
  ofEmpty : m = [] → cs = [[]]

/-- A short message is its own one chunk. -/
theorem chunksOf_short {m : List Byte} (h : m.length ≤ 64) : ChunksOf m [m] where
  flatten := by simp
  nonempty := by simp
  atMost := by simpa using h
  full := by simp
  noneEmpty := by simp
  ofEmpty := by simp

/-- A longer message begins with a full chunk, and what is left is not empty. -/
theorem chunksOf_cut {m : List Byte} {cs : List (List Byte)} (h : 64 < m.length)
    (hcs : ChunksOf (m.drop 64) cs) : ChunksOf m (m.take 64 :: cs) := by
  have hhead : (m.take 64).length = 64 := by rw [List.length_take]; omega
  have hrest : m.drop 64 ≠ [] := by simpa using h
  constructor
  case flatten => rw [List.flatten_cons, hcs.flatten, List.take_append_drop]
  case nonempty => simp
  case atMost => exact List.forall_mem_cons.mpr ⟨hhead.le, hcs.atMost⟩
  case full =>
    rw [List.dropLast_cons_of_ne_nil hcs.nonempty]
    exact List.forall_mem_cons.mpr ⟨hhead, hcs.full⟩
  case noneEmpty =>
    refine fun _ => List.forall_mem_cons.mpr ⟨fun hnil => ?_, hcs.noneEmpty hrest⟩
    simp [hnil] at hhead
  case ofEmpty =>
    rintro rfl
    simp at h

/-- Settles O37: by induction on the number of full chunks. -/
theorem hashCutsTheMessageIntoChunks : Obligations.HashCutsTheMessageIntoChunks := by
  unfold Obligations.HashCutsTheMessageIntoChunks
  intro m
  obtain ⟨hflat, hne, hmost, hfull, hnone, hempty⟩ : ChunksOf m (hashChunks (m.length / 64) m) :=
    hashChunks_induction (fun _ => chunksOf_short) (fun _ _ => chunksOf_cut) _ m (by omega)
  exact ⟨hflat, hne, hmost, hfull, hnone, hempty⟩

/-! ### `FINAL` and `IDLE` -/

/-- An accepted `PUSH` of no bytes writes no byte of the latch (R163). -/
theorem pushChunk_empty {s : State} (hp : s.ph = phIdle) (he : s.err = 0#4)
    (hst : s.st = .reading) {t : Transfer} {ts : List Transfer} (hcmd : s.cmd = t :: ts)
    (hpay : t.payload = []) (l : Bool) : pushChunk l 0#7 s = .next { s with
      cnt := 0, pos := 0, last := l, ph := phAbs, idx := 0, cmd := ts } := by
  have hnil : payload s = [] := by simp [payload, hcmd, hpay]
  rw [pushChunk, whenAccepted_accepted hp he, if_neg (by simp [hst]), if_neg (by simp),
    if_pos (by simp [hnil])]
  simp [takeCommand, loadChunk, hnil, writeFrom, hcmd]

/-- Settles O11: both have the meaning `pushChunk`, here with no bytes. -/
theorem finalIsAnEmptyLastPush : Obligations.FinalIsAnEmptyLastPush := by
  unfold Obligations.FinalIsAnEmptyLastPush
  exact fun s => ⟨rfl, fun hp he hst _ _ hcmd hpay => pushChunk_empty hp he hst hcmd hpay true⟩

/-- Settles O16: the meaning of `IDLE` is to go on from the same state. -/
theorem idleKeepsAllState : Obligations.IdleKeepsAllState := by
  unfold Obligations.IdleKeepsAllState
  exact fun _ => rfl

end Sys2Proof.Machine
end

section
/-! PROOFS. The functions of the datapath bit by bit (40_datapath.md R91 to R99). -/

namespace Sys2Proof.Machine

/-! ### Rotation and shift -/

/-- Below bit `32 - n` the result is the right shift, from there on the left shift, which brings
back the low `n` bits of `w`. -/
theorem getLsbD_rotr (w : Word) {n i : Nat} (hn : n ≤ 32) (hi : i < 32) :
    (rotr w n).getLsbD i = w.getLsbD ((i + n) % 32) := by
  rw [rotr, BitVec.getLsbD_or, BitVec.getLsbD_ushiftRight, BitVec.getLsbD_shiftLeft,
    Nat.add_comm n i]
  by_cases hlow : i < 32 - n
  · have hmod : (i + n) % 32 = i + n := Nat.mod_eq_of_lt (by omega)
    simp [hlow, hmod]
  · have hmod : (i + n) % 32 = i - (32 - n) := by omega
    have hout : w.getLsbD (i + n) = false := BitVec.getLsbD_of_ge w (i + n) (by omega)
    simp [hlow, hi, hmod, hout]

theorem getLsbD_shr (w : Word) (n i : Nat) : (shr w n).getLsbD i = w.getLsbD (i + n) := by
  rw [shr, BitVec.getLsbD_ushiftRight, Nat.add_comm]

/-- Settles O28: the two parts of a rotation meet at bit `32 - n`. -/
theorem rotrPermutesBits : Obligations.RotrPermutesBits := by
  unfold Obligations.RotrPermutesBits
  exact fun w n i _ hn hi => getLsbD_rotr w (by omega) hi

/-- Settles O29: a sigma function is the exclusive or of its rotations and its shift, so each of its
bits is that of theirs. -/
theorem sigmaFunctionsBitByBit : Obligations.SigmaFunctionsBitByBit := by
  unfold Obligations.SigmaFunctionsBitByBit
  intro w i hi
  have hrotr {n : Nat} (hn : n ≤ 32) := getLsbD_rotr w hn hi
  refine ⟨?ssig0, ?ssig1, ?bsig0, ?bsig1⟩
  case ssig0 => simp [ssig0, hrotr, getLsbD_shr]
  case ssig1 => simp [ssig1, hrotr, getLsbD_shr]
  case bsig0 => simp [bsig0, hrotr]
  case bsig1 => simp [bsig1, hrotr]

/-! ### Select and majority -/

theorem getLsbD_ch (x y z : Word) {i : Nat} (hi : i < 32) :
    (ch x y z).getLsbD i = if x.getLsbD i then y.getLsbD i else z.getLsbD i := by
  rw [ch, BitVec.getLsbD_xor, BitVec.getLsbD_and, BitVec.getLsbD_and, BitVec.getLsbD_not]
  cases x.getLsbD i <;> simp [hi]

/-- The majority of three bits is the parity of the three pairs that are both set. -/
theorem xor_ands_iff_two_le : ∀ a b c : Bool,
    ((a && b) ^^ (a && c) ^^ (b && c)) = true ↔ 2 ≤ a.toNat + b.toNat + c.toNat := by
  decide

theorem getLsbD_maj_iff (x y z : Word) (i : Nat) : (maj x y z).getLsbD i = true ↔
    2 ≤ (x.getLsbD i).toNat + (y.getLsbD i).toNat + (z.getLsbD i).toNat := by
  rw [← xor_ands_iff_two_le, maj]
  simp only [BitVec.getLsbD_xor, BitVec.getLsbD_and]

/-- Settles O30: by the bit of `x` for `Ch`, by the eight values of a triple of bits for `Maj`. -/
theorem chSelectsAndMajVotes : Obligations.ChSelectsAndMajVotes := by
  unfold Obligations.ChSelectsAndMajVotes
  exact fun x y z i hi => ⟨getLsbD_ch x y z hi, getLsbD_maj_iff x y z i⟩

end Sys2Proof.Machine
end

section
/-! PROOFS. The padding stage and the padded message (41_padding.md R111 to R113, R117). -/

namespace Sys2Proof.Machine

/-! ### The blocks the padding stage leaves (R111 to R113) -/

/-- Zeros and then the trailer, byte by byte (R111, R113). -/
theorem getElem?_zeros_trailer (n : Nat) (len : BitVec 64) {k : Nat} (hk : k < n + 8) :
    (List.replicate n 0#8 ++ be64Bytes len)[k]? =
      if k < n then some 0#8 else some (len.extractLsb' (56 - 8 * (k - n)) 8) := by
  split
  case isTrue h =>
    rw [List.getElem?_append_left (by rwa [List.length_replicate]),
      List.getElem?_replicate_of_lt h]
  case isFalse h =>
    rw [List.getElem?_append_right (by rw [List.length_replicate]; omega), List.length_replicate,
      be64Bytes_getElem? len (k - n) (by omega)]

/-- A block of which the bytes from `x` to 63 are written: those bytes, and the old ones at every
other address. -/
theorem read_writeBytes_to_end {bs : List Byte} {x : Nat} (hx : x + bs.length = 64) (m : Memory)
    (a : Nat) : Memory.read (Memory.writeBytes m x bs) a =
      if a < x then Memory.read m a else if a ≤ 63 then bs[a - x]? else Memory.read m a := by
  rw [Memory.read_writeBytes]
  by_cases hlow : a < x
  · rw [if_neg (by omega), if_pos hlow]
  · rw [if_neg hlow]
    exact if_congr (by omega) rfl rfl

/-- The terminator is the first byte of a padding that begins at `r`, and the others follow it. -/
theorem getElem?_terminator_cons (bs : List Byte) {r a : Nat} (h : r ≤ a) :
    (Config.terminator :: bs)[a - r]? = if a = r then some 0x80#8 else bs[a - (r + 1)]? := by
  split
  case isTrue heq =>
    subst heq
    rw [Nat.sub_self]
    rfl
  case isFalse hne =>
    rw [show a - r = a - (r + 1) + 1 by omega, List.getElem?_cons_succ]

/-- Byte `a` of a block that `PAD1` pads from `r` (R111). -/
theorem getElem?_pad1Bytes {r a : Nat} (hr : r ≤ 55) (len : BitVec 64) (hra : r ≤ a)
    (ha : a ≤ 63) : (pad1Bytes r len)[a - r]? =
      if a = r then some 0x80#8 else if a ≤ 55 then some 0#8
        else some (len.extractLsb' (56 - 8 * (a - 56)) 8) := by
  rw [pad1Bytes, getElem?_terminator_cons _ hra]
  split
  case isTrue => rfl
  case isFalse hne =>
    rw [getElem?_zeros_trailer _ _ (by omega), show a - (r + 1) - (55 - r) = a - 56 by omega]
    exact if_congr (by omega) rfl rfl

/-- Byte `a` of a block that `PADA` pads from `r` (R112). -/
theorem getElem?_padABytes {r a : Nat} (hra : r ≤ a) (ha : a ≤ 63) :
    (padABytes r)[a - r]? = if a = r then some 0x80#8 else some 0#8 := by
  rw [padABytes, getElem?_terminator_cons _ hra]
  split
  case isTrue => rfl
  case isFalse hne => rw [List.getElem?_replicate_of_lt (by omega)]

/-- Byte `a` of the block that `PADB` writes (R113). -/
theorem getElem?_padBBytes (len : BitVec 64) {a : Nat} (ha : a ≤ 63) : (padBBytes len)[a]? =
    if a ≤ 55 then some 0#8 else some (len.extractLsb' (56 - 8 * (a - 56)) 8) := by
  rw [padBBytes, getElem?_zeros_trailer _ _ (by omega)]
  exact if_congr (by omega) rfl rfl

/-- The state in which the pass over a padded block begins, said of any memory `m`, so
that no proof has to compute the memory that 64 writes leave. -/
theorem goTo_ldw_padded (s : State) (m : Memory) (b : Bool) :
    goTo phLdw 0#6 { s with blk := m, splitb := b } =
      { s with blk := m, splitb := b, ph := phLdw, idx := 0 } := rfl

/-- Settles O19: `PAD1` writes from `FILL` to byte 63 and nowhere else. -/
theorem pad1GeneratesTheSinglePaddingBlock : Obligations.Pad1GeneratesTheSinglePaddingBlock := by
  unfold Obligations.Pad1GeneratesTheSinglePaddingBlock
  intro s hfill
  have hlt : s.fill.toNat < 56 := by omega
  refine ⟨Memory.writeBytes s.blk s.fill.toNat (pad1Bytes s.fill.toNat s.len), if_pos hlt,
    fun a => ?_⟩
  rw [read_writeBytes_to_end (add_pad1Bytes_length hlt s.len)]
  split
  case isTrue => rfl
  case isFalse hlow =>
    split
    case isTrue hin =>
      rw [getElem?_pad1Bytes hfill s.len (by omega) hin]
      rfl
    case isFalse hout => rw [if_neg (by omega), if_neg (by omega)]

/-- Settles O20: `PADA` writes from `FILL` to byte 63 and nowhere else. -/
theorem padAGeneratesSplitBlockA : Obligations.PadAGeneratesSplitBlockA := by
  unfold Obligations.PadAGeneratesSplitBlockA
  intro s
  have hlt : s.fill.toNat < 64 := s.fill.isLt
  refine ⟨Memory.writeBytes s.blk s.fill.toNat (padABytes s.fill.toNat), rfl, fun a => ?_⟩
  rw [read_writeBytes_to_end (add_padABytes_length hlt)]
  split
  case isTrue => rfl
  case isFalse hlow =>
    split
    case isTrue hin =>
      rw [getElem?_padABytes (by omega) hin]
      rfl
    case isFalse hout => rw [if_neg (by omega)]

/-- Settles O21: `PADB` writes the whole block. -/
theorem padBGeneratesSplitBlockB : Obligations.PadBGeneratesSplitBlockB := by
  unfold Obligations.PadBGeneratesSplitBlockB
  intro s
  refine ⟨Memory.writeBytes s.blk 0 (padBBytes s.len),
    congrArg Host.Outcome.next (goTo_ldw_padded s _ true), fun a => ?_⟩
  rw [read_writeBytes_to_end (padBBytes_length s.len), if_neg a.not_lt_zero, Nat.sub_zero]
  split
  case isTrue hin =>
    rw [getElem?_padBBytes s.len hin]
    rfl
  case isFalse hout => rw [if_neg (by omega)]

/-! ### The padded message and its blocks (R117, R170) -/

/-- The zeros are those that make `L + 9` a multiple of 64 (R117). -/
theorem padZeros_eq_emod (n : Nat) : (padZeros n : Int) = (55 - (n : Int)) % 64 := by
  unfold padZeros
  split <;> omega

/-- A list cut into its whole number of blocks: they lie end to end, each of 64 bytes. -/
theorem blocksOf_cut {n : Nat} {l : List Byte} (h : l.length = 64 * n) :
    (blocksOf n l).flatten = l ∧ ∀ b ∈ blocksOf n l, b.length = 64 := by
  induction n generalizing l with
  | zero =>
    rw [List.length_eq_zero_iff.mp h]
    simp [blocksOf]
  | succ n ih =>
    obtain ⟨hflat, hlen⟩ := ih (l := l.drop 64) (by rw [List.length_drop]; omega)
    have hhead : (l.take 64).length = 64 := by rw [List.length_take]; omega
    rw [blocksOf, List.flatten_cons, hflat]
    exact ⟨List.take_append_drop 64 l, List.forall_mem_cons.mpr ⟨hhead, hlen⟩⟩

/-- The padded length is the number of blocks of 64 bytes: one more than the whole blocks of the
message where the terminator and the trailer fit behind its rest, otherwise two more. -/
theorem pad_length_eq_blocks (m : List Byte) : (pad m).length =
    64 * (if m.length % 64 < 56 then m.length / 64 + 1 else m.length / 64 + 2) := by
  rw [pad_length, padZeros]
  split <;> omega

/-- Settles O22: by the residue of the length, and by induction on the number of blocks. -/
theorem paddedLengthIsTheLeastMultiple : Obligations.PaddedLengthIsTheLeastMultiple := by
  unfold Obligations.PaddedLengthIsTheLeastMultiple
  intro m
  have hblocks := pad_length_eq_blocks m
  have hzeros := padZeros_eq_emod m.length
  have hlength := pad_length m
  refine ⟨by omega, by omega, by omega, hzeros, ?_, blocksOf_cut (by omega)⟩
  rw [messageBlocks, blocksOf_length]
  omega

end Sys2Proof.Machine
end

section
/-! PROOFS. The schedule expander (42_schedule.md R125 to R128). -/

namespace Sys2Proof.Machine

/-! ### One micro-operation (R126, R127)

`IDX` is one higher after each of them: the last `LDW` goes to `EXP 16`, and the index after the last
`EXP` wraps to 0. -/

theorem execLdw_of_read32 {s : State} {x : Word} (hi : s.idx ≤ 15#6)
    (hx : Memory.read32 s.blk (4 * s.idx.toNat) = .ok x) : execLdw s = .next { s with
      w := writeAt s.w s.idx x
      ph := if s.idx = 15#6 then phExp else s.ph
      idx := s.idx + 1#6 } := by
  simp only [execLdw, if_pos hi, hx]
  split
  case isTrue hlast => simp [goTo, hlast]
  case isFalse => rfl

theorem execExp_of_le {s : State} (hi : 16#6 ≤ s.idx) : execExp s = .next { s with
      w := writeAt s.w s.idx (expWord s)
      ph := if s.idx = 63#6 then phSeed else s.ph
      idx := s.idx + 1#6 } := by
  simp only [execExp, if_pos hi]
  split
  case isTrue hlast => simp [goTo, hlast, expWord]
  case isFalse => rfl

/-- Settles O23: the word read is that of the four bytes, and the write of `W` changes one element. -/
theorem ldwLoadsABigEndianWord : Obligations.LdwLoadsABigEndianWord := by
  unfold Obligations.LdwLoadsABigEndianWord
  intro s b0 b1 b2 b3 hi h0 h1 h2 h3
  have hexec : exec .ldw s = _ := execLdw_of_read32 hi (Memory.read32_ok h0 h1 h2 h3)
  refine ⟨_, _, be32_toNat b0 b1 b2 b3, fun j => readAt_writeAt s.w s.idx j _, ?_, ?_⟩
  · intro hlast
    have hidx : s.idx = 15#6 := BitVec.eq_of_toNat_eq hlast
    simp [hexec, hidx]
  · intro hne
    have hidx : s.idx ≠ 15#6 := mt (congrArg BitVec.toNat) hne
    simp [hexec, hidx]

theorem index_sub_ofNat {i : Index} {k : Nat} (hk : k ≤ i.toNat) :
    i - BitVec.ofNat 6 k = BitVec.ofNat 6 (i.toNat - k) := by
  have hi := i.isLt
  apply BitVec.eq_of_toNat_eq
  rw [BitVec.toNat_sub, BitVec.toNat_ofNat, BitVec.toNat_ofNat]
  omega

/-- The word `EXP i` computes, its taps counted back from `i` (R127). -/
theorem expWord_of_le {s : State} (hi : 16 ≤ s.idx.toNat) : expWord s =
    expandWord (readAt s.w (BitVec.ofNat 6 (s.idx.toNat - 2)))
      (readAt s.w (BitVec.ofNat 6 (s.idx.toNat - 7)))
      (readAt s.w (BitVec.ofNat 6 (s.idx.toNat - 15)))
      (readAt s.w (BitVec.ofNat 6 (s.idx.toNat - 16))) := by
  have htap {k : Nat} (hk : k ≤ 16) := index_sub_ofNat (hk.trans hi)
  rw [expWord, htap (by decide), htap (by decide), htap (by decide), htap (by decide)]

/-- Settles O24: the word written is that of the recurrence, and the write of `W` changes one
element. -/
theorem expComputesTheRecurrence : Obligations.ExpComputesTheRecurrence := by
  unfold Obligations.ExpComputesTheRecurrence
  intro s hi
  have hexec : exec .exp s = _ := execExp_of_le hi
  refine ⟨writeAt s.w s.idx (expWord s), fun j => ?_, ?_, ?_⟩
  · rw [readAt_writeAt, expWord_of_le hi]
    rfl
  · intro hlast
    have hidx : s.idx = 63#6 := BitVec.eq_of_toNat_eq hlast
    simp [hexec, hidx]
  · intro hne
    have hidx : s.idx ≠ 63#6 := mt (congrArg BitVec.toNat) hne
    simp [hexec, hidx]

/-! ### The words of the schedule (R125) -/

theorem wordAt_schedulePrefix_last (b : List Byte) (n : Nat) :
    wordAt (schedulePrefix b (n + 1)) n =
      if n < 16 then
        be32 (byteAt b (4 * n)) (byteAt b (4 * n + 1)) (byteAt b (4 * n + 2)) (byteAt b (4 * n + 3))
      else expandWord (wordAt (schedulePrefix b n) (n - 2)) (wordAt (schedulePrefix b n) (n - 7))
        (wordAt (schedulePrefix b n) (n - 15)) (wordAt (schedulePrefix b n) (n - 16)) := by
  simp [wordAt, schedulePrefix, List.getD_eq_getElem?_getD]

/-- Word `n` of the schedule of a block is its `n`-th big-endian word. -/
theorem wordAt_schedule_of_lt (b : List Byte) {n : Nat} (hn : n < 16) : wordAt (schedule b) n =
    be32 (byteAt b (4 * n)) (byteAt b (4 * n + 1)) (byteAt b (4 * n + 2))
      (byteAt b (4 * n + 3)) := by
  rw [schedule, wordAt_schedulePrefix b n.lt_succ_self (by omega), wordAt_schedulePrefix_last,
    if_pos hn]

/-- The schedule satisfies its recurrence. -/
theorem wordAt_schedule_of_le (b : List Byte) {n : Nat} (hn : 16 ≤ n) (hlt : n < 64) :
    wordAt (schedule b) n =
      expandWord (wordAt (schedule b) (n - 2)) (wordAt (schedule b) (n - 7))
        (wordAt (schedule b) (n - 15)) (wordAt (schedule b) (n - 16)) := by
  have hstable {i : Nat} (hi : i < n) := wordAt_schedulePrefix b hi hlt.le
  rw [schedule, wordAt_schedulePrefix b n.lt_succ_self hlt, wordAt_schedulePrefix_last,
    if_neg (by omega), hstable (by omega), hstable (by omega), hstable (by omega),
    hstable (by omega)]

/-! ### What `W` holds while the expander runs (R128) -/

/-- The first `n` elements of `w` are those of the schedule of `b`; nothing is said of the others. -/
def HoldsSchedule (b : List Byte) (n : Nat) (w : Vector Word 64) : Prop :=
  ∀ i < n, readAt w (BitVec.ofNat 6 i) = wordAt (schedule b) i

theorem holdsSchedule_zero (b : List Byte) (w : Vector Word 64) : HoldsSchedule b 0 w :=
  fun _ hi => absurd hi (Nat.not_lt_zero _)

theorem index_ofNat_eq_iff {i n : Nat} (hi : i < 64) (hn : n < 64) :
    BitVec.ofNat 6 i = BitVec.ofNat 6 n ↔ i = n := by
  rw [← BitVec.toNat_inj, BitVec.toNat_ofNat, BitVec.toNat_ofNat, Nat.mod_eq_of_lt hi,
    Nat.mod_eq_of_lt hn]

theorem HoldsSchedule.succ {b : List Byte} {n : Nat} {w : Vector Word 64}
    (h : HoldsSchedule b n w) (hn : n < 64) :
    HoldsSchedule b (n + 1) (writeAt w (BitVec.ofNat 6 n) (wordAt (schedule b) n)) := by
  intro i hi
  rw [readAt_writeAt, if_congr (index_ofNat_eq_iff (by omega) hn) rfl rfl]
  split
  case isTrue heq => rw [heq]
  case isFalse hne => exact h i (by omega)

theorem readAt_ofNat {α : Type} (xs : Vector α 64) {i : Nat} (hi : i < 64) :
    readAt xs (BitVec.ofNat 6 i) = xs[i] := by
  simp [readAt, Vector.get, Nat.mod_eq_of_lt hi]

theorem HoldsSchedule.toList_eq {b : List Byte} {w : Vector Word 64} (h : HoldsSchedule b 64 w) :
    w.toList = schedule b := by
  have hlen : (schedule b).length = 64 := schedulePrefix_length b 64
  refine List.ext_getElem (by simp [hlen]) fun i hw hs => ?_
  have hi : i < 64 := by omega
  have hword := h i hi
  rw [readAt_ofNat w hi] at hword
  simpa [wordAt, hs] using hword

/-- Where `W` holds the words before it, `EXP i` computes word `i` of the schedule. -/
theorem HoldsSchedule.expWord_eq {b : List Byte} {s : State}
    (h : HoldsSchedule b s.idx.toNat s.w) (hi : 16 ≤ s.idx.toNat) :
    expWord s = wordAt (schedule b) s.idx.toNat := by
  have htap {k : Nat} (hk : 0 < k ∧ k ≤ 16) := h (s.idx.toNat - k) (by omega)
  rw [expWord_of_le hi, htap (by decide), htap (by decide), htap (by decide), htap (by decide),
    wordAt_schedule_of_le b hi s.idx.isLt]

/-- `MemRead` at `4 n` in a fully written block gives word `n` of the schedule. -/
theorem read32_of_block {m : Memory} {b : List Byte} (hlen : b.length = 64)
    (hblk : ∀ a, a < 64 → Memory.read m a = b[a]?) {n : Nat} (hn : n < 16) :
    Memory.read32 m (4 * n) = .ok (wordAt (schedule b) n) := by
  have hbyte {a : Nat} (ha : a < 64) : Memory.read m a = some (byteAt b a) := by
    simp [hblk a ha, byteAt, hlen, ha]
  rw [wordAt_schedule_of_lt b hn]
  exact Memory.read32_ok (hbyte (by omega)) (hbyte (by omega)) (hbyte (by omega))
    (hbyte (by omega))

/-! ### The run (R128) -/

/-- The phase after `n` micro-operations of the expander. -/
def expanderPhase (n : Nat) : BitVec 4 := if n < 16 then phLdw else if n < 64 then phExp else phSeed

theorem expanderPhase_of_lt {n : Nat} (hn : n < 16) : expanderPhase n = phLdw := if_pos hn

theorem expanderPhase_of_le {n : Nat} (hn : 16 ≤ n) (hlt : n < 64) : expanderPhase n = phExp := by
  rw [expanderPhase, if_neg (by omega), if_pos hlt]

theorem expanderPhase_ldw_succ {n : Nat} (hn : n < 16) :
    expanderPhase (n + 1) = if BitVec.ofNat 6 n = 15#6 then phExp else expanderPhase n := by
  by_cases hlast : n = 15
  · subst hlast
    rfl
  · rw [if_neg (mt (index_ofNat_eq_iff (by omega) (by decide)).mp hlast), expanderPhase_of_lt hn,
      expanderPhase_of_lt (by omega)]

theorem expanderPhase_exp_succ {n : Nat} (hn : 16 ≤ n) (hlt : n < 64) :
    expanderPhase (n + 1) = if BitVec.ofNat 6 n = 63#6 then phSeed else expanderPhase n := by
  by_cases hlast : n = 63
  · subst hlast
    rfl
  · rw [if_neg (mt (index_ofNat_eq_iff hlt (by decide)).mp hlast), expanderPhase_of_le hn hlt,
      expanderPhase_of_le (by omega) (by omega)]

/-- `s` after `n` micro-operations of the expander, which left `w` in `W`. -/
def expanderState (s : State) (n : Nat) (w : Vector Word 64) : State :=
  { s with w := w, ph := expanderPhase n, idx := BitVec.ofNat 6 n }

theorem expanderState_idx_toNat (s : State) {n : Nat} (hn : n < 64) (w : Vector Word 64) :
    (expanderState s n w).idx.toNat = n := Nat.mod_eq_of_lt hn

/-- Either micro-operation writes `W` and moves the sequencer on. -/
theorem expanderState_succ (s : State) {n : Nat} {p : BitVec 4} (w w' : Vector Word 64)
    (hp : expanderPhase (n + 1) = p) :
    { expanderState s n w with w := w', ph := p, idx := (expanderState s n w).idx + 1#6 } =
      expanderState s (n + 1) w' := by
  subst hp
  simp only [expanderState, BitVec.ofNat_add]

section
variable {s : State} {b : List Byte} {n : Nat} {w : Vector Word 64}

/-- `LDW n` writes word `n` of the schedule. -/
theorem microStep_expander_ldw (hlen : b.length = 64)
    (hblk : ∀ a, a < 64 → Memory.read s.blk a = b[a]?) (hn : n < 16) :
    microStep (expanderState s n w) =
      .next (expanderState s (n + 1) (writeAt w (BitVec.ofNat 6 n) (wordAt (schedule b) n))) := by
  have hidx := expanderState_idx_toNat s (show n < 64 by omega) w
  have hdec : decodeUop (expanderState s n w).ph = .ok .ldw :=
    congrArg decodeUop (expanderPhase_of_lt hn)
  have hread : Memory.read32 s.blk (4 * (expanderState s n w).idx.toNat) = _ :=
    hidx.symm ▸ read32_of_block hlen hblk hn
  have hle : (expanderState s n w).idx.toNat ≤ 15 := by omega
  have hexec := execLdw_of_read32 (BitVec.le_def.mpr hle) hread
  rw [microStep_of_uop hdec, exec, hexec, hidx]
  exact congrArg Host.Outcome.next (expanderState_succ s w _ (expanderPhase_ldw_succ hn))

/-- `EXP n` writes word `n` of the schedule, if `W` holds those before it. -/
theorem microStep_expander_exp (h : HoldsSchedule b n w) (hn : 16 ≤ n) (hlt : n < 64) :
    microStep (expanderState s n w) =
      .next (expanderState s (n + 1) (writeAt w (BitVec.ofNat 6 n) (wordAt (schedule b) n))) := by
  have hidx := expanderState_idx_toNat s hlt w
  have hdec : decodeUop (expanderState s n w).ph = .ok .exp :=
    congrArg decodeUop (expanderPhase_of_le hn hlt)
  have hword := HoldsSchedule.expWord_eq (b := b) (s := expanderState s n w)
    (hidx.symm ▸ h) (hidx.symm ▸ hn)
  have hexec := execExp_of_le (BitVec.le_def.mpr (hidx.symm ▸ hn))
  rw [microStep_of_uop hdec, exec, hexec, hword, hidx]
  exact congrArg Host.Outcome.next (expanderState_succ s w _ (expanderPhase_exp_succ hn hlt))

/-- After `n` micro-operations `W` holds the first `n` words of the schedule. -/
theorem microRun_expander (hlen : b.length = 64)
    (hblk : ∀ a, a < 64 → Memory.read s.blk a = b[a]?) (hn : n ≤ 64) :
    ∃ w', HoldsSchedule b n w' ∧
      microRun n (expanderState s 0 s.w) = .next (expanderState s n w') := by
  induction n with
  | zero => exact ⟨s.w, holdsSchedule_zero b s.w, rfl⟩
  | succ n ih =>
    obtain ⟨w, hw, hrun⟩ := ih (by omega)
    refine ⟨_, hw.succ hn, microRun_succ hrun ?_⟩
    by_cases hldw : n < 16
    · exact microStep_expander_ldw hlen hblk hldw
    · exact microStep_expander_exp hw (by omega) hn

end

/-- Settles O31: by induction on the number of micro-operations, each of which writes one more word
of the schedule. -/
theorem expanderComputesTheSchedule : Obligations.ExpanderComputesTheSchedule := by
  unfold Obligations.ExpanderComputesTheSchedule
  intro s b hlen hph hidx hblk
  have hstart : expanderState s 0 s.w = s := by
    simp [expanderState, expanderPhase, ← hph, ← hidx]
  obtain ⟨w', hw, hrun⟩ := microRun_expander hlen hblk le_rfl
  rw [hstart] at hrun
  exact ⟨w', hw.toList_eq, hrun⟩

end Sys2Proof.Machine
end

section
/-! PROOFS. The compression round engine (43_compression.md R141 to R147). -/

namespace Sys2Proof.Machine

/-! ### `SEED` (R141) -/

theorem execSeed_eq (s : State) :
    execSeed s = .next { s with v := s.h, hpre := s.h, ph := phRnd, idx := 0 } := rfl

/-- Settles O25: this is the meaning of `SEED` field by field. -/
theorem seedCopiesTheAccumulator : Obligations.SeedCopiesTheAccumulator := by
  unfold Obligations.SeedCopiesTheAccumulator
  exact execSeed_eq

/-! ### `RND` (R142, R145) -/

/-- `IDX` is one higher after every round: after the last one it wraps to 0, which is where `FOLD`
finds it. -/
theorem execRnd_eq (s : State) : execRnd s = .next { s with
    v := rndOctet s
    tr := writeAt s.tr s.idx (rndOctet s)
    ph := if s.idx = 63#6 then phFold else s.ph
    idx := s.idx + 1#6 } := by
  unfold execRnd
  simp only
  split
  case isTrue hlast => simp [goTo, hlast, rndOctet]
  case isFalse => rfl

/-- Settles O26: the new working variables are those of one round, and the write of `TR` changes one
row. -/
theorem rndComputesOneRound : Obligations.RndComputesOneRound := by
  unfold Obligations.RndComputesOneRound
  rintro s _ _ rfl rfl
  have hexec : exec .rnd s = _ := execRnd_eq s
  refine ⟨rndOctet s, writeAt s.tr s.idx (rndOctet s), rfl, rfl, rfl, rfl, rfl, rfl, rfl, rfl,
    fun j => readAt_writeAt s.tr s.idx j _, ?_, ?_⟩
  · intro hlast
    have hidx : s.idx = 63#6 := BitVec.eq_of_toNat_eq hlast
    simp [hexec, hidx]
  · intro hne
    have hidx : s.idx ≠ 63#6 := mt (congrArg BitVec.toNat) hne
    simp [hexec, hidx]

/-! ### `FOLD` (R143) -/

section Fold

variable {s : State}

theorem execFold_of_reading (h : s.st = .reading) :
    execFold s = .next { folded s with ph := phAbs } := by
  simp [execFold, h]

theorem execFold_of_paddingShort (h : s.st = .paddingShort) :
    execFold s = .next { folded s with st := .done, ph := phIdle } := by
  simp [execFold, h]

theorem execFold_of_splitA (h : s.st = .paddingSplit) (hb : s.splitb = false) :
    execFold s = .next { folded s with ph := phPadB } := by
  simp [execFold, h, hb]

theorem execFold_of_splitB (h : s.st = .paddingSplit) (hb : s.splitb = true) :
    execFold s = .next { folded s with st := .done, ph := phIdle } := by
  simp [execFold, h, hb]

/-- The driver state `q` and the phase `p` after `FOLD`, by the driver state before it (R143). -/
def FoldExit (s : State) (q : DriverState) (p : BitVec 4) : Prop :=
  (s.st = .reading → p = phAbs ∧ q = .reading) ∧
  (s.st = .paddingShort → p = phIdle ∧ q = .done) ∧
  (s.st = .paddingSplit → s.splitb = false → p = phPadB ∧ q = .paddingSplit) ∧
  (s.st = .paddingSplit → s.splitb = true → p = phIdle ∧ q = .done)

/-- Whatever the driver state, `FOLD` does the same but for the next phase. -/
theorem execFold_exit (hst : s.st ≠ .done) : ∃ q p, FoldExit s q p ∧
    execFold s = .next { folded s with st := q, ph := p } := by
  cases h : s.st with
  | reading => exact ⟨.reading, phAbs, by simp [FoldExit, h], by simp [execFold_of_reading h, ← h]⟩
  | paddingShort => exact ⟨.done, phIdle, by simp [FoldExit, h], execFold_of_paddingShort h⟩
  | paddingSplit =>
    cases hb : s.splitb with
    | false =>
      exact ⟨.paddingSplit, phPadB, by simp [FoldExit, h, hb],
        by simp [execFold_of_splitA h hb, ← h]⟩
    | true => exact ⟨.done, phIdle, by simp [FoldExit, h, hb], execFold_of_splitB h hb⟩
  | done => exact absurd h hst

end Fold

/-- Settles O27: the folded accumulator is determined by its eight words, and each driver state has
its equation. -/
theorem foldUpdatesAccumulatorAndEmitsARecord :
    Obligations.FoldUpdatesAccumulatorAndEmitsARecord := by
  unfold Obligations.FoldUpdatesAccumulatorAndEmitsARecord
  rintro s h' hget _ rfl
  obtain rfl : h' = foldOctet s.h s.v :=
    Octet.ext_get fun j => (hget j).trans (foldOctet_get s.h s.v j).symm
  exact ⟨execFold_of_reading, execFold_of_paddingShort, execFold_of_splitA, execFold_of_splitB⟩

/-! ### The rounds (R144) -/

/-- The phase after `n` rounds. -/
def roundPhase (n : Nat) : BitVec 4 := if n < 64 then phRnd else phFold

theorem roundPhase_of_lt {n : Nat} (hn : n < 64) : roundPhase n = phRnd := if_pos hn

theorem roundPhase_succ {n : Nat} (hn : n < 64) :
    roundPhase (n + 1) = if BitVec.ofNat 6 n = 63#6 then phFold else roundPhase n := by
  by_cases hlast : n = 63
  · subst hlast
    rfl
  · rw [if_neg (mt (index_ofNat_eq_iff hn (by decide)).mp hlast), roundPhase_of_lt hn,
      roundPhase_of_lt (by omega)]

/-- `s` after `n` rounds, which left `v` in the working variables and `tr` in `TR`. -/
def roundState (s : State) (n : Nat) (v : Octet) (tr : Vector Octet 64) : State :=
  { s with v := v, tr := tr, ph := roundPhase n, idx := BitVec.ofNat 6 n }

/-- A round writes `V` and `TR` and moves the sequencer on. -/
theorem roundState_succ (s : State) {n : Nat} (hn : n < 64) (v v' : Octet)
    (tr tr' : Vector Octet 64) :
    { roundState s n v tr with
      v := v'
      tr := tr'
      ph := if BitVec.ofNat 6 n = 63#6 then phFold else roundPhase n
      idx := BitVec.ofNat 6 n + 1#6 } = roundState s (n + 1) v' tr' := by
  rw [← roundPhase_succ hn]
  simp only [roundState, BitVec.ofNat_add]

/-- The first `n` rows of `tr` are the working variables after each of the first `n` rounds over the
schedule `w`; nothing is said of the others. -/
def HoldsRounds (w : List Word) (v : Octet) (n : Nat) (tr : Vector Octet 64) : Prop :=
  ∀ i < n, readAt tr (BitVec.ofNat 6 i) = roundsPrefix w v (i + 1)

theorem holdsRounds_zero (w : List Word) (v : Octet) (tr : Vector Octet 64) :
    HoldsRounds w v 0 tr :=
  fun _ hi => absurd hi (Nat.not_lt_zero _)

theorem HoldsRounds.succ {w : List Word} {v : Octet} {n : Nat} {tr : Vector Octet 64}
    (h : HoldsRounds w v n tr) (hn : n < 64) :
    HoldsRounds w v (n + 1) (writeAt tr (BitVec.ofNat 6 n) (roundsPrefix w v (n + 1))) := by
  intro i hi
  rw [readAt_writeAt, if_congr (index_ofNat_eq_iff (by omega) hn) rfl rfl]
  split
  case isTrue heq => rw [heq]
  case isFalse hne => exact h i (by omega)

theorem wordAt_toList (w : Vector Word 64) {n : Nat} (hn : n < 64) :
    wordAt w.toList n = readAt w (BitVec.ofNat 6 n) := by
  rw [readAt_ofNat w hn]
  simp [wordAt, hn]

/-- `RND n` does the next round over the words that `W` holds. -/
theorem microStep_round (s : State) {n : Nat} (hn : n < 64) (tr : Vector Octet 64) :
    microStep (roundState s n (roundsPrefix s.w.toList s.v n) tr) =
      .next (roundState s (n + 1) (roundsPrefix s.w.toList s.v (n + 1))
        (writeAt tr (BitVec.ofNat 6 n) (roundsPrefix s.w.toList s.v (n + 1)))) := by
  have hdec : decodeUop (roundPhase n) = .ok .rnd := congrArg decodeUop (roundPhase_of_lt hn)
  have hround : rndOctet (roundState s n (roundsPrefix s.w.toList s.v n) tr) =
      roundsPrefix s.w.toList s.v (n + 1) := by
    rw [roundsPrefix, wordAt_toList s.w hn]
    rfl
  rw [microStep_of_uop hdec, exec, execRnd_eq, hround]
  exact congrArg Host.Outcome.next (roundState_succ s hn _ _ _ _)

/-- After `n` micro-operations from `RND 0` the first `n` rounds are done. -/
theorem microRun_rounds {s : State} (hph : s.ph = phRnd) (hidx : s.idx = 0#6) {n : Nat}
    (hn : n ≤ 64) : ∃ v tr, v = roundsPrefix s.w.toList s.v n ∧ HoldsRounds s.w.toList s.v n tr ∧
      microRun n s = .next (roundState s n v tr) := by
  induction n with
  | zero =>
    refine ⟨s.v, s.tr, rfl, holdsRounds_zero _ _ _, congrArg Host.Outcome.next ?_⟩
    simp [roundState, roundPhase, ← hph, ← hidx]
  | succ n ih =>
    obtain ⟨v, tr, rfl, htr, hrun⟩ := ih (by omega)
    exact ⟨_, _, rfl, htr.succ hn, microRun_succ hrun (microStep_round s hn tr)⟩

/-- Settles O32: where the sequencer stands after `n` micro-operations is a function of `n`. -/
theorem exactlySixtyFourRounds : Obligations.ExactlySixtyFourRounds := by
  unfold Obligations.ExactlySixtyFourRounds
  intro s hph hidx
  refine ⟨fun k hk => ?_, ?_⟩
  · obtain ⟨v, tr, -, -, hrun⟩ := microRun_rounds hph hidx hk.le
    exact ⟨_, hrun, roundPhase_of_lt hk, Nat.mod_eq_of_lt hk⟩
  · obtain ⟨v, tr, -, -, hrun⟩ := microRun_rounds hph hidx le_rfl
    exact ⟨_, hrun, rfl⟩

/-! ### A pass (R147) -/

/-- The state in which the rounds of a pass begin: `W` holds `w`, and `SEED` has copied the
accumulator. -/
def seededState (s : State) (w : Vector Word 64) : State :=
  { s with w := w, v := s.h, hpre := s.h, ph := phRnd, idx := 0 }

section Pass

variable {s : State} {b : List Byte} (hlen : b.length = 64) (hph : s.ph = phLdw)
  (hidx : s.idx = 0#6) (hblk : ∀ a, a < 64 → Memory.read s.blk a = b[a]?)
include hlen hph hidx hblk

/-- The expander and `SEED`. -/
theorem microRun_seeded : ∃ w, w.toList = schedule b ∧
    microRun 65 s = .next (seededState s w) := by
  obtain ⟨w, hw, hrun⟩ := expanderComputesTheSchedule s b hlen hph hidx hblk
  exact ⟨w, hw, microRun_succ hrun (microStep_of_uop (i := .seed) rfl)⟩

/-- All of a pass but its `FOLD`. -/
theorem microRun_beforeFold : ∃ w v tr, w.toList = schedule b ∧
    v = roundsPrefix (schedule b) s.h 64 ∧ HoldsRounds (schedule b) s.h 64 tr ∧
    microRun 129 s = .next (roundState (seededState s w) 64 v tr) := by
  obtain ⟨w, hw, hseed⟩ := microRun_seeded hlen hph hidx hblk
  obtain ⟨v, tr, hv, htr, hrounds⟩ := microRun_rounds (s := seededState s w) rfl rfl le_rfl
  rw [show (seededState s w).w.toList = schedule b from hw] at hv htr
  exact ⟨w, v, tr, hw, hv, htr, (microRun_add hseed).trans hrounds⟩

end Pass

/-- Settles O33: 64 micro-operations of the expander, `SEED`, 64 rounds, and `FOLD`, which leaves
alone what the pass has to keep. -/
theorem passEqualsCompress : Obligations.PassEqualsCompress := by
  unfold Obligations.PassEqualsCompress
  intro s b hlen hph hidx hst hblk
  obtain ⟨w, v, tr, hw, hv, htr, hrun⟩ := microRun_beforeFold hlen hph hidx hblk
  obtain ⟨q, p, hexit, hfold⟩ := execFold_exit (s := roundState (seededState s w) 64 v tr) hst
  have hcompress : foldOctet s.h v = compress s.h b := congrArg (foldOctet s.h) hv
  refine ⟨_, foldRecord (roundState (seededState s w) 64 v tr),
    microRun_succ hrun ((microStep_of_uop (i := .fold) rfl).trans hfold), hcompress, hw,
    rfl, rfl, rfl, rfl, rfl, rfl, rfl, rfl, rfl, rfl, rfl, rfl, rfl, rfl, rfl, rfl, rfl, rfl, rfl,
    fun k => ?_, hexit⟩
  have hrow := htr k.toNat k.isLt
  rwa [BitVec.ofNat_toNat, BitVec.setWidth_eq] at hrow

end Sys2Proof.Machine
end

section
/-! PROOFS. What writes the accumulator (10_state.md R23; 43_compression.md R146). -/

namespace Sys2Proof.Machine

/-- Of all branches of the rules, only `INIT` and the four of `FOLD` write `H`. -/
theorem Effect.h_kept_or_init_or_fold {i : Instr} {s t : State} (e : Effect s i t) :
    t.h = s.h ∨ (i = .init ∧ s.ph = phIdle ∧ t.h = hinit) ∨
      (i = .fold ∧ t.h = foldOctet s.h s.v) := by
  cases e with
  | init hp => exact .inr (.inl ⟨rfl, hp, rfl⟩)
  | foldData | foldShort | foldSplitA | foldSplitB => exact .inr (.inr ⟨rfl, rfl⟩)
  | _ => exact .inl (by simp)

/-- An illegal word writes at most `ERR` and `PH` (R208, R215). -/
theorem acceptIllegal_h {s t : State} (h : acceptIllegal s = .next t) : t.h = s.h := by
  rcases acceptIllegal_next h with ⟨-, rfl⟩ | ⟨-, -, rfl⟩ | ⟨-, -, rfl⟩ <;> rfl

/-- A micro-operation is fetched only in its phase: no command word stands for it (R72, R76). -/
theorem decodeUop_of_fetch_run {s : State} {i : Instr} (h : fetch s = .run i)
    (hi : i.format = .uop) : decodeUop s.ph = .ok i := by
  rcases fetch_run h with ⟨c, -, hd, -⟩ | ⟨hd, -⟩
  · simp [decodeCommand_format hd] at hi
  · exact hd

theorem ph_of_fetch_fold {s : State} (h : fetch s = .run .fold) : s.ph = phFold :=
  (Encoded.uop.inj (encode_of_decodeUop (decodeUop_of_fetch_run h rfl))).symm

/-- Settles O42: by the three ways a step answers a next state, and among the instructions by the
branches of the rules. -/
theorem accumulatorWrittenOnlyByFoldInitAndReset :
    Obligations.AccumulatorWrittenOnlyByFoldInitAndReset := by
  unfold Obligations.AccumulatorWrittenOnlyByFoldInitAndReset
  intro s t h
  rcases step_next h with ⟨hr, rfl⟩ | ⟨-, -, i, hf, ht⟩ | ⟨-, -, -, ht⟩
  · exact .inr (.inl ⟨hr, rfl⟩)
  · have hwrite := (exec_effect ht).h_kept_or_init_or_fold
    rw [hostTick_h, hostTick_v, hostTick_ph] at hwrite
    rcases hwrite with hkept | ⟨rfl, hp, hstart⟩ | ⟨rfl, hfold⟩
    · exact .inl hkept
    · exact .inr (.inr (.inl ⟨hf, hp, hstart⟩))
    · exact .inr (.inr (.inr ⟨hf, ph_of_fetch_fold hf, fun j => by rw [hfold, foldOctet_get]⟩))
  · exact .inl (acceptIllegal_h ht)

end Sys2Proof.Machine
end

section
/-! PROOFS. The host commands: what each does where it is accepted, held or ignored, and the order
in which a presented command is handled (44_driver.md R161 to R163, R166). -/

namespace Sys2Proof.Machine

theorem takeCommand_of_cons {s : State} {t : Transfer} {ts : List Transfer}
    (h : s.cmd = t :: ts) : takeCommand s = { s with cmd := ts } := by
  rw [takeCommand, h, List.tail_cons]

/-- In `IDLE` taking a fault writes `ERR` and nothing else (R206, R215). -/
theorem raise_of_idle {s : State} (h : s.ph = phIdle) (c : Cause) :
    raise c s = { s with err := c.code } := by
  rw [raise, ← h]

/-! ### Held and ignored (R161 cases 2 and 4) -/

theorem exec_command_of_busy {i : Instr} {s : State} (hf : i.format = .cmd) (hi : i ≠ .status)
    (hp : s.ph ≠ phIdle) : exec i s = .next s := by
  cases i with
  | init => exact heldWhileBusy_busy hp
  | push | final | digest | abort => exact whenAccepted_busy hp
  | status => exact absurd rfl hi
  | _ => cases hf

theorem exec_command_of_fault {i : Instr} {s : State} (hf : i.format = .cmd) (hs : i ≠ .status)
    (hi : i ≠ .init) (hp : s.ph = phIdle) (he : s.err ≠ 0#4) :
    exec i s = .next (takeCommand s) := by
  cases i with
  | init => exact absurd rfl hi
  | push | final | digest | abort => exact whenAccepted_ignored hp he
  | status => exact absurd rfl hs
  | _ => cases hf

/-- Settles O15: acceptance is the same for all of them, but that no fault holds `INIT` back. -/
theorem commandsAreHeldOrIgnored : Obligations.CommandsAreHeldOrIgnored := by
  unfold Obligations.CommandsAreHeldOrIgnored
  refine fun s l n => ⟨fun hp => ?_, fun hp he => ?_⟩
  · have held {i : Instr} (hf : i.format = .cmd) (hs : i ≠ .status) : exec i s = .next s :=
      exec_command_of_busy hf hs hp
    exact ⟨held rfl (by simp), held rfl (by simp), held rfl (by simp), held rfl (by simp),
      held rfl (by simp)⟩
  · have ignored {i : Instr} (hf : i.format = .cmd) (hs : i ≠ .status) (hi : i ≠ .init) :
        exec i s = .next (takeCommand s) := exec_command_of_fault hf hs hi hp he
    exact ⟨ignored rfl (by simp) (by simp), ignored rfl (by simp) (by simp),
      ignored rfl (by simp) (by simp), ignored rfl (by simp) (by simp)⟩

/-! ### `INIT` (R162) -/

theorem exec_init_of_idle {s : State} (hp : s.ph = phIdle) :
    exec .init s = .next (takeCommand (startMessage s)) :=
  heldWhileBusy_idle hp

/-- Settles O9: the state `INIT` leaves is a literal in all registers that the status word shows. -/
theorem initStartsAMessage : Obligations.InitStartsAMessage := by
  unfold Obligations.InitStartsAMessage
  intro s hp
  rw [exec_init_of_idle hp]
  refine ⟨by simp [takeCommand, startMessage, hinit, hp], ?_⟩
  rintro t ⟨⟩
  simp [statusWord, readyFlag, doneFlag]

/-! ### `PUSH` (R163) -/

section Push

variable {s : State} (hp : s.ph = phIdle) (he : s.err = 0#4) (l : Bool)
include hp he

theorem pushChunk_of_not_reading (hst : s.st ≠ .reading) (n : BitVec 7) :
    pushChunk l n s = .next (takeCommand (raise .notReading s)) := by
  rw [pushChunk, whenAccepted_accepted hp he, if_pos hst]

variable (hst : s.st = .reading) {n : BitVec 7}
include hst

theorem pushChunk_of_count_gt (hn : 64 < n.toNat) :
    pushChunk l n s = .next (takeCommand (raise .badCount s)) := by
  rw [pushChunk, whenAccepted_accepted hp he, if_neg (not_not.mpr hst), if_pos hn]

theorem pushChunk_of_count_le (hn : n.toNat ≤ 64) (hlen : (payload s).length = n.toNat) :
    pushChunk l n s = .next (takeCommand (loadChunk l n s)) := by
  rw [pushChunk, whenAccepted_accepted hp he, if_neg (not_not.mpr hst),
    if_neg (Nat.not_lt.mpr hn), if_pos hlen]

end Push

theorem payload_of_cons {s : State} {t : Transfer} {ts : List Transfer} (h : s.cmd = t :: ts) :
    payload s = t.payload := by
  simp [payload, h]

/-- What the latch holds after a load: the payload, and the old bytes behind it (R163). -/
theorem readAt_writeFrom_zero {α : Type} (xs : Vector α 64) {ys : List α} (h : ys.length ≤ 64)
    (d : α) (k : Index) : readAt (writeFrom xs 0 ys) k =
      if k.toNat < ys.length then ys.getD k.toNat d else readAt xs k := by
  rw [readAt_writeFrom ys xs 0 (by omega), if_pos (Nat.zero_le _), Nat.sub_zero]
  split
  case isTrue hk => simp [hk]
  case isFalse hk => simp [hk]

/-- Settles O10: each outcome is a branch of the rule, and the load writes the payload from
`CHUNK[0]` up. -/
theorem pushLoadsTheChunkLatch : Obligations.PushLoadsTheChunkLatch := by
  unfold Obligations.PushLoadsTheChunkLatch
  refine fun s l n hp he => ⟨fun hst => ?_, fun hst hn => ?_, fun t ts hst hn hcmd hlen => ?_⟩
  · rw [exec, execPush, pushChunk_of_not_reading hp he l hst, raise_of_idle hp]
    rfl
  · rw [exec, execPush, pushChunk_of_count_gt hp he l hst hn, raise_of_idle hp]
    rfl
  · have hpay := payload_of_cons hcmd
    refine ⟨writeFrom s.chunk 0 t.payload, ?_, fun k => ?_⟩
    · rw [exec, execPush, pushChunk_of_count_le hp he l hst hn (hpay ▸ hlen),
        takeCommand_of_cons (s := loadChunk l n s) hcmd, loadChunk, hpay]
      rfl
    · rw [readAt_writeFrom_zero s.chunk (hlen.trans_le hn) 0, hlen]

/-! ### `DIGEST` (R166) -/

/-- Settles O12: the response is the accumulator's bytes by index. -/
theorem digestRespondsOnlyInDone : Obligations.DigestRespondsOnlyInDone := by
  unfold Obligations.DigestRespondsOnlyInDone
  refine fun s hp he => ⟨fun hst => ⟨octetBytes s.h, octetBytes_length s.h,
    fun j k => octetBytes_getElem? s.h j k.val k.isLt, ?_⟩, fun hst => ?_⟩
  · rw [exec, execDigest, whenAccepted_accepted hp he, if_pos hst]
    rfl
  · rw [exec, execDigest, whenAccepted_accepted hp he, if_neg hst, raise_of_idle hp]
    rfl

/-! ### The order of acceptance (R161) -/

/-- An illegal word is ignored while a fault is pending (R161 case 4). -/
theorem acceptIllegal_of_fault {s : State} (hp : s.ph = phIdle) (he : s.err ≠ 0#4) :
    acceptIllegal s = .next (takeCommand s) :=
  whenAccepted_ignored hp he

section Presented

variable {s : State} {t : Transfer} (hr : s.rst = false) (hi : irregularity s = none)
  (ht : presented s = some t)
include hr hi ht

/-- With a command presented the host's clock stands still (log 4). -/
theorem step_of_presented {i : Instr} (hf : fetch s = .run i) : step s = exec i s := by
  rw [step_of_run hr hi hf, hostTick_of_fetch ht]

/-- A command is held while the engine is busy: the sequencer takes its step (R161 case 2). -/
theorem step_of_held (hw : t.word ≠ 0x4000#16) (hp : s.ph ≠ phIdle) : step s = microStep s := by
  obtain ⟨hph, -⟩ := irregularity_none.mp hi
  obtain ⟨i, hd⟩ := decodeUop_total hph
  rw [step_of_presented hr hi ht ((fetch_of_busy ht hw hp).trans (fetchUop_of_decodeUop hd)),
    microStep_of_uop hd]

/-- Every command but `STATUS` and `INIT`, legal or not, is ignored while a fault is pending (R161
case 4). -/
theorem step_of_ignored (hs : t.word ≠ 0x4000#16) (hw : t.word ≠ 0x1000#16) (hp : s.ph = phIdle)
    (he : s.err ≠ 0#4) : step s = .next (takeCommand s) := by
  cases hd : decodeCommand t.word with
  | ok i =>
    rw [step_of_presented hr hi ht (fetch_of_idle ht hp hd)]
    exact exec_command_of_fault (decodeCommand_format hd)
      (by rintro rfl; exact hs (word_of_status hd))
      (by rintro rfl; exact hw (word_of_init hd)) hp he
  | error e =>
    rw [step_of_illegal hr hi (fetch_of_illegal ht hp hd), acceptIllegal_of_fault hp he]

end Presented

/-- A micro-operation leaves the ports and the reset line alone. -/
theorem microStep_ports {s t : State} (h : microStep s = .next t) :
    t.cmd = s.cmd ∧ t.rsp = s.rsp ∧ t.rst = s.rst := by
  cases hd : decodeUop s.ph with
  | ok i =>
    rw [microStep_of_uop hd] at h
    exact (exec_effect h).uop_ports (decodeUop_format hd)
  | error e => simp [microStep, fetchUop, hd] at h

/-- Settles O6: in each case what the step fetches, and what acceptance makes of it. -/
theorem commandAcceptanceOrder : Obligations.CommandAcceptanceOrder := by
  unfold Obligations.CommandAcceptanceOrder
  intro s w bs ts hr hi hcmd
  have ht := presented_of_head hcmd rfl
  refine ⟨fun hw => ?_, fun hw hp => ?_, fun hw hp => ?_, fun hs hw hp he => ?_,
    fun e hd hp he => ?_, fun i hd hp _ => ?_⟩
  · rw [step_of_presented hr hi ht (fetch_of_status ht hw)]
    exact congrArg Host.Outcome.next (takeCommand_of_cons (s := respond _ s) hcmd)
  · have hstep := step_of_held hr hi ht hw hp
    refine ⟨hstep, fun t h => ?_⟩
    obtain ⟨hc, hrsp, -⟩ := microStep_ports (hstep.symm.trans h)
    exact ⟨hc, hrsp⟩
  · have hd : decodeCommand w = .ok .init := by
      rw [hw]
      rfl
    exact step_of_presented hr hi ht (fetch_of_idle ht hp hd)
  · rw [step_of_ignored hr hi ht hs hw hp he, takeCommand_of_cons hcmd]
  · exact (illegalWordsRaiseIllegalCommand w).2 s bs ts ⟨e, hd⟩ hr hi hcmd hp he
  · exact step_of_presented hr hi ht (fetch_of_idle ht hp hd)

end Sys2Proof.Machine
end

section
/-! PROOFS. The canonical text of a digest (44_driver.md R172). -/

namespace Sys2Proof.Machine

/-- The digit of a nibble is the character at that place of the digit string. -/
theorem digits_getElem? :
    ∀ x : BitVec 4, "0123456789abcdef".toList[x.toNat]? = some (hexDigit x) := by
  decide

theorem hexWord_length (x : Word) : (hexWord x).length = 8 := rfl

/-- The digits of a word by index, most significant first. -/
theorem hexWord_getElem? (x : Word) (d : Fin 8) :
    (hexWord x)[d.val]? = some (hexDigit (x.extractLsb' (28 - 4 * d.val) 4)) := by
  match d with
  | 0 => rfl
  | 1 => rfl
  | 2 => rfl
  | 3 => rfl
  | 4 => rfl
  | 5 => rfl
  | 6 => rfl
  | 7 => rfl

/-- A field of a field is a field. -/
theorem extractLsb'_extractLsb'_add {w : Nat} (x : BitVec w) {a m n : Nat} (b : Nat)
    (h : a + m ≤ n) : (x.extractLsb' b n).extractLsb' a m = x.extractLsb' (b + a) m := by
  refine BitVec.eq_of_getLsbD_eq fun i hi => ?_
  simp only [BitVec.getLsbD_extractLsb', hi, show a + i < n by omega, decide_true, Bool.true_and,
    Nat.add_assoc]

/-- The digits of a word are those of its four bytes. -/
theorem hexWord_eq_flatMap (x : Word) : hexWord x = (wordBytes x).flatMap hexByte := by
  simp [hexWord, wordBytes, hexByte, extractLsb'_extractLsb'_add]

/-- Settles O36: digit `d` of word `j` stands at `8 j + d`, and two digits are a byte. -/
theorem digestTextIs64HexCharacters : Obligations.DigestTextIs64HexCharacters := by
  unfold Obligations.DigestTextIs64HexCharacters
  refine fun x => ⟨?_, fun j d => ?_, octetBytes_length x, ?_⟩
  · rw [digestText, length_flatMap_uniform hexWord_length, Octet.toList_length]
  · rw [digits_getElem?, digestText, getElem?_flatMap_uniform hexWord_length _ _ _ d.isLt,
      Octet.toList_getElem?]
    exact hexWord_getElem? _ d
  · rw [digestText, octetBytes, List.flatMap_assoc]
    exact List.flatMap_congr fun w _ => hexWord_eq_flatMap w

end Sys2Proof.Machine
end

section
/-! PROOFS. The micro-operation `ABS`, branch by branch (44_driver.md R164). -/

namespace Sys2Proof.Machine

section Abs

variable {s : State}

theorem absorbByte_of_full (h : s.fill = 63#6) : absorbByte s = { s with
    blk := Memory.write s.blk s.fill.toNat (readAt s.chunk (s.pos.setWidth 6))
    pos := s.pos + 1#7
    len := s.len + 8#64
    fill := 0#6
    ph := phLdw
    idx := 0#6 } := by
  rw [absorbByte, if_pos h]

theorem absorbByte_of_not_full (h : s.fill ≠ 63#6) : absorbByte s = { s with
    blk := Memory.write s.blk s.fill.toNat (readAt s.chunk (s.pos.setWidth 6))
    pos := s.pos + 1#7
    len := s.len + 8#64
    fill := s.fill + 1#6 } := by
  rw [absorbByte, if_neg h]

theorem exec_abs_absorbs (hp : s.pos < s.cnt) (hc : s.cnt ≤ 64#7)
    (hlen : s.len.toNat + 8 < 2 ^ 64) : exec .abs s = .next (absorbByte s) := by
  rw [exec_abs_of_lt hp hc, if_neg (mt lenAtEnd_iff.mp hlen.not_ge)]

theorem exec_abs_of_eq (hp : s.pos = s.cnt) (hc : s.cnt ≤ 64#7) :
    exec .abs s = .next (endChunk s) := by
  have hl : latchInRange s = true := latchInRange_iff.mpr ⟨hp ▸ BitVec.le_refl _, hc⟩
  simp [exec, execAbs, hl, hp]

theorem endChunk_of_not_last (hl : s.last = false) : endChunk s = { s with ph := phIdle } :=
  if_pos hl

theorem endChunk_short (hl : s.last = true) (hf : s.fill.toNat < 56) :
    endChunk s = { s with st := .paddingShort, ph := phPad1 } := by
  rw [endChunk, if_neg (by simp [hl]), if_pos hf]

theorem endChunk_split (hl : s.last = true) (hf : 56 ≤ s.fill.toNat) :
    endChunk s = { s with st := .paddingSplit, ph := phPadA } := by
  rw [endChunk, if_neg (by simp [hl]), if_neg (Nat.not_lt.mpr hf)]

end Abs

theorem pos_setWidth (p : BitVec 7) : p.setWidth 6 = BitVec.ofNat 6 p.toNat := by
  apply BitVec.eq_of_toNat_eq
  simp

/-- Settles O17: the overflow test, the byte with a full and with a not full buffer, and the end of
the chunk each have their equation. -/
theorem absAbsorbsOneByteOrEndsTheChunk : Obligations.AbsAbsorbsOneByteOrEndsTheChunk := by
  unfold Obligations.AbsAbsorbsOneByteOrEndsTheChunk
  intro s hle hc h8
  have hlen64 := s.len.isLt
  refine ⟨fun hp hlen => ?_, fun hp hlen => ?_, fun hp hl => ?_, fun hp hl hf => ?_,
    fun hp hl hf => ?_⟩
  · exact (lenNeverWraps s hp hc).1 (by omega)
  · have hexec := exec_abs_absorbs hp hc (by omega)
    refine ⟨_, _, s.pos + 1#7, len_add_eight (by omega), by bv_omega,
      fun a => Memory.read_write s.blk s.fill.toNat _ a, fun hf => ?_, fun hf => ?_⟩
    · have hfull : s.fill = 63#6 := BitVec.eq_of_toNat_eq hf
      rw [hexec, absorbByte_of_full hfull, pos_setWidth]
      rfl
    · have hfull : s.fill ≠ 63#6 := mt (congrArg BitVec.toNat) hf
      refine ⟨s.fill + 1#6, by bv_omega, ?_⟩
      rw [hexec, absorbByte_of_not_full hfull, pos_setWidth]
  · rw [exec_abs_of_eq hp hc, endChunk_of_not_last hl]
  · rw [exec_abs_of_eq hp hc, endChunk_short hl hf]
  · rw [exec_abs_of_eq hp hc, endChunk_split hl hf]

end Sys2Proof.Machine
end

section
/-! PROOFS. The driver state and the next position, for every step from a state of the invariant
(44_driver.md R160, R169, R173). -/

namespace Sys2Proof.Machine

/-! ### From a step to a branch of a rule -/

section Step

variable {s t : State} {i : Instr}

theorem effect_of_step (hr : s.rst = false) (hf : fetch s = .run i) (h : step s = .next t) :
    Effect (hostTick s) i t := by
  rcases step_next h with ⟨hr', -⟩ | ⟨-, -, j, hj, ht⟩ | ⟨-, -, hill, -⟩
  · simp [hr] at hr'
  · obtain rfl : j = i := Fetched.run.inj (hj.symm.trans hf)
    exact exec_effect ht
  · simp [hf] at hill

theorem ph_of_fetch_uop {p : BitVec 4} (hf : fetch s = .run i) (hi : i.format = .uop)
    (hp : encode i = .uop p) : s.ph = p :=
  Encoded.uop.inj ((encode_of_decodeUop (decodeUop_of_fetch_run hf hi)).symm.trans hp)

/-- An idle engine fetches no micro-operation but `IDLE` (R76). -/
theorem idle_of_fetch_uop (hp : s.ph = phIdle) (hf : fetch s = .run i) (hi : i.format = .uop) :
    i = .idle := by
  have hd := decodeUop_of_fetch_run hf hi
  rw [hp] at hd
  exact (Except.ok.inj hd).symm

end Step

/-! ### The driver state (R160) -/

/-- The rows of the table that leave a driver state. -/
theorem Effect.st_kept_or_row {i : Instr} {s t : State} (e : Effect s i t) :
    t.st = s.st ∨ (i = .init ∧ s.ph = phIdle ∧ t.st = .reading) ∨
    (i = .abs ∧ t.st = .paddingShort ∧ s.pos = s.cnt ∧ s.last = true ∧ s.fill.toNat < 56) ∨
    (i = .abs ∧ t.st = .paddingSplit ∧ s.pos = s.cnt ∧ s.last = true ∧ 56 ≤ s.fill.toNat) ∨
    (i = .fold ∧ s.st = .paddingShort ∧ t.st = .done) ∨
    (i = .fold ∧ s.st = .paddingSplit ∧ t.st = .done ∧ s.splitb = true) := by
  cases e with
  | init hp => exact .inr (.inl ⟨rfl, hp, rfl⟩)
  | absShort _ hp hl hf => exact .inr (.inr (.inl ⟨rfl, rfl, hp, hl, hf⟩))
  | absSplit _ hp hl hf => exact .inr (.inr (.inr (.inl ⟨rfl, rfl, hp, hl, hf⟩)))
  | foldShort hst => exact .inr (.inr (.inr (.inr (.inl ⟨rfl, hst, rfl⟩))))
  | foldSplitB hst hb => exact .inr (.inr (.inr (.inr (.inr ⟨rfl, hst, rfl, hb⟩))))
  | _ => exact .inl (by simp)

/-- The driver state after `ABS`. -/
theorem Effect.abs_st {s t : State} (e : Effect s .abs t) (hst : s.st = .reading) :
    (s.pos < s.cnt ∨ s.last = false → t.st = .reading) ∧
    (s.pos = s.cnt → s.last = true → s.fill.toNat < 56 → t.st = .paddingShort) ∧
    (s.pos = s.cnt → s.last = true → 56 ≤ s.fill.toNat → t.st = .paddingSplit) := by
  cases e with
  | held _ hf | ignored _ hf => cases hf
  | absOverflow _ hp | absFull _ hp | absByte _ hp =>
    have hne := BitVec.ne_of_lt hp
    simp [hst, hne]
  | absEnd _ hp hl => simp [hst, hl]
  | absShort _ hp hl hf => simp [hp, hl, hf]
  | absSplit _ hp hl hf => simp [hp, hl, hf]

/-- The driver state after `FOLD`. -/
theorem Effect.fold_st {s t : State} (e : Effect s .fold t) :
    (s.st = .reading → t.st = .reading) ∧ (s.st = .paddingShort → t.st = .done) ∧
    (s.st = .paddingSplit → s.splitb = false → t.st = .paddingSplit) ∧
    (s.st = .paddingSplit → s.splitb = true → t.st = .done) := by
  cases e with
  | held _ hf | ignored _ hf => cases hf
  | foldData hst | foldShort hst => simp [hst]
  | foldSplitA hst hb | foldSplitB hst hb => simp [hst, hb]

theorem Effect.init_st {s t : State} (e : Effect s .init t) (hp : s.ph = phIdle) :
    t.st = .reading := by
  cases e with
  | held _ _ _ hb => exact absurd hp hb
  | ignored _ _ _ hi => exact absurd rfl hi
  | init => rfl

theorem acceptIllegal_st {s t : State} (h : acceptIllegal s = .next t) : t.st = s.st := by
  rcases acceptIllegal_next h with ⟨-, rfl⟩ | ⟨-, -, rfl⟩ | ⟨-, -, rfl⟩ <;> rfl

/-- `INIT` is fetched only by an idle engine (R161). -/
theorem ph_of_fetch_init {s : State} (h : fetch s = .run .init) : s.ph = phIdle := by
  rcases fetch_run h with ⟨c, -, -, hi | hp⟩ | ⟨hd, -⟩
  · cases hi
  · exact hp
  · cases decodeUop_format hd

/-- Every change of the driver state is a row of the table. -/
theorem driverState_row {s t : State} (h : step s = .next t) :
    t.st = s.st ∨ (s.rst = true ∧ t.st = .reading) ∨
    (fetch s = .run .init ∧ s.ph = phIdle ∧ t.st = .reading) ∨
    (t.st = .paddingShort ∧ s.ph = phAbs ∧ s.pos = s.cnt ∧ s.last = true ∧ s.fill.toNat < 56) ∨
    (t.st = .paddingSplit ∧ s.ph = phAbs ∧ s.pos = s.cnt ∧ s.last = true ∧ 56 ≤ s.fill.toNat) ∨
    (s.st = .paddingShort ∧ t.st = .done ∧ s.ph = phFold) ∨
    (s.st = .paddingSplit ∧ t.st = .done ∧ s.ph = phFold ∧ s.splitb = true) := by
  rcases step_next h with ⟨hr, rfl⟩ | ⟨-, -, i, hf, ht⟩ | ⟨-, -, -, ht⟩
  · exact .inr (.inl ⟨hr, rfl⟩)
  · have hrow := (exec_effect ht).st_kept_or_row
    simp only [hostTick_st, hostTick_ph, hostTick_pos, hostTick_cnt, hostTick_last, hostTick_fill,
      hostTick_splitb] at hrow
    rcases hrow with hkept | ⟨rfl, hp, hst⟩ | ⟨rfl, hst, hrest⟩ | ⟨rfl, hst, hrest⟩ |
      ⟨rfl, hst, hdone⟩ | ⟨rfl, hst, hdone, hb⟩
    · exact .inl hkept
    · exact .inr (.inr (.inl ⟨hf, hp, hst⟩))
    · exact .inr (.inr (.inr (.inl ⟨hst, ph_of_fetch_uop hf rfl rfl, hrest⟩)))
    · exact .inr (.inr (.inr (.inr (.inl ⟨hst, ph_of_fetch_uop hf rfl rfl, hrest⟩))))
    · exact .inr (.inr (.inr (.inr (.inr (.inl ⟨hst, hdone, ph_of_fetch_fold hf⟩)))))
    · exact .inr (.inr (.inr (.inr (.inr (.inr ⟨hst, hdone, ph_of_fetch_fold hf, hb⟩)))))
  · exact .inl (acceptIllegal_st ht)

/-- Settles O43: a change is a row by the branches of the rules, with `ST = READING` in `ABS` from
the invariant; and `INIT`, `ABS` and `FOLD` take the rows where their conditions hold. -/
theorem driverStateTransitions : Obligations.DriverStateTransitions := by
  unfold Obligations.DriverStateTransitions
  intro s t hs h
  refine ⟨?_, fun hr => ?_, fun hr => ?_⟩
  · rcases driverState_row h with
      hk | hk | hk | ⟨ht, hp, hrest⟩ | ⟨ht, hp, hrest⟩ | hk | hk
    · exact .inl hk
    · exact .inr (.inl hk)
    · exact .inr (.inr (.inl hk))
    · exact .inr (.inr (.inr (.inl ⟨hs.absState hp, ht, hp, hrest⟩)))
    · exact .inr (.inr (.inr (.inr (.inl ⟨hs.absState hp, ht, hp, hrest⟩))))
    · exact .inr (.inr (.inr (.inr (.inr (.inl hk)))))
    · exact .inr (.inr (.inr (.inr (.inr (.inr hk)))))
  · rcases step_next h with ⟨-, rfl⟩ | ⟨hr', -⟩ | ⟨hr', -⟩
    · rfl
    · simp [hr] at hr'
    · simp [hr] at hr'
  · have abs (hf : fetch s = .run .abs) := (effect_of_step hr hf h).abs_st
      ((hostTick_st s).trans (hs.absState (ph_of_fetch_uop hf rfl rfl)))
    have fold (hf : fetch s = .run .fold) := (effect_of_step hr hf h).fold_st
    simp only [hostTick_st, hostTick_pos, hostTick_cnt, hostTick_last, hostTick_fill,
      hostTick_splitb] at abs fold
    exact ⟨fun hf => (effect_of_step hr hf h).init_st
        ((hostTick_ph s).trans (ph_of_fetch_init hf)),
      fun hf => (abs hf).1, fun hf => (abs hf).2.1, fun hf => (abs hf).2.2,
      fun hf => (fold hf).1, fun hf => (fold hf).2.1, fun hf => (fold hf).2.2.1,
      fun hf => (fold hf).2.2.2⟩

/-! ### `DONE` (R173) -/

/-- In `DONE` no command but `INIT` moves the engine: `PUSH` raises a fault, `DIGEST` responds. -/
theorem Effect.done_kept {i : Instr} {s t : State} (e : Effect s i t) (hst : s.st = .done)
    (hp : s.ph = phIdle) (hi : i ≠ .init) (hu : i.format = .uop → i = .idle) :
    t.st = .done ∧ t.h = s.h ∧ t.ph = phIdle ∧ t.len = s.len ∧ t.fill = s.fill ∧
      t.seq = s.seq := by
  cases e with
  | init => exact absurd rfl hi
  | push _ _ _ _ hr | final _ _ hr => simp [hst] at hr
  | held | ignored | pushNotReading | finalNotReading | pushBadCount | digest | digestNotReady
  | status | abort | idle => simp [hst, hp]
  | _ => cases hu rfl

theorem acceptIllegal_kept {s t : State} (h : acceptIllegal s = .next t) (hp : s.ph = phIdle) :
    t.h = s.h ∧ t.ph = phIdle ∧ t.idx = s.idx ∧ t.len = s.len ∧ t.fill = s.fill ∧
      t.seq = s.seq := by
  rcases acceptIllegal_next h with ⟨hb, -⟩ | ⟨-, -, rfl⟩ | ⟨-, -, rfl⟩
  · exact absurd hp hb
  · simp [hp]
  · simp

/-- Settles O44: the invariant puts `DONE` in `IDLE`, where only commands are fetched. -/
theorem doneIsTerminal : Obligations.DoneIsTerminal := by
  unfold Obligations.DoneIsTerminal
  intro s t hs hst hr hi h
  have hp := hs.doneIdle hst
  rcases step_next h with ⟨hr', -⟩ | ⟨-, -, i, hf, ht⟩ | ⟨-, -, -, ht⟩
  · simp [hr] at hr'
  · have hkept := (exec_effect ht).done_kept (by rwa [hostTick_st]) (by rwa [hostTick_ph])
      (fun h => hi (h ▸ hf)) (idle_of_fetch_uop hp hf)
    simpa using hkept
  · obtain ⟨hh, hph, -, hrest⟩ := acceptIllegal_kept ht hp
    exact ⟨(acceptIllegal_st ht).trans hst, hh, hph, hrest⟩

/-! ### The next position (R169) -/

/-- `PUSH` or its other name `FINAL`. -/
abbrev IsPush (i : Instr) : Prop := (∃ l n, i = .push l n) ∨ i = .final

/-- From `IDLE` the sequencer goes to `ABS` by a `PUSH` without fault and stays otherwise. -/
theorem Effect.position_of_idle {i : Instr} {s t : State} (e : Effect s i t) (hp : s.ph = phIdle)
    (hx : s.idx = 0#6) (hu : i.format = .uop → i = .idle) :
    (t.ph = phIdle ∧ t.idx = 0#6 ∧ (IsPush i → s.err = 0#4 → t.err ≠ 0#4)) ∨
    (t.ph = phAbs ∧ t.idx = 0#6 ∧ IsPush i ∧ t.err = 0#4) := by
  cases e with
  | held _ _ _ hb => exact absurd hp hb
  | ignored _ _ _ _ _ he => exact .inl ⟨hp, hx, fun _ h => absurd h he⟩
  | pushNotReading | finalNotReading | pushBadCount =>
    exact .inl ⟨rfl, hx, fun _ _ => by simp [Cause.code]⟩
  | push l n _ he => exact .inr ⟨rfl, rfl, .inl ⟨l, n, rfl⟩, he⟩
  | final _ he => exact .inr ⟨rfl, rfl, .inr rfl, he⟩
  | init | digest | digestNotReady | status | abort | idle => simp [hp, hx]
  | _ => cases hu rfl

/-- The position after a step from `IDLE`, for whatever is fetched. -/
theorem position_of_step_idle {s t : State} (hs : Inv s) (hr : s.rst = false) (hp : s.ph = phIdle)
    (h : step s = .next t) :
    (t.ph = phIdle ∧ t.idx = 0#6 ∧
      ((∃ i, fetch s = .run i ∧ IsPush i) → s.err = 0#4 → t.err ≠ 0#4)) ∨
    (t.ph = phAbs ∧ t.idx = 0#6 ∧ (∃ i, fetch s = .run i ∧ IsPush i) ∧ t.err = 0#4) := by
  have hx := idx_zero_at hs hp (by decide)
  rcases step_next h with ⟨hr', -⟩ | ⟨-, -, i, hf, ht⟩ | ⟨-, -, hf, ht⟩
  · simp [hr] at hr'
  · have hpos := (exec_effect ht).position_of_idle (by rwa [hostTick_ph]) (by rwa [hostTick_idx])
      (idle_of_fetch_uop hp hf)
    rw [hostTick_err] at hpos
    rcases hpos with ⟨hph, hidx, hfault⟩ | ⟨hph, hidx, hpush, het⟩
    · refine .inl ⟨hph, hidx, ?_⟩
      rintro ⟨j, hj, hpush⟩
      obtain rfl : j = i := Fetched.run.inj (hj.symm.trans hf)
      exact hfault hpush
    · exact .inr ⟨hph, hidx, ⟨i, hf, hpush⟩, het⟩
  · obtain ⟨-, hph, hidx, -⟩ := acceptIllegal_kept ht hp
    exact .inl ⟨hph, hidx.trans hx, fun ⟨j, hj, _⟩ => by simp [hf] at hj⟩

end Sys2Proof.Machine
end

section
/-! PROOFS. The next position of the sequencer after a micro-operation (44_driver.md R169). -/

namespace Sys2Proof.Machine

variable {s t : State}

theorem exec_of_microStep {p : BitVec 4} {i : Instr} (h : microStep s = .next t) (hp : s.ph = p)
    (hd : decodeUop p = .ok i) : exec i s = .next t :=
  (microStep_of_uop (hp ▸ hd)).symm.trans h

/-! ### `ABS` -/

/-- The rows of `ABS`. -/
structure AbsPosition (s t : State) : Prop where
  overflow : s.pos < s.cnt → s.len.toNat = 2 ^ 64 - 8 → t.ph = phIdle ∧ t.idx = 0
  byte : s.pos < s.cnt → s.len.toNat ≠ 2 ^ 64 - 8 → s.fill.toNat < 63 → t.ph = phAbs ∧ t.idx = 0
  full : s.pos < s.cnt → s.len.toNat ≠ 2 ^ 64 - 8 → s.fill.toNat = 63 → t.ph = phLdw ∧ t.idx = 0
  ended : s.pos = s.cnt → s.last = false → t.ph = phIdle ∧ t.idx = 0
  short : s.pos = s.cnt → s.last = true → s.fill.toNat < 56 → t.ph = phPad1 ∧ t.idx = 0
  split : s.pos = s.cnt → s.last = true → 56 ≤ s.fill.toNat → t.ph = phPadA ∧ t.idx = 0

theorem absPosition_of_exec (hs : Inv s) (hp : s.ph = phAbs) (h : exec .abs s = .next t) :
    AbsPosition s t := by
  have hi := idx_zero_at hs hp (by decide)
  obtain ⟨hoverflow, habsorb, hend, hshort, hsplit⟩ :=
    absAbsorbsOneByteOrEndsTheChunk s hs.latch.1 hs.latch.2 hs.lenBytes
  have next {u : State} (hu : exec .abs s = .next u) : t = u :=
    Host.Outcome.next.inj (h.symm.trans hu)
  constructor
  case overflow =>
    intro hpos hlen
    rw [next (hoverflow hpos hlen)]
    exact ⟨rfl, hi⟩
  case byte =>
    intro hpos hlen hf
    obtain ⟨blk', len', pos', -, -, -, -, hbyte⟩ := habsorb hpos hlen
    obtain ⟨fill', -, hu⟩ := hbyte (by omega)
    rw [next hu]
    exact ⟨hp, hi⟩
  case full =>
    intro hpos hlen hf
    obtain ⟨blk', len', pos', -, -, -, hfull, -⟩ := habsorb hpos hlen
    rw [next (hfull hf)]
    exact ⟨rfl, rfl⟩
  case ended =>
    intro hpos hl
    rw [next (hend hpos hl)]
    exact ⟨rfl, hi⟩
  case short =>
    intro hpos hl hf
    rw [next (hshort hpos hl hf)]
    exact ⟨rfl, hi⟩
  case split =>
    intro hpos hl hf
    rw [next (hsplit hpos hl hf)]
    exact ⟨rfl, hi⟩

/-! ### The phases that count `IDX` -/

/-- The rows of a phase that ends at index `i` and goes on to phase `q`. -/
structure Counts (i : Index) (q : BitVec 4) (s t : State) : Prop where
  ph : t.ph = if s.idx = i then q else s.ph
  idx : t.idx = s.idx + 1#6

section Counts

variable {i : Index} {q : BitVec 4} (h : Counts i q s t)
include h

theorem Counts.before_last {p : BitVec 4} (hp : s.ph = p) (hi : s.idx.toNat < i.toNat) :
    t.ph = p ∧ t.idx.toNat = s.idx.toNat + 1 := by
  have hne : s.idx ≠ i := by bv_omega
  refine ⟨?_, ?_⟩
  · rw [h.ph, if_neg hne, hp]
  · rw [h.idx]
    bv_omega

theorem Counts.at_last (hi : s.idx.toNat = i.toNat) : t.ph = q ∧ t.idx = i + 1#6 := by
  have heq : s.idx = i := BitVec.eq_of_toNat_eq hi
  exact ⟨by rw [h.ph, if_pos heq], by rw [h.idx, heq]⟩

end Counts

theorem counts_of_execLdw (h : execLdw s = .next t) : Counts 15#6 phExp s t := by
  obtain ⟨hle, x, hx, -⟩ := execLdw_next h
  rw [execLdw_of_read32 hle hx] at h
  cases h
  exact ⟨rfl, rfl⟩

theorem counts_of_execExp (h : execExp s = .next t) : Counts 63#6 phSeed s t := by
  rw [execExp_of_le (execExp_next h).1] at h
  cases h
  exact ⟨rfl, rfl⟩

theorem counts_of_execRnd (h : execRnd s = .next t) : Counts 63#6 phFold s t := by
  rw [execRnd_eq] at h
  cases h
  exact ⟨rfl, rfl⟩

/-! ### The padding stage and `FOLD` -/

theorem position_of_pad (h : microStep s = .next t)
    (hp : s.ph = phPad1 ∨ s.ph = phPadA ∨ s.ph = phPadB) : t.ph = phLdw ∧ t.idx = 0 := by
  rcases hp with hp | hp | hp
  · obtain ⟨-, rfl⟩ := execPad1_next (exec_of_microStep (i := .pad1) h hp rfl)
    exact ⟨rfl, rfl⟩
  · cases exec_of_microStep (i := .padA) h hp rfl
    exact ⟨rfl, rfl⟩
  · cases exec_of_microStep (i := .padB) h hp rfl
    exact ⟨rfl, rfl⟩

theorem position_of_fold (hst : s.st ≠ .done) (h : execFold s = .next t) :
    (∃ q, FoldExit s q t.ph) ∧ t.idx = 0 := by
  obtain ⟨q, p, hexit, hfold⟩ := execFold_exit hst
  cases hfold.symm.trans h
  exact ⟨⟨q, hexit⟩, rfl⟩

/-- Settles O48: from `IDLE` by what is fetched, elsewhere phase by phase. -/
theorem nextPositionTable : Obligations.NextPositionTable := by
  unfold Obligations.NextPositionTable
  refine ⟨fun s t hs hr hp h => ⟨fun he het hpush => ?_, fun hno => ?_⟩, fun s t hs hb h => ?_⟩
  · have hpush' : ∃ i, fetch s = .run i ∧ IsPush i := by
      rcases hpush with ⟨l, n, hf⟩ | hf
      · exact ⟨_, hf, .inl ⟨l, n, rfl⟩⟩
      · exact ⟨_, hf, .inr rfl⟩
    rcases position_of_step_idle hs hr hp h with ⟨-, -, hfault⟩ | ⟨hph, hidx, -⟩
    · exact absurd het (hfault hpush' he)
    · exact ⟨hph, hidx⟩
  · rcases position_of_step_idle hs hr hp h with ⟨hph, hidx, -⟩ | ⟨-, -, ⟨i, hf, hpush⟩, het⟩
    · exact ⟨hph, hidx⟩
    · exfalso
      rcases hno with hne | ⟨hnp, hnf⟩
      · exact hne het
      · rcases hpush with ⟨l, n, rfl⟩ | rfl
        · exact hnp l n hf
        · exact hnf hf
  · have abs (hp : s.ph = phAbs) := absPosition_of_exec hs hp (exec_of_microStep h hp rfl)
    have ldw (hp : s.ph = phLdw) := counts_of_execLdw (exec_of_microStep (i := .ldw) h hp rfl)
    have exp (hp : s.ph = phExp) := counts_of_execExp (exec_of_microStep (i := .exp) h hp rfl)
    have rnd (hp : s.ph = phRnd) := counts_of_execRnd (exec_of_microStep (i := .rnd) h hp rfl)
    have fold (hp : s.ph = phFold) := position_of_fold (mt hs.doneIdle hb)
      (exec_of_microStep (i := .fold) h hp rfl)
    refine ⟨fun hp => (abs hp).overflow, fun hp => (abs hp).byte, fun hp => (abs hp).full,
      fun hp => (abs hp).ended, fun hp => (abs hp).short, fun hp => (abs hp).split,
      position_of_pad h, fun hp => (ldw hp).before_last hp, fun hp hi => ?_,
      fun hp => (exp hp).before_last hp, fun hp => (exp hp).at_last, fun hp => ?_,
      fun hp => (rnd hp).before_last hp, fun hp => (rnd hp).at_last, fun hp hst => ?_,
      fun hp hst => ?_, fun hp hst hsp => ?_, fun hp hst hsp => ?_⟩
    · obtain ⟨hph, hidx⟩ := (ldw hp).at_last hi
      exact ⟨hph, by rw [hidx]; rfl⟩
    · cases exec_of_microStep (i := .seed) h hp rfl
      exact ⟨rfl, rfl⟩
    all_goals obtain ⟨⟨q, hdata, hshort, hsplitA, hsplitB⟩, hidx⟩ := fold hp
    · exact ⟨(hdata hst).1, hidx⟩
    · exact ⟨(hshort hst).1, hidx⟩
    · exact ⟨(hsplitA hst hsp).1, hidx⟩
    · exact ⟨(hsplitB hst hsp).1, hidx⟩

end Sys2Proof.Machine
end

section
/-! PROOFS. The sequencer reaches `IDLE` within 457 micro-operations (44_driver.md R174): a bound on
the micro-operations that are left, which each of them lowers. -/

namespace Sys2Proof.Machine

/-! ### The micro-operations left -/

/-- For a message that ends with `fill` bytes in the buffer: the padding blocks and their passes. -/
def padLeft (fill : Nat) : Nat := if fill < 56 then 131 else 262

/-- In `ABS` with `fill` bytes in the buffer and `rest` bytes to absorb, if the message ends
there. -/
def absorbLeft (fill rest : Nat) : Nat :=
  rest + 130 * ((fill + rest) / 64) + 1 + padLeft ((fill + rest) % 64)

/-- In a pass, its `FOLD` included (R147). -/
def passLeft (p : BitVec 4) (i : Index) : Nat :=
  if p = phLdw ∨ p = phExp then 130 - i.toNat
  else if p = phSeed then 66
  else if p = phRnd then 65 - i.toNat
  else 1

/-- After a pass, by the driver state (R143). -/
def afterPassLeft (s : State) : Nat :=
  match s.st with
  | .reading => absorbLeft s.fill.toNat (s.cnt.toNat - s.pos.toNat)
  | .paddingShort => 0
  | .paddingSplit => if s.splitb then 0 else 131
  | .done => 0

/-- The bound on the micro-operations left. -/
def uopsLeft (s : State) : Nat :=
  if s.ph = phIdle then 0
  else if s.ph = phAbs then absorbLeft s.fill.toNat (s.cnt.toNat - s.pos.toNat)
  else if s.ph = phPad1 then 131
  else if s.ph = phPadA then 262
  else if s.ph = phPadB then 131
  else passLeft s.ph s.idx + afterPassLeft s

theorem padLeft_le (fill : Nat) : padLeft fill ≤ 262 := by
  unfold padLeft
  split <;> omega

/-- A chunk of 64 bytes fills the buffer once, and then leaves in it what it held before. -/
theorem absorbLeft_le {fill rest : Nat} (hf : fill < 64) (hr : rest ≤ 64) :
    absorbLeft fill rest ≤ 457 ∧ absorbLeft 0 rest ≤ 327 := by
  have hpad := padLeft_le ((fill + rest) % 64)
  refine ⟨by unfold absorbLeft; omega, ?_⟩
  by_cases h64 : rest = 64
  · subst h64
    decide
  · have hpad0 := padLeft_le ((0 + rest) % 64)
    unfold absorbLeft
    omega

section PassLeft

variable (i : Index)

theorem passLeft_ldw : passLeft phLdw i = 130 - i.toNat := rfl

theorem passLeft_exp : passLeft phExp i = 130 - i.toNat := rfl

theorem passLeft_seed : passLeft phSeed i = 66 := rfl

theorem passLeft_rnd : passLeft phRnd i = 65 - i.toNat := rfl

theorem passLeft_fold : passLeft phFold i = 1 := rfl

end PassLeft

theorem passLeft_le (p : BitVec 4) (i : Index) : passLeft p i ≤ 130 := by
  unfold passLeft
  split_ifs <;> omega

section Equations

variable {s : State}

theorem uopsLeft_of_idle (hp : s.ph = phIdle) : uopsLeft s = 0 := if_pos hp

theorem uopsLeft_of_abs (hp : s.ph = phAbs) :
    uopsLeft s = absorbLeft s.fill.toNat (s.cnt.toNat - s.pos.toNat) := by
  simp [uopsLeft, hp, phAbs]

theorem uopsLeft_of_pad1 (hp : s.ph = phPad1) : uopsLeft s = 131 := by
  simp [uopsLeft, hp, phIdle, phAbs, phPad1]

theorem uopsLeft_of_padA (hp : s.ph = phPadA) : uopsLeft s = 262 := by
  simp [uopsLeft, hp, phIdle, phAbs, phPad1, phPadA]

theorem uopsLeft_of_padB (hp : s.ph = phPadB) : uopsLeft s = 131 := by
  simp [uopsLeft, hp, phIdle, phAbs, phPad1, phPadA, phPadB]

theorem uopsLeft_of_pass {p : BitVec 4} (hp : s.ph = p) (hq : phLdw ≤ p) :
    uopsLeft s = passLeft p s.idx + afterPassLeft s := by
  subst hp
  obtain ⟨hidle, habs, hpad1, hpadA, hpadB⟩ := pass_phase_ne s.ph hq
  rw [uopsLeft, if_neg hidle, if_neg habs, if_neg hpad1, if_neg hpadA, if_neg hpadB]

end Equations

/-- A data block's pass runs with an empty buffer. -/
theorem afterPassLeft_le {s : State} (hempty : s.st = .reading → s.fill = 0#6)
    (hrest : s.cnt.toNat - s.pos.toNat ≤ 64) : afterPassLeft s ≤ 327 := by
  unfold afterPassLeft
  split
  case h_1 hread =>
    rw [hempty hread]
    exact (absorbLeft_le (fill := 0) (by decide) hrest).2
  case h_3 => split <;> omega
  all_goals omega

theorem uopsLeft_le {s : State} (hs : Inv s) : uopsLeft s ≤ 457 := by
  have hrest : s.cnt.toNat - s.pos.toNat ≤ 64 := by
    have hc := hs.latch.2
    bv_omega
  rcases atPhase_of_inv hs with hp | hp | hp | hp | hp | ⟨hp, -, -, -, hdata, -⟩
  · simp [uopsLeft_of_idle hp]
  · rw [uopsLeft_of_abs hp]
    exact (absorbLeft_le s.fill.isLt hrest).1
  · simp [uopsLeft_of_pad1 hp]
  · simp [uopsLeft_of_padA hp]
  · simp [uopsLeft_of_padB hp]
  · have hpass := passLeft_le s.ph s.idx
    have hafter := afterPassLeft_le (fun h => (hdata h).empty) hrest
    rw [uopsLeft_of_pass rfl hp.1]
    omega

/-! ### Every micro-operation lowers the bound -/

/-- A byte that leaves the buffer with room. -/
theorem absorbLeft_byte (fill rest : Nat) :
    absorbLeft (fill + 1) rest < absorbLeft fill (rest + 1) := by
  have hsum : fill + (rest + 1) = fill + 1 + rest := by omega
  rw [absorbLeft, absorbLeft, hsum]
  omega

/-- The byte that fills the buffer, and the pass of its block. -/
theorem absorbLeft_full (rest : Nat) : 130 + absorbLeft 0 rest < absorbLeft 63 (rest + 1) := by
  have hdiv : (63 + (rest + 1)) / 64 = (0 + rest) / 64 + 1 := by omega
  have hmod : (63 + (rest + 1)) % 64 = (0 + rest) % 64 := by omega
  rw [absorbLeft, absorbLeft, hdiv, hmod]
  omega

/-- The end of the chunk. -/
theorem padLeft_lt_absorbLeft {fill : Nat} (hf : fill < 64) (rest : Nat) (hr : rest = 0) :
    padLeft fill < absorbLeft fill rest := by
  subst hr
  rw [absorbLeft, Nat.add_zero fill, Nat.mod_eq_of_lt hf]
  omega

/-- Inside a pass only the position counts: what comes after the pass stays the same. -/
theorem uopsLeft_lt_in_pass {s t : State} {p q : BitVec 4} (hs : s.ph = p) (ht : t.ph = q)
    (hpq : phLdw ≤ p ∧ phLdw ≤ q) (hafter : afterPassLeft t = afterPassLeft s)
    (hlt : passLeft q t.idx < passLeft p s.idx) : uopsLeft t < uopsLeft s := by
  rw [uopsLeft_of_pass hs hpq.1, uopsLeft_of_pass ht hpq.2, hafter]
  omega

theorem uopsLeft_lt_of_effect {s t : State} {i : Instr} (hs : Inv s)
    (hd : decodeUop s.ph = .ok i) (hb : s.ph ≠ phIdle) (e : Effect s i t) :
    uopsLeft t < uopsLeft s := by
  have hu := decodeUop_format hd
  have phase {p : BitVec 4} (hp : encode i = .uop p) : s.ph = p :=
    Encoded.uop.inj ((encode_of_decodeUop hd).symm.trans hp)
  have hrest (hpos : s.pos < s.cnt) :
      s.cnt.toNat - s.pos.toNat = (s.cnt.toNat - (s.pos + 1#7).toNat) + 1 := by
    have hc := hs.latch.2
    bv_omega
  cases e with
  | held _ hf | ignored _ hf => simp [hf] at hu
  | idle => exact absurd (phase rfl) hb
  | absOverflow =>
    rw [uopsLeft_of_idle (raise_ph _ s), uopsLeft_of_abs (phase rfl), absorbLeft]
    omega
  | absFull _ hpos _ hf =>
    have hst := hs.absState (phase rfl)
    rw [uopsLeft_of_abs (phase rfl), uopsLeft_of_pass (p := phLdw) rfl (by decide), hf, hrest hpos,
      afterPassLeft, hst]
    exact absorbLeft_full _
  | absByte _ hpos _ hf =>
    have hfill : (s.fill + 1#6).toNat = s.fill.toNat + 1 := by bv_omega
    have hp : s.ph = phAbs := phase rfl
    rw [uopsLeft_of_abs hp, hrest hpos, uopsLeft_of_abs]
    · rw [hfill]
      exact absorbLeft_byte _ _
    · exact hp
  | absEnd =>
    rw [uopsLeft_of_idle rfl, uopsLeft_of_abs (phase rfl), absorbLeft]
    omega
  | absShort _ hpos _ hf =>
    rw [uopsLeft_of_pad1 rfl, uopsLeft_of_abs (phase rfl)]
    simpa [padLeft, hf] using padLeft_lt_absorbLeft s.fill.isLt _ (by simp [hpos])
  | absSplit _ hpos _ hf =>
    rw [uopsLeft_of_padA rfl, uopsLeft_of_abs (phase rfl)]
    simpa [padLeft, Nat.not_lt.mpr hf] using padLeft_lt_absorbLeft s.fill.isLt _ (by simp [hpos])
  | pad1 =>
    have hst := hs.pad1State (phase rfl)
    rw [uopsLeft_of_pad1 (phase rfl), uopsLeft_of_pass (p := phLdw) rfl (by decide), passLeft_ldw]
    simp [afterPassLeft, hst]
  | padA =>
    obtain ⟨hst, hsplit⟩ := hs.padAState (phase rfl)
    rw [uopsLeft_of_padA (phase rfl), uopsLeft_of_pass (p := phLdw) rfl (by decide), passLeft_ldw]
    simp [afterPassLeft, hst, hsplit]
  | padB =>
    obtain ⟨hst, -⟩ := hs.padBState (phase rfl)
    rw [uopsLeft_of_padB (phase rfl), uopsLeft_of_pass (p := phLdw) rfl (by decide), passLeft_ldw]
    simp [afterPassLeft, hst]
  | ldwLast _ _ hi =>
    refine uopsLeft_lt_in_pass (p := phLdw) (q := phExp) (phase rfl) rfl (by decide) rfl ?_
    simp [passLeft_ldw, passLeft_exp, hi]
  | ldw _ _ _ hne =>
    refine uopsLeft_lt_in_pass (p := phLdw) (q := phLdw) (phase rfl) (phase rfl) (by decide) rfl ?_
    rw [passLeft_ldw, passLeft_ldw, nextIndex_idx]
    bv_omega
  | expLast hi =>
    refine uopsLeft_lt_in_pass (p := phExp) (q := phSeed) (phase rfl) rfl (by decide) rfl ?_
    simp [passLeft_exp, passLeft_seed, hi]
  | exp _ hne =>
    refine uopsLeft_lt_in_pass (p := phExp) (q := phExp) (phase rfl) (phase rfl) (by decide) rfl ?_
    rw [passLeft_exp, passLeft_exp, nextIndex_idx]
    bv_omega
  | seed =>
    refine uopsLeft_lt_in_pass (p := phSeed) (q := phRnd) (phase rfl) rfl (by decide) rfl ?_
    simp [passLeft_seed, passLeft_rnd]
  | rndLast hi =>
    refine uopsLeft_lt_in_pass (p := phRnd) (q := phFold) (phase rfl) rfl (by decide) rfl ?_
    simp [passLeft_rnd, passLeft_fold, hi]
  | rnd hne =>
    refine uopsLeft_lt_in_pass (p := phRnd) (q := phRnd) (phase rfl) (phase rfl) (by decide) rfl ?_
    rw [passLeft_rnd, passLeft_rnd, nextIndex_idx]
    bv_omega
  | foldData hst =>
    rw [uopsLeft_of_abs rfl, uopsLeft_of_pass (p := phFold) (phase rfl) (by decide), passLeft_fold,
      afterPassLeft, hst]
    exact Nat.lt_add_of_pos_left Nat.one_pos
  | foldSplitA hst hsplit =>
    rw [uopsLeft_of_padB rfl, uopsLeft_of_pass (p := phFold) (phase rfl) (by decide), passLeft_fold,
      afterPassLeft, hst, hsplit]
    exact Nat.lt_add_of_pos_left Nat.one_pos
  | foldShort | foldSplitB =>
    rw [uopsLeft_of_idle rfl, uopsLeft_of_pass (p := phFold) (phase rfl) (by decide), passLeft_fold]
    omega
  | _ => cases hu

/-! ### The run -/

/-- A micro-operation from a state of the invariant answers a next state of it, and lowers the bound
unless the engine is idle. -/
theorem microStep_of_inv {s : State} (hs : Inv s) : ∃ t, microStep s = .next t ∧ Inv t ∧
    (s.ph ≠ phIdle → uopsLeft t < uopsLeft s) := by
  obtain ⟨i, hd⟩ := decodeUop_total hs.phaseLegal
  obtain ⟨t, ht⟩ := exec_uop_total hs hd
  have e := exec_effect ht
  exact ⟨t, (microStep_of_uop hd).trans ht, inv_of_effect e hs fun _ => encode_of_decodeUop hd,
    fun hb => uopsLeft_lt_of_effect hs hd hb e⟩

theorem exists_microRun_idle {n : Nat} {s : State} (hs : Inv s) (hn : uopsLeft s ≤ n) :
    ∃ k t, k ≤ n ∧ microRun k s = .next t ∧ t.ph = phIdle := by
  by_cases hp : s.ph = phIdle
  · exact ⟨0, s, n.zero_le, rfl, hp⟩
  · obtain ⟨u, hu, hinv, hlt⟩ := microStep_of_inv hs
    have hdecr := hlt hp
    cases n with
    | zero => omega
    | succ n =>
      obtain ⟨k, t, hk, hrun, ht⟩ := exists_microRun_idle (n := n) hinv (by omega)
      exact ⟨k + 1, t, by omega, by simpa [microRun, hu] using hrun, ht⟩

/-- Settles O34: from every state of the invariant the bound on what is left is at most 457. -/
theorem idleWithin457MicroOperations : Obligations.IdleWithin457MicroOperations := by
  unfold Obligations.IdleWithin457MicroOperations
  exact fun s hs _ => exists_microRun_idle hs (uopsLeft_le hs)

end Sys2Proof.Machine
end

section
/-! PROOFS. Runs: the sequencer on its own, and the whole machine while every command on the port
waits for an idle engine (44_driver.md R161, R171). -/

namespace Sys2Proof.Machine

/-! ### The sequencer on its own -/

/-- Some number of micro-operations takes `s` to `t`. -/
def MicroReaches (s t : State) : Prop := ∃ k, microRun k s = .next t

theorem MicroReaches.refl (s : State) : MicroReaches s s := ⟨0, rfl⟩

theorem MicroReaches.trans {s t u : State} (h : MicroReaches s t) (h' : MicroReaches t u) :
    MicroReaches s u := by
  obtain ⟨m, hm⟩ := h
  obtain ⟨n, hn⟩ := h'
  exact ⟨m + n, (microRun_add hm).trans hn⟩

theorem microReaches_of_microStep {s t : State} (h : microStep s = .next t) : MicroReaches s t :=
  ⟨1, by simp [microRun, h]⟩

/-- The first of a run of micro-operations. -/
theorem microStep_of_microRun_succ {n : Nat} {s t : State} (h : microRun (n + 1) s = .next t) :
    ∃ u, microStep s = .next u ∧ microRun n u = .next t := by
  cases hs : microStep s with
  | next u => exact ⟨u, rfl, by simpa [microRun, hs] using h⟩
  | fault r => simp [microRun, hs] at h
  | refused r => simp [microRun, hs] at h

theorem inv_of_microStep {s t : State} (hs : Inv s) (h : microStep s = .next t) : Inv t := by
  obtain ⟨u, hu, hinv, -⟩ := microStep_of_inv hs
  cases hu.symm.trans h
  exact hinv

/-- A property that a micro-operation keeps is kept by a run. -/
theorem MicroReaches.keeps {P : State → Prop}
    (kept : ∀ {s t}, P s → microStep s = .next t → P t)
    {s t : State} (h : MicroReaches s t) (hs : P s) : P t := by
  obtain ⟨k, hk⟩ := h
  induction k generalizing s with
  | zero =>
    cases hk
    exact hs
  | succ k ih =>
    obtain ⟨u, hu, hrun⟩ := microStep_of_microRun_succ hk
    exact ih (kept hs hu) hrun

theorem MicroReaches.inv {s t : State} (h : MicroReaches s t) (hs : Inv s) : Inv t :=
  h.keeps inv_of_microStep hs

theorem MicroReaches.ports {s t : State} (h : MicroReaches s t) :
    t.cmd = s.cmd ∧ t.rsp = s.rsp ∧ t.rst = s.rst := by
  refine h.keeps (P := fun u => u.cmd = s.cmd ∧ u.rsp = s.rsp ∧ u.rst = s.rst) ?_ ⟨rfl, rfl, rfl⟩
  rintro u v ⟨hcmd, hrsp, hrst⟩ huv
  obtain ⟨hcmd', hrsp', hrst'⟩ := microStep_ports huv
  exact ⟨hcmd'.trans hcmd, hrsp'.trans hrsp, hrst'.trans hrst⟩

/-- An idle sequencer stays where it is (R76, R224). -/
theorem microRun_of_idle {s : State} (hp : s.ph = phIdle) (n : Nat) : microRun n s = .next s := by
  have hidle : microStep s = .next s := microStep_of_uop (i := .idle) (by rw [hp]; rfl)
  induction n with
  | zero => rfl
  | succ n ih => simp [microRun, hidle, ih]

/-! ### The whole machine -/

/-- Some number of steps takes `s` to `t`. -/
def Reaches (s t : State) : Prop := ∃ k, stepRun k s = .next t

theorem Reaches.trans {s t u : State} (h : Reaches s t) (h' : Reaches t u) : Reaches s u := by
  obtain ⟨m, hm⟩ := h
  obtain ⟨n, hn⟩ := h'
  exact ⟨m + n, (stepRun_add hm).trans hn⟩

theorem reaches_of_step {s t : State} (h : step s = .next t) : Reaches s t := ⟨1, stepRun_one h⟩

/-- Commands that are presented at once and accepted only by an idle engine. -/
def Queued (c : List Transfer) : Prop := ∀ t ∈ c, t.wait = 0 ∧ t.word ≠ 0x4000#16

theorem Queued.of_cons {c ts : List Transfer} {t : Transfer} (h : Queued c) (hc : c = t :: ts) :
    Queued ts :=
  fun u hu => h u (hc ▸ List.mem_cons_of_mem t hu)

/-- While the engine is busy such commands are held (R161 case 2). -/
theorem step_of_busy {s : State} (hs : Inv s) (hr : s.rst = false) (hq : Queued s.cmd)
    (hp : s.ph ≠ phIdle) : step s = microStep s := by
  have hi := irregularity_none_of_inv hs
  cases hcmd : s.cmd with
  | nil =>
    obtain ⟨i, hd⟩ := decodeUop_total hs.phaseLegal
    rw [microStep_of_uop hd]
    exact (stepRunsTheDecodedInstruction s i hr hi).1 hcmd hd
  | cons t ts =>
    obtain ⟨hwait, hword⟩ := hq t (hcmd ▸ List.mem_cons_self)
    exact step_of_held hr hi (presented_of_head hcmd hwait) hword hp

/-- What the sequencer reaches on its own, the machine reaches: a step is a micro-operation until
the engine is idle, and from there the sequencer does not go on. -/
theorem MicroReaches.reaches {s t : State} (h : MicroReaches s t) (hs : Inv s)
    (hr : s.rst = false) (hq : Queued s.cmd) : Reaches s t := by
  obtain ⟨k, hk⟩ := h
  induction k generalizing s with
  | zero => exact ⟨0, hk⟩
  | succ k ih =>
    by_cases hp : s.ph = phIdle
    · rw [microRun_of_idle hp] at hk
      exact ⟨0, hk⟩
    · obtain ⟨u, hu, hrun⟩ := microStep_of_microRun_succ hk
      obtain ⟨hcmd, -, hrst⟩ := microStep_ports hu
      exact (reaches_of_step ((step_of_busy hs hr hq hp).trans hu)).trans
        (ih (inv_of_microStep hs hu) (hrst.trans hr) (hcmd ▸ hq) hrun)

end Sys2Proof.Machine
end

section
/-! PROOFS. A message block by block: the chaining value of its whole blocks and the bytes left
over, and the padded message as the message followed by what the padding stage writes (41_padding.md
R111 to R117; 44_driver.md R170). -/

namespace Sys2Proof.Machine

/-- The chaining value after the whole blocks of `p` (R170). -/
def chainValue (p : List Byte) : Octet := (blocksOf (p.length / 64) p).foldl compress hinit

/-- The bytes of `p` after its whole blocks. -/
def partBlock (p : List Byte) : List Byte := p.drop (64 * (p.length / 64))

theorem partBlock_length (p : List Byte) : (partBlock p).length = p.length % 64 := by
  rw [partBlock, List.length_drop]
  omega

theorem digestOctet_eq_chainValue (m : List Byte) : digestOctet m = chainValue (pad m) := rfl

section Append

variable {p q : List Byte}

/-- Bytes that do not complete a block. -/
theorem append_div_of_room (h : p.length % 64 + q.length < 64) :
    (p ++ q).length / 64 = p.length / 64 := by
  rw [List.length_append]
  omega

theorem chainValue_append_of_room (h : p.length % 64 + q.length < 64) :
    chainValue (p ++ q) = chainValue p := by
  rw [chainValue, append_div_of_room h, blocksOf_append _ p q (by omega), chainValue]

theorem partBlock_append_of_room (h : p.length % 64 + q.length < 64) :
    partBlock (p ++ q) = partBlock p ++ q := by
  rw [partBlock, append_div_of_room h, List.drop_append_of_le_length (by omega), partBlock]

/-- Bytes that complete a block. -/
theorem append_div_of_full (h : p.length % 64 + q.length = 64) :
    (p ++ q).length / 64 = p.length / 64 + 1 := by
  rw [List.length_append]
  omega

theorem chainValue_append_of_full (h : p.length % 64 + q.length = 64) :
    chainValue (p ++ q) = compress (chainValue p) (partBlock p ++ q) := by
  have hblock : ((p ++ q).drop (64 * (p.length / 64))).take 64 = partBlock p ++ q := by
    rw [List.drop_append_of_le_length (by omega)]
    exact List.take_of_length_le (by
      rw [List.length_append]
      exact (congrArg (· + q.length) (partBlock_length p)).le.trans h.le)
  rw [chainValue, append_div_of_full h, blocksOf_succ, hblock, List.foldl_append,
    blocksOf_append _ p q (by omega)]
  rfl

theorem partBlock_append_of_full (h : p.length % 64 + q.length = 64) : partBlock (p ++ q) = [] := by
  rw [← List.length_eq_zero_iff, partBlock_length, List.length_append]
  omega

end Append

/-- The padded message in one padding block (R111). -/
theorem pad_eq_append_pad1 {m : List Byte} (h : m.length % 64 < 56) :
    pad m = m ++ pad1Bytes (m.length % 64) (BitVec.ofNat 64 (8 * m.length)) := by
  rw [pad, padZeros, if_pos h, pad1Bytes]

/-- The padded message in two padding blocks (R112, R113). -/
theorem pad_eq_append_padA_padB {m : List Byte} (h : 56 ≤ m.length % 64) : pad m =
    m ++ padABytes (m.length % 64) ++ padBBytes (BitVec.ofNat 64 (8 * m.length)) := by
  have hzeros : 119 - m.length % 64 = (63 - m.length % 64) + 56 := by omega
  rw [pad, padZeros, if_neg (by omega), hzeros, List.replicate_add, padABytes, padBBytes]
  simp only [List.append_assoc, List.cons_append]

/-- The memory holds these bytes from address 0 up. -/
def HoldsBytes (m : Memory) (l : List Byte) : Prop := ∀ a < l.length, Memory.read m a = l[a]?

theorem holdsBytes_nil (m : Memory) : HoldsBytes m [] := fun a h => absurd h a.not_lt_zero

theorem HoldsBytes.write {m : Memory} {l : List Byte} (h : HoldsBytes m l) (b : Byte) :
    HoldsBytes (Memory.write m l.length b) (l ++ [b]) := by
  intro a ha
  rw [Memory.read_write]
  split
  case isTrue heq => simp [heq]
  case isFalse hne =>
    have hlt : a < l.length := by
      rw [List.length_append, List.length_singleton] at ha
      omega
    rw [h a hlt, List.getElem?_append_left hlt]

theorem HoldsBytes.writeBytes {m : Memory} {l : List Byte} (h : HoldsBytes m l) (bs : List Byte) :
    HoldsBytes (Memory.writeBytes m l.length bs) (l ++ bs) := by
  induction bs generalizing m l with
  | nil => simpa [Memory.writeBytes] using h
  | cons b bs ih =>
    have hnext := ih (h.write b)
    rwa [List.length_append, List.append_assoc] at hnext

end Sys2Proof.Machine
end

section
/-! PROOFS. The machine computes the digest of a message however it is cut into chunks (44_driver.md
R171): what the engine holds after any part of the message, byte by byte, chunk by chunk, and after
the padding. -/

namespace Sys2Proof.Machine

/-! ### A pass over the next block -/

/-- The whole blocks of `p` have been compressed, and counted (R147). -/
structure Chained (p : List Byte) (s : State) : Prop where
  h : s.h = chainValue p
  seq : s.seq = BitVec.ofNat 64 (p.length / 64)

/-- What a pass leaves alone, and where it goes. -/
structure PassKeeps (s t : State) : Prop where
  len : t.len = s.len
  err : t.err = s.err
  splitb : t.splitb = s.splitb
  chunk : t.chunk = s.chunk
  cnt : t.cnt = s.cnt
  pos : t.pos = s.pos
  last : t.last = s.last
  exit : FoldExit s t.st t.ph

/-- The micro-operation that completes a block with `q`, and the pass over it. -/
theorem exists_pass {s u : State} {p q : List Byte} (hstep : microStep s = .next u)
    (hc : Chained p u) (hph : u.ph = phLdw) (hidx : u.idx = 0#6) (hst : u.st ≠ .done)
    (hq : p.length % 64 + q.length = 64) (hblk : HoldsBytes u.blk (partBlock p ++ q)) :
    ∃ t, MicroReaches s t ∧ Chained (p ++ q) t ∧ PassKeeps u t := by
  have hlen : (partBlock p ++ q).length = 64 := by rw [List.length_append, partBlock_length, hq]
  obtain ⟨t, r, hrun, hh, -, hseq, hlen', -, -, herr, hsplitb, hchunk, hcnt, hpos, hlast, -, -, -,
    -, -, -, -, -, -, -, hexit⟩ := passEqualsCompress u _ hlen hph hidx hst (hlen ▸ hblk)
  refine ⟨t, (microReaches_of_microStep hstep).trans ⟨130, hrun⟩, ⟨?_, ?_⟩, hlen', herr, hsplitb,
    hchunk, hcnt, hpos, hlast, hexit⟩
  · rw [hh, hc.h, chainValue_append_of_full hq]
  · rw [hseq, hc.seq, append_div_of_full hq, BitVec.ofNat_add]
    rfl

/-! ### Absorbing -/

/-- The engine has absorbed `p` and waits for more of the message, between passes. -/
structure Absorbed (p : List Byte) (s : State) : Prop where
  inv : Inv s
  chained : Chained p s
  reading : s.st = .reading
  len : s.len.toNat = 8 * p.length
  bytes : HoldsBytes s.blk (partBlock p)

theorem Absorbed.fill {p : List Byte} {s : State} (h : Absorbed p s) :
    s.fill.toNat = p.length % 64 := by
  rw [← h.inv.lenFill, h.len, Nat.mul_div_cancel_left _ (by decide)]

/-- The latch still holds the bytes `rest` of its chunk. -/
structure Latched (rest : List Byte) (last : Bool) (s : State) : Prop where
  cnt : s.cnt.toNat = s.pos.toNat + rest.length
  bytes : ∀ k < rest.length, some (readAt s.chunk (BitVec.ofNat 6 (s.pos.toNat + k))) = rest[k]?
  last : s.last = last

/-- The chunk's next byte is taken. -/
theorem Latched.next {x : Byte} {rest : List Byte} {l : Bool} {s t : State}
    (h : Latched (x :: rest) l s) (hcnt : t.cnt = s.cnt) (hpos : t.pos = s.pos + 1#7)
    (hchunk : t.chunk = s.chunk) (hlast : t.last = s.last) : Latched rest l t := by
  have hpos' : t.pos.toNat = s.pos.toNat + 1 := by
    have hlt := s.cnt.isLt
    have hc := h.cnt
    rw [List.length_cons] at hc
    rw [hpos]
    bv_omega
  refine ⟨?_, fun k hk => ?_, hlast.trans h.last⟩
  · rw [hcnt, hpos', h.cnt, List.length_cons]
    omega
  · have hk' := h.bytes (k + 1) (Nat.succ_lt_succ hk)
    rwa [List.getElem?_cons_succ, Nat.add_comm k, ← Nat.add_assoc, ← hpos', ← hchunk] at hk'

section Absorb

variable {p rest : List Byte} {x : Byte} {l : Bool} {s : State}

/-- `ABS` with a byte in the latch absorbs it. -/
theorem microStep_absorbs (h : Absorbed p s) (hp : s.ph = phAbs) (hl : Latched (x :: rest) l s)
    (hlen : p.length < 2 ^ 61 - 1) : microStep s = .next (absorbByte s) ∧
      readAt s.chunk (s.pos.setWidth 6) = x ∧ (s.len + 8#64).toNat = 8 * (p ++ [x]).length := by
  have hlt : s.len.toNat + 8 < 2 ^ 64 := by
    rw [h.len]
    omega
  have hpos : s.pos < s.cnt := by
    rw [BitVec.lt_def, hl.cnt, List.length_cons]
    omega
  refine ⟨?_, ?_, ?_⟩
  · rw [microStep_of_uop (i := .abs) (by rw [hp]; rfl), exec_abs_absorbs hpos h.inv.latch.2 hlt]
  · rw [pos_setWidth]
    exact Option.some.inj (hl.bytes 0 (Nat.succ_pos _))
  · rw [len_add_eight hlt, h.len, List.length_append, List.length_singleton]
    omega

/-- One byte of the chunk, with the pass of the block that it completes. -/
theorem exists_absorb_byte (h : Absorbed p s) (hp : s.ph = phAbs) (hl : Latched (x :: rest) l s)
    (hlen : p.length < 2 ^ 61 - 1) :
    ∃ t, MicroReaches s t ∧ Absorbed (p ++ [x]) t ∧ t.ph = phAbs ∧ Latched rest l t := by
  obtain ⟨hstep, hx, hlen'⟩ := microStep_absorbs h hp hl hlen
  have hinv := inv_of_microStep h.inv hstep
  have hfill : s.fill.toNat = (partBlock p).length := h.fill.trans (partBlock_length p).symm
  have hbytes := h.bytes.write x
  rw [← hfill] at hbytes
  by_cases hfull : s.fill = 63#6
  · have hq : p.length % 64 + [x].length = 64 := by
      rw [← h.fill, hfull]
      rfl
    rw [absorbByte_of_full hfull, hx] at hstep hinv
    obtain ⟨t, hrun, hchained, hkeep⟩ := exists_pass hstep ⟨h.chained.h, h.chained.seq⟩ rfl rfl
      (by simp [h.reading]) hq hbytes
    obtain ⟨hph, hst⟩ := hkeep.exit.1 h.reading
    refine ⟨t, hrun, ⟨hrun.inv h.inv, hchained, hst, ?_, ?_⟩, hph,
      hl.next hkeep.cnt hkeep.pos hkeep.chunk hkeep.last⟩
    · rw [hkeep.len]
      exact hlen'
    · rw [partBlock_append_of_full hq]
      exact holdsBytes_nil _
  · have hq : p.length % 64 + [x].length < 64 := by
      rw [← h.fill, List.length_singleton]
      bv_omega
    rw [absorbByte_of_not_full hfull, hx] at hstep hinv
    refine ⟨_, microReaches_of_microStep hstep, ⟨hinv, ⟨?_, ?_⟩, h.reading, hlen', ?_⟩, hp,
      hl.next rfl rfl rfl rfl⟩
    · rw [chainValue_append_of_room hq]
      exact h.chained.h
    · rw [append_div_of_room hq]
      exact h.chained.seq
    · rw [partBlock_append_of_room hq]
      exact hbytes

/-- The rest of the chunk. -/
theorem exists_absorb_rest (h : Absorbed p s) (hp : s.ph = phAbs) (hl : Latched rest l s)
    (hlen : p.length + rest.length ≤ 2 ^ 61 - 1) :
    ∃ t, MicroReaches s t ∧ Absorbed (p ++ rest) t ∧ t.ph = phAbs ∧ Latched [] l t := by
  induction rest generalizing p s with
  | nil => exact ⟨s, .refl s, by rwa [List.append_nil], hp, hl⟩
  | cons x rest ih =>
    rw [List.length_cons] at hlen
    obtain ⟨u, hu, habs, hpu, hlu⟩ := exists_absorb_byte h hp hl (by omega)
    obtain ⟨t, ht, habs', hpt, hlt⟩ := ih habs hpu hlu (by
      rw [List.length_append, List.length_singleton]
      omega)
    exact ⟨t, hu.trans ht, by rwa [List.append_assoc] at habs', hpt, hlt⟩

/-- With the chunk used up `ABS` ends it. -/
theorem microStep_endChunk (h : Absorbed p s) (hp : s.ph = phAbs) (hl : Latched [] l s) :
    microStep s = .next (endChunk s) := by
  have hpos : s.pos = s.cnt := BitVec.eq_of_toNat_eq hl.cnt.symm
  rw [microStep_of_uop (i := .abs) (by rw [hp]; rfl), exec_abs_of_eq hpos h.inv.latch.2]

end Absorb

/-! ### The end of the message -/

/-- The digest of `m` is ready (R173). -/
structure Finished (m : List Byte) (s : State) : Prop where
  inv : Inv s
  idle : s.ph = phIdle
  done : s.st = .done
  err : s.err = 0#4
  len : s.len.toNat = 8 * m.length
  chained : Chained (pad m) s

/-- The step of `PADB`, said of some memory `blk'`, so that no later proof has to compute the memory
that 64 writes leave. -/
theorem microStep_padB {s : State} (hp : s.ph = phPadB) : ∃ blk',
    HoldsBytes blk' (padBBytes s.len) ∧
    microStep s = .next { s with blk := blk', splitb := true, ph := phLdw, idx := 0 } :=
  ⟨_, (holdsBytes_nil s.blk).writeBytes (padBBytes s.len),
    (microStep_of_uop (i := .padB) (by rw [hp]; rfl)).trans
      (congrArg Host.Outcome.next (goTo_ldw_padded s _ true))⟩

/-- The second of two padding blocks (R113). -/
theorem exists_splitB {p : List Byte} {s : State} (hc : Chained p s) (hpart : partBlock p = [])
    (hp : s.ph = phPadB) (hst : s.st = .paddingSplit) :
    ∃ t, MicroReaches s t ∧ Chained (p ++ padBBytes s.len) t ∧ t.ph = phIdle ∧ t.st = .done ∧
      t.err = s.err ∧ t.len = s.len := by
  obtain ⟨blk', hblk, hpad⟩ := microStep_padB hp
  have hq : p.length % 64 + (padBBytes s.len).length = 64 := by
    rw [← partBlock_length, hpart]
    exact padBBytes_length s.len
  obtain ⟨t, hrun, hchained, hkeep⟩ := exists_pass hpad ⟨hc.h, hc.seq⟩ rfl rfl (by simp [hst]) hq
    (by rwa [hpart, List.nil_append])
  obtain ⟨-, -, -, hsplit⟩ := hkeep.exit
  obtain ⟨hph, hdone⟩ := hsplit hst rfl
  exact ⟨t, hrun, hchained, hph, hdone, hkeep.err, hkeep.len⟩

section Finish

variable {m : List Byte} {s : State} (h : Absorbed m s)
include h

theorem Absorbed.len_eq : s.len = BitVec.ofNat 64 (8 * m.length) := by
  rw [← h.len, BitVec.ofNat_toNat, BitVec.setWidth_eq]

/-- The block that the padding stage completes. -/
theorem Absorbed.padded (bs : List Byte) :
    HoldsBytes (Memory.writeBytes s.blk s.fill.toNat bs) (partBlock m ++ bs) := by
  have hfill : s.fill.toNat = (partBlock m).length := h.fill.trans (partBlock_length m).symm
  rw [hfill]
  exact h.bytes.writeBytes bs

variable (hp : s.ph = phAbs) (hl : Latched [] true s)
include hp hl

/-- One padding block (R111). -/
theorem exists_finished_short (hf : s.fill.toNat < 56) :
    ∃ t, MicroReaches s t ∧ Finished m t := by
  have hend := microStep_endChunk h hp hl
  rw [endChunk_short hl.last hf] at hend
  have hpad := (microStep_of_uop (s := { s with st := .paddingShort, ph := phPad1 }) (i := .pad1)
    rfl).trans (if_pos hf)
  obtain ⟨t, hrun, hchained, hkeep⟩ := exists_pass hpad ⟨h.chained.h, h.chained.seq⟩ rfl rfl
    (by simp) (h.fill ▸ add_pad1Bytes_length hf s.len) (h.padded _)
  have hreach := (microReaches_of_microStep hend).trans hrun
  have herr : t.err = s.err := hkeep.err
  have hlen : t.len = s.len := hkeep.len
  obtain ⟨-, hshort, -, -⟩ := hkeep.exit
  obtain ⟨hph, hst⟩ := hshort rfl
  have hpadded := pad_eq_append_pad1 (m := m) (h.fill ▸ hf)
  rw [← h.fill, ← h.len_eq] at hpadded
  exact ⟨t, hreach, hreach.inv h.inv, hph, hst, herr.trans (err_zero_at h.inv hp (by decide)),
    hlen ▸ h.len, hpadded ▸ hchained⟩

/-- The first of two padding blocks (R112). -/
theorem exists_splitA (hf : 56 ≤ s.fill.toNat) :
    ∃ t, MicroReaches s t ∧ Chained (m ++ padABytes s.fill.toNat) t ∧ t.ph = phPadB ∧
      t.st = .paddingSplit ∧ t.err = 0#4 ∧ t.len = s.len := by
  have hend := microStep_endChunk h hp hl
  rw [endChunk_split hl.last hf] at hend
  have hpad := microStep_of_uop (s := { s with st := .paddingSplit, ph := phPadA }) (i := .padA) rfl
  obtain ⟨t, hrun, hchained, hkeep⟩ := exists_pass hpad ⟨h.chained.h, h.chained.seq⟩ rfl rfl
    (by simp) (h.fill ▸ add_padABytes_length s.fill.isLt) (h.padded _)
  have herr : t.err = s.err := hkeep.err
  have hsplitb := splitb_false_of_abs h.inv hp
  obtain ⟨-, -, hsplit, -⟩ := hkeep.exit
  obtain ⟨hph, hst⟩ := hsplit rfl hsplitb
  exact ⟨t, (microReaches_of_microStep hend).trans hrun, hchained, hph, hst,
    herr.trans (err_zero_at h.inv hp (by decide)), hkeep.len⟩

/-- Two padding blocks (R112, R113). -/
theorem exists_finished_split (hf : 56 ≤ s.fill.toNat) :
    ∃ t, MicroReaches s t ∧ Finished m t := by
  obtain ⟨u, hrunA, hchainA, hphA, hstA, herrA, hlenA⟩ := exists_splitA h hp hl hf
  have hpart := partBlock_append_of_full (p := m) (q := padABytes s.fill.toNat)
    (h.fill ▸ add_padABytes_length s.fill.isLt)
  obtain ⟨t, hrunB, hchained, hph, hst, herr, hlen⟩ := exists_splitB hchainA hpart hphA hstA
  have hreach := hrunA.trans hrunB
  have hpadded := pad_eq_append_padA_padB (m := m) (h.fill ▸ hf)
  rw [← h.fill, ← h.len_eq, ← hlenA] at hpadded
  refine ⟨t, hreach, hreach.inv h.inv, hph, hst, herr.trans herrA, ?_, hpadded ▸ hchained⟩
  rw [hlen, hlenA]
  exact h.len

end Finish

end Sys2Proof.Machine
end

section
/-! PROOFS. The commands of a message on the port, and the digest that ends them (44_driver.md
R171). -/

namespace Sys2Proof.Machine

/-! ### `PUSH` by its word -/

/-- The word of a `PUSH` decodes to `PUSH` or to its other name `FINAL`, which have one meaning
(R82). -/
theorem exists_decode_encodePush (l : Bool) (n : BitVec 7) :
    ∃ i, decodeCommand (encodePush l n) = .ok i ∧ ∀ s, exec i s = pushChunk l n s := by
  rw [decodeCommand_encodePush]
  split
  case isTrue h =>
    obtain ⟨rfl, rfl⟩ := h
    exact ⟨.final, rfl, fun _ => rfl⟩
  case isFalse => exact ⟨.push l n, rfl, fun _ => rfl⟩

theorem pushCount_toNat {c : List Byte} (hc : c.length ≤ 64) :
    (BitVec.ofNat 7 c.length).toNat = c.length := by
  rw [BitVec.toNat_ofNat]
  omega

/-- The engine has absorbed `p` and waits for a command. -/
structure Ready (p : List Byte) (s : State) : Prop where
  absorbed : Absorbed p s
  idle : s.ph = phIdle
  err : s.err = 0#4
  rst : s.rst = false

/-- The latch after the load. -/
theorem latched_of_loadChunk {c : List Byte} {s : State} {ts : List Transfer} {l : Bool}
    (hcmd : s.cmd = pushTransfer l c :: ts) (hc : c.length ≤ 64) :
    Latched c l (takeCommand (loadChunk l (BitVec.ofNat 7 c.length) s)) := by
  have hpay : payload s = c := payload_of_cons hcmd
  refine ⟨?_, fun k hk => ?_, rfl⟩
  · rw [takeCommand_cnt, takeCommand_pos, loadChunk_cnt, loadChunk_pos, pushCount_toNat hc]
    exact (Nat.zero_add _).symm
  · have hk' : (BitVec.ofNat 6 (0 + k)).toNat = k := by
      rw [BitVec.toNat_ofNat]
      omega
    rw [takeCommand_pos, takeCommand_chunk, loadChunk_pos, loadChunk_chunk, hpay, BitVec.toNat_zero,
      readAt_writeFrom_zero s.chunk hc 0, hk', if_pos hk]
    simp [hk]

theorem absorbed_of_loadChunk {p c : List Byte} {s : State} (h : Ready p s) (hc : c.length ≤ 64)
    (l : Bool) : Absorbed p (takeCommand (loadChunk l (BitVec.ofNat 7 c.length) s)) where
  inv := inv_takeCommand (inv_loadChunk h.absorbed.inv h.idle h.err h.absorbed.reading l
    ((pushCount_toNat hc).trans_le hc))
  chained := ⟨h.absorbed.chained.h, h.absorbed.chained.seq⟩
  reading := h.absorbed.reading
  len := h.absorbed.len
  bytes := h.absorbed.bytes

section Chunk

variable {p c : List Byte} {l : Bool} {s : State} {ts : List Transfer} (h : Ready p s)
  (hcmd : s.cmd = pushTransfer l c :: ts) (hc : c.length ≤ 64)
include h hcmd hc

theorem step_of_pushTransfer :
    step s = .next (takeCommand (loadChunk l (BitVec.ofNat 7 c.length) s)) := by
  obtain ⟨i, hd, hexec⟩ := exists_decode_encodePush l (BitVec.ofNat 7 c.length)
  have hpay : (payload s).length = (BitVec.ofNat 7 c.length).toNat := by
    rw [payload_of_cons hcmd, pushCount_toNat hc]
    rfl
  have ht := presented_of_head hcmd rfl
  rw [step_of_presented h.rst (irregularity_none_of_inv h.absorbed.inv) ht
    (fetch_of_idle ht h.idle hd), hexec,
    pushChunk_of_count_le h.idle h.err l h.absorbed.reading ((pushCount_toNat hc).trans_le hc) hpay]

/-- One chunk: its `PUSH`, and all its bytes. -/
theorem exists_absorb_chunk (hq : Queued s.cmd) (hlen : p.length + c.length ≤ 2 ^ 61 - 1) :
    ∃ t, Reaches s t ∧ Absorbed (p ++ c) t ∧ t.ph = phAbs ∧ Latched [] l t ∧
      t.cmd = ts ∧ t.rsp = s.rsp ∧ t.rst = false := by
  have hload := absorbed_of_loadChunk h hc l
  have hports : (takeCommand (loadChunk l (BitVec.ofNat 7 c.length) s)).cmd = ts := by
    rw [takeCommand_cmd, loadChunk_cmd, hcmd, List.tail_cons]
  obtain ⟨t, hrun, habs, hp, hl⟩ := exists_absorb_rest hload rfl (latched_of_loadChunk hcmd hc)
    hlen
  obtain ⟨hcmd', hrsp, hrst⟩ := hrun.ports
  exact ⟨t, (reaches_of_step (step_of_pushTransfer h hcmd hc)).trans
      (hrun.reaches hload.inv h.rst (hports ▸ hq.of_cons hcmd)),
    habs, hp, hl, hcmd'.trans hports, hrsp, hrst.trans h.rst⟩

end Chunk

/-! ### The chunks of a message -/

/-- A chunk that is not the last leaves the engine ready for the next. -/
theorem exists_ready {p c : List Byte} {s : State} {ts : List Transfer} (h : Ready p s)
    (hcmd : s.cmd = pushTransfer false c :: ts) (hc : c.length ≤ 64) (hq : Queued s.cmd)
    (hlen : p.length + c.length ≤ 2 ^ 61 - 1) :
    ∃ t, Reaches s t ∧ Ready (p ++ c) t ∧ t.cmd = ts ∧ t.rsp = s.rsp := by
  obtain ⟨u, hrun, habs, hp, hl, hcmd', hrsp, hrst⟩ := exists_absorb_chunk h hcmd hc hq hlen
  have hq' : Queued u.cmd := hcmd' ▸ hq.of_cons hcmd
  have hend := microStep_endChunk habs hp hl
  rw [endChunk_of_not_last hl.last] at hend
  have hinv := inv_of_microStep habs.inv hend
  have herr := err_zero_at habs.inv hp (by decide)
  exact ⟨_, hrun.trans ((microReaches_of_microStep hend).reaches habs.inv hrst hq'),
    ⟨⟨hinv, ⟨habs.chained.h, habs.chained.seq⟩, habs.reading, habs.len, habs.bytes⟩, rfl,
      herr, hrst⟩, hcmd', hrsp⟩

/-- The last chunk, and the padding. -/
theorem exists_finished {p c : List Byte} {s : State} {ts : List Transfer} (h : Ready p s)
    (hcmd : s.cmd = pushTransfer true c :: ts) (hc : c.length ≤ 64) (hq : Queued s.cmd)
    (hlen : p.length + c.length ≤ 2 ^ 61 - 1) :
    ∃ t, Reaches s t ∧ Finished (p ++ c) t ∧ t.cmd = ts ∧ t.rsp = s.rsp ∧ t.rst = false := by
  obtain ⟨u, hrun, habs, hp, hl, hcmd', hrsp, hrst⟩ := exists_absorb_chunk h hcmd hc hq hlen
  have hq' : Queued u.cmd := hcmd' ▸ hq.of_cons hcmd
  obtain ⟨t, hpad, hfin⟩ : ∃ t, MicroReaches u t ∧ Finished (p ++ c) t := by
    by_cases hf : u.fill.toNat < 56
    · exact exists_finished_short habs hp hl hf
    · exact exists_finished_split habs hp hl (by omega)
  obtain ⟨hcmd'', hrsp', hrst'⟩ := hpad.ports
  exact ⟨t, hrun.trans (hpad.reaches habs.inv hrst hq'), hfin, hcmd''.trans hcmd',
    hrsp'.trans hrsp, hrst'.trans hrst⟩

/-- The chunks one after the other, however the message is cut. -/
theorem exists_finished_of_chunks {chunks : List (List Byte)} (hne : chunks ≠ [])
    (hc : ∀ c ∈ chunks, c.length ≤ 64) {p : List Byte} {s : State} {ts : List Transfer}
    (h : Ready p s) (hcmd : s.cmd = messageTransfers chunks ++ ts) (hq : Queued s.cmd)
    (hlen : p.length + chunks.flatten.length ≤ 2 ^ 61 - 1) :
    ∃ t, Reaches s t ∧ Finished (p ++ chunks.flatten) t ∧ t.cmd = ts ∧ t.rsp = s.rsp ∧
      t.rst = false := by
  induction chunks generalizing p s with
  | nil => exact absurd rfl hne
  | cons c cs ih =>
    obtain ⟨hc0, hcs⟩ := List.forall_mem_cons.mp hc
    cases cs with
    | nil =>
      rw [List.flatten_cons, List.flatten_nil, List.append_nil] at hlen ⊢
      exact exists_finished h hcmd hc0 hq hlen
    | cons c' cs =>
      rw [List.flatten_cons, List.length_append] at hlen
      obtain ⟨u, hrun, hready, hcmd', hrsp⟩ := exists_ready h hcmd hc0 hq (by omega)
      have hq' : Queued u.cmd := hcmd' ▸ hq.of_cons hcmd
      obtain ⟨t, hrun', hfin, hcmd'', hrsp', hrst⟩ := ih (by simp) hcs hready hcmd' hq' (by
        rw [List.length_append]
        omega)
      rw [List.append_assoc, ← List.flatten_cons] at hfin
      exact ⟨t, hrun.trans hrun', hfin, hcmd'', hrsp'.trans hrsp, hrst⟩

/-! ### The whole command sequence -/

/-- The transfers of a message are what the transport delivers, and none of them is `STATUS`. -/
theorem messageTransfers_sized {chunks : List (List Byte)} (hc : ∀ c ∈ chunks, c.length ≤ 64) :
    ∀ t ∈ messageTransfers chunks,
      Transfer.sized t = true ∧ t.wait = 0 ∧ t.word ≠ 0x4000#16 := by
  have push {l : Bool} {c : List Byte} (h : c.length ≤ 64) :
      Transfer.sized (pushTransfer l c) = true ∧ (pushTransfer l c).wait = 0 ∧
        (pushTransfer l c).word ≠ 0x4000#16 := by
    obtain ⟨hsized, hword⟩ := pushTransfer_sized l c h
    exact ⟨hsized, rfl, hword⟩
  induction chunks with
  | nil => exact fun t ht => absurd ht List.not_mem_nil
  | cons c cs ih =>
    obtain ⟨hc0, hcs⟩ := List.forall_mem_cons.mp hc
    cases cs with
    | nil => exact List.forall_mem_cons.mpr ⟨push hc0, fun t ht => absurd ht List.not_mem_nil⟩
    | cons c' cs => exact List.forall_mem_cons.mpr ⟨push hc0, ih hcs⟩

/-- `DIGEST` in `DONE` (R166). -/
theorem step_of_digest {m : List Byte} {s : State} (h : Finished m s) (hr : s.rst = false)
    (hcmd : s.cmd = [plainTransfer 0x3000#16]) :
    step s = .next { s with rsp := s.rsp ++ [.digest (octetBytes s.h)], cmd := [] } := by
  have ht := presented_of_head hcmd rfl
  have hd : decodeCommand (plainTransfer 0x3000#16).word = .ok .digest := by decide
  rw [step_of_presented hr (irregularity_none_of_inv h.inv) ht (fetch_of_idle ht h.idle hd), exec,
    execDigest, whenAccepted_accepted h.idle h.err, if_pos h.done,
    takeCommand_of_cons (s := respond _ s) hcmd]
  rfl

/-- The registers of R40 and R162, whatever the arrays hold, are those of the empty message. -/
theorem ready_of_registers {s : State} (hh : s.h = hinit) (hlen : s.len = 0) (hfill : s.fill = 0)
    (hst : s.st = .reading) (hseq : s.seq = 0) (herr : s.err = 0) (hph : s.ph = phIdle)
    (hidx : s.idx = 0) (hsplitb : s.splitb = false) (hcnt : s.cnt = 0) (hpos : s.pos = 0)
    (hrst : s.rst = false) (hblk : Memory.wf s.blk = true)
    (hcmd : ∀ t ∈ s.cmd, Transfer.sized t = true) : Ready [] s := by
  have hfree : PhaseFree s := by
    constructor
    case blkWf => exact hblk
    case transport => exact hcmd
    all_goals simp [herr, hcnt, hpos, hlen, hfill, hsplitb, hst]
  exact ⟨⟨inv_of_atPhase hfree (.idle hph hidx (.inl ⟨hst, buffered_of_empty hseq hlen hfill⟩)),
    ⟨hh, hseq⟩, hst, by simp [hlen], holdsBytes_nil _⟩, hph, herr, hrst⟩

/-- Settles O35: by induction on the chunks, and within a chunk on its bytes; after every byte the
accumulator is the chaining value of the whole blocks so far, and the buffer holds the rest. -/
theorem machineComputesTheDigest : Obligations.MachineComputesTheDigest := by
  unfold Obligations.MachineComputesTheDigest
  rintro s chunks m hne hc rfl hlen hh hlen0 hfill hst hseq herr hph hidx hsplitb hcnt hpos - hrst
    hblk hcmd
  have hsized : ∀ t ∈ s.cmd, Transfer.sized t = true ∧ t.wait = 0 ∧ t.word ≠ 0x4000#16 := by
    rw [hcmd]
    exact List.forall_mem_append.mpr ⟨messageTransfers_sized hc, by decide⟩
  have hready := ready_of_registers hh hlen0 hfill hst hseq herr hph hidx hsplitb hcnt hpos hrst
    hblk fun t ht => (hsized t ht).1
  obtain ⟨t, hrun, hfin, hcmd', hrsp, hrst'⟩ := exists_finished_of_chunks hne hc hready hcmd
    (fun t ht => (hsized t ht).2) (by simpa using hlen)
  rw [List.nil_append] at hfin
  obtain ⟨k, hk⟩ := hrun.trans (reaches_of_step (step_of_digest hfin hrst' hcmd'))
  have hdigest := hfin.chained.h.trans (digestOctet_eq_chainValue chunks.flatten).symm
  have hfill' := hfin.inv.lenFill
  rw [hfin.len, Nat.mul_div_cancel_left _ (by decide)] at hfill'
  refine ⟨k, _, hk, hfin.idle, hfin.done, hfin.err, hdigest, hfin.len, hfill'.symm, ?_, rfl, ?_⟩
  · have hpad := pad_length_eq_blocks chunks.flatten
    have hblocks : (pad chunks.flatten).length / 64 < 2 ^ 64 := by split at hpad <;> omega
    rw [messageBlocks, blocksOf_length]
    exact (congrArg BitVec.toNat hfin.chained.seq).trans
      ((BitVec.toNat_ofNat _ _).trans (Nat.mod_eq_of_lt hblocks))
  · rw [hrsp, hdigest, digestBytes]

end Sys2Proof.Machine
end

section
/-! PROOFS. The bytes of an inspection record on its port (45_inspection.md R195). -/

namespace Sys2Proof.Machine

theorem getElem?_append_middle {α : Type} (xs : List α) {ys : List α} (zs : List α) {k : Nat}
    (hk : k < ys.length) : (xs ++ ys ++ zs)[xs.length + k]? = ys[k]? := by
  rw [List.append_assoc, List.getElem?_append_right (Nat.le_add_right _ _), Nat.add_sub_cancel_left,
    List.getElem?_append_left hk]

/-- Elements of one width laid end to end: byte `k` of element `i`. -/
theorem getElem?_flatMap_toList {α : Type} {f : α → List Byte} {n : Nat}
    (h : ∀ a, (f a).length = n) (xs : Vector α 64) (i : Fin 64) {k : Nat} (hk : k < n) :
    (xs.toList.flatMap f)[n * i.val + k]? = (f (xs.get i))[k]? := by
  rw [getElem?_flatMap_uniform h _ _ _ hk, Vector.getElem?_toList,
    Vector.getElem?_eq_getElem i.isLt]
  rfl

/-! ### The five parts of a record, each by the offset at which it begins -/

section Record

variable (r : InspRecord)

theorem recordBytes_length : (recordBytes r).length = 2376 := by
  simp [recordBytes]

theorem recordBytes_seq {k : Nat} (hk : k < 8) : (recordBytes r)[k]? = (be64Bytes r.seq)[k]? := by
  have h := getElem?_append_middle [] (ys := be64Bytes r.seq)
    (r.w.toList.flatMap wordBytes ++ (r.tr.toList.flatMap octetBytes ++
      (octetBytes r.hpre ++ octetBytes r.hpost))) hk
  simpa [recordBytes] using h

theorem recordBytes_w {k : Nat} (hk : k < 256) :
    (recordBytes r)[8 + k]? = (r.w.toList.flatMap wordBytes)[k]? := by
  have h := getElem?_append_middle (be64Bytes r.seq) (ys := r.w.toList.flatMap wordBytes)
    (r.tr.toList.flatMap octetBytes ++ (octetBytes r.hpre ++ octetBytes r.hpost))
    (by simpa using hk)
  simpa [recordBytes] using h

theorem recordBytes_tr {k : Nat} (hk : k < 2048) :
    (recordBytes r)[264 + k]? = (r.tr.toList.flatMap octetBytes)[k]? := by
  have h := getElem?_append_middle (be64Bytes r.seq ++ r.w.toList.flatMap wordBytes)
    (ys := r.tr.toList.flatMap octetBytes) (octetBytes r.hpre ++ octetBytes r.hpost)
    (by simpa using hk)
  simpa [recordBytes] using h

theorem recordBytes_hpre {k : Nat} (hk : k < 32) :
    (recordBytes r)[2312 + k]? = (octetBytes r.hpre)[k]? := by
  have h := getElem?_append_middle
    (be64Bytes r.seq ++ r.w.toList.flatMap wordBytes ++ r.tr.toList.flatMap octetBytes)
    (octetBytes r.hpost) (hk.trans_eq (octetBytes_length r.hpre).symm)
  simpa [recordBytes] using h

theorem recordBytes_hpost {k : Nat} (hk : k < 32) :
    (recordBytes r)[2344 + k]? = (octetBytes r.hpost)[k]? := by
  have h := getElem?_append_middle
    (be64Bytes r.seq ++ r.w.toList.flatMap wordBytes ++ r.tr.toList.flatMap octetBytes
      ++ octetBytes r.hpre) [] (hk.trans_eq (octetBytes_length r.hpost).symm)
  simpa [recordBytes] using h

end Record

/-- Settles O38: each part of the record begins behind those before it, and in a part the elements
stand in index order, each most significant byte first. -/
theorem recordTakes2376Bytes : Obligations.RecordTakes2376Bytes := by
  unfold Obligations.RecordTakes2376Bytes
  refine fun r => ⟨recordBytes_length r, fun k => ?_, fun i k => ?_, fun t j k => ?_, fun j k => ?_,
    fun j k => ?_⟩
  · rw [recordBytes_seq r k.isLt, be64Bytes_getElem? r.seq k.val k.isLt]
  · rw [Nat.add_assoc, recordBytes_w r (by omega),
      getElem?_flatMap_toList wordBytes_length r.w i k.isLt, wordBytes_getElem? _ _ k.isLt]
  · rw [Nat.add_assoc, Nat.add_assoc, recordBytes_tr r (by omega),
      getElem?_flatMap_toList octetBytes_length r.tr t (by omega),
      octetBytes_getElem? _ j _ k.isLt]
  · rw [Nat.add_assoc, recordBytes_hpre r (by omega), octetBytes_getElem? _ j _ k.isLt]
  · rw [Nat.add_assoc, recordBytes_hpost r (by omega), octetBytes_getElem? _ j _ k.isLt]

end Sys2Proof.Machine
end

section
/-! PROOFS. Which step emits an inspection record (45_inspection.md R196). -/

namespace Sys2Proof.Machine

theorem Effect.insp_of_ne_fold {i : Instr} {s t : State} (e : Effect s i t) (hi : i ≠ .fold) :
    t.insp = s.insp := by
  cases e with
  | foldData | foldShort | foldSplitA | foldSplitB => exact absurd rfl hi
  | _ => simp

/-- In all its branches `FOLD` emits the one record of the block, with the accumulator it writes
(R143). -/
theorem Effect.fold_emits {s t : State} (e : Effect s .fold t) :
    t.insp = s.insp ++ [foldRecord s] ∧ t.h = foldOctet s.h s.v := by
  cases e with
  | held _ hf | ignored _ hf => cases hf
  | foldData | foldShort | foldSplitA | foldSplitB => exact ⟨rfl, rfl⟩

theorem acceptIllegal_insp {s t : State} (h : acceptIllegal s = .next t) : t.insp = s.insp := by
  rcases acceptIllegal_next h with ⟨-, rfl⟩ | ⟨-, -, rfl⟩ | ⟨-, -, rfl⟩ <;> rfl

/-- Settles O50: of the three ways a step answers a next state only an instruction can emit, and of
the instructions only `FOLD` does. -/
theorem oneRecordPerFold : Obligations.OneRecordPerFold := by
  unfold Obligations.OneRecordPerFold
  refine fun s t h => ⟨fun hno => ?_, fun hf hr => ?_⟩
  · rcases step_next h with ⟨-, rfl⟩ | ⟨hr, -, i, hi, ht⟩ | ⟨-, -, -, ht⟩
    · rfl
    · have hne : i ≠ .fold := by
        rintro rfl
        simp [hi, hr] at hno
      exact ((exec_effect ht).insp_of_ne_fold hne).trans (hostTick_insp s)
    · exact acceptIllegal_insp ht
  · obtain ⟨hinsp, hh⟩ := (effect_of_step hr hf h).fold_emits
    rw [hostTick_insp] at hinsp
    exact ⟨_, hinsp, hostTick_seq s, hh.symm, hostTick_hpre s, hostTick_w s, hostTick_tr s⟩

end Sys2Proof.Machine
end

section
/-! PROOFS. The inspection port and the buffers that feed it influence nothing else: a step of two
states that differ only there, side by side (45_inspection.md R197, 10_state.md R36). -/

namespace Sys2Proof.Machine

/-! ### The relation of two states, and of two answers -/

/-- `s` with other contents of `INSP`, `TR` and `HPRE`. -/
def withInspection (o : List InspRecord) (r : Vector Octet 64) (p : Octet) (s : State) : State :=
  { s with insp := o, tr := r, hpre := p }

/-- The two states differ at most in `INSP`, `TR` and `HPRE`. -/
def SameButInspection (s s' : State) : Prop := s' = withInspection s'.insp s'.tr s'.hpre s

/-- The answers are of one kind: next states that differ at most in `INSP`, `TR` and `HPRE`, one
fault, or one refusal. -/
inductive AnswersAlike : Outcome → Outcome → Prop where
  | next {t t' : State} : SameButInspection t t' → AnswersAlike (.next t) (.next t')
  | fault (f : Fault) : AnswersAlike (.fault f) (.fault f)
  | refused (r : Refusal) : AnswersAlike (.refused r) (.refused r)

theorem AnswersAlike.of_next {t : State} {x : Outcome} (h : AnswersAlike (.next t) x) :
    ∃ t', x = .next t' ∧ SameButInspection t t' := by
  cases h with
  | next ht => exact ⟨_, rfl, ht⟩

theorem AnswersAlike.of_fault {f : Fault} {x : Outcome} (h : AnswersAlike (.fault f) x) :
    x = .fault f := by
  cases h
  rfl

theorem AnswersAlike.of_refused {r : Refusal} {x : Outcome} (h : AnswersAlike (.refused r) x) :
    x = .refused r := by
  cases h
  rfl

theorem AnswersAlike.ite {c : Prop} [Decidable c] {x x' y y' : Outcome} (hx : AnswersAlike x x')
    (hy : AnswersAlike y y') : AnswersAlike (if c then x else y) (if c then x' else y') := by
  split
  · exact hx
  · exact hy

theorem SameButInspection.ite {c : Prop} [Decidable c] {x x' y y' : State}
    (hx : SameButInspection x x') (hy : SameButInspection y y') :
    SameButInspection (if c then x else y) (if c then x' else y') := by
  split
  · exact hx
  · exact hy

/-! ### Each meaning, side by side

The guards read neither `INSP` nor `TR` nor `HPRE`, so both sides take the same branch, and in each
branch the two next states are the same but for the three. -/

theorem execLdw_of_error {s : State} {a : Nat} (hi : s.idx ≤ 15#6)
    (ha : Memory.read32 s.blk (4 * s.idx.toNat) = .error a) :
    execLdw s = .fault (.blkUnwritten a) := by
  simp [execLdw, hi, ha]

theorem execFold_of_done {s : State} (h : s.st = .done) : execFold s = .refused .foldInDone := by
  simp [execFold, h]

section Alike

variable (o : List InspRecord) (r : Vector Octet 64) (p : Octet) (s : State)

theorem heldWhileBusy_alike {k k' : Outcome} (h : AnswersAlike k k') :
    AnswersAlike (heldWhileBusy s k) (heldWhileBusy (withInspection o r p s) k') :=
  .ite h (.next rfl)

theorem whenAccepted_alike {k k' : Outcome} (h : AnswersAlike k k') :
    AnswersAlike (whenAccepted s k) (whenAccepted (withInspection o r p s) k') :=
  heldWhileBusy_alike o r p s (.ite h (.next rfl))

theorem acceptIllegal_alike :
    AnswersAlike (acceptIllegal s) (acceptIllegal (withInspection o r p s)) :=
  whenAccepted_alike o r p s (.next rfl)

theorem pushChunk_alike (l : Bool) (n : BitVec 7) :
    AnswersAlike (pushChunk l n s) (pushChunk l n (withInspection o r p s)) :=
  whenAccepted_alike o r p s
    (.ite (.next rfl) (.ite (.next rfl) (.ite (.next rfl) (.refused _))))

theorem absorbByte_alike :
    SameButInspection (absorbByte s) (absorbByte (withInspection o r p s)) :=
  .ite rfl rfl

theorem endChunk_alike : SameButInspection (endChunk s) (endChunk (withInspection o r p s)) :=
  .ite rfl (.ite rfl rfl)

/-- The written bytes stay out of the comparison of the two states, which would evaluate them. -/
theorem execPadB_alike : AnswersAlike (execPadB s) (execPadB (withInspection o r p s)) := by
  have written (m : Memory) : AnswersAlike
      (.next (goTo phLdw 0#6 { s with blk := m, splitb := true }))
      (.next (goTo phLdw 0#6 { withInspection o r p s with blk := m, splitb := true })) :=
    .next rfl
  exact written (Memory.writeBytes s.blk 0 (padBBytes s.len))

theorem execLdw_alike : AnswersAlike (execLdw s) (execLdw (withInspection o r p s)) := by
  by_cases hi : s.idx ≤ 15#6
  · cases hx : Memory.read32 s.blk (4 * s.idx.toNat) with
    | error a =>
      rw [execLdw_of_error hi hx, execLdw_of_error (s := withInspection o r p s) hi hx]
      exact .fault _
    | ok x =>
      rw [execLdw_of_read32 hi hx, execLdw_of_read32 (s := withInspection o r p s) hi hx]
      exact .next rfl
  · rw [execLdw, if_neg hi, execLdw, if_neg (show ¬ (withInspection o r p s).idx ≤ 15#6 from hi)]
    exact .refused _

theorem execFold_alike : AnswersAlike (execFold s) (execFold (withInspection o r p s)) := by
  cases hst : s.st with
  | reading =>
    rw [execFold_of_reading hst, execFold_of_reading (s := withInspection o r p s) hst]
    exact .next rfl
  | paddingShort =>
    rw [execFold_of_paddingShort hst, execFold_of_paddingShort (s := withInspection o r p s) hst]
    exact .next rfl
  | paddingSplit =>
    cases hb : s.splitb with
    | false =>
      rw [execFold_of_splitA hst hb, execFold_of_splitA (s := withInspection o r p s) hst hb]
      exact .next rfl
    | true =>
      rw [execFold_of_splitB hst hb, execFold_of_splitB (s := withInspection o r p s) hst hb]
      exact .next rfl
  | done =>
    rw [execFold_of_done hst, execFold_of_done (s := withInspection o r p s) hst]
    exact .refused _

theorem exec_alike (i : Instr) : AnswersAlike (exec i s) (exec i (withInspection o r p s)) := by
  cases i with
  | init => exact heldWhileBusy_alike o r p s (.next rfl)
  | push l n => exact pushChunk_alike o r p s l n
  | final => exact pushChunk_alike o r p s true 0#7
  | digest => exact whenAccepted_alike o r p s (.ite (.next rfl) (.next rfl))
  | abort => exact whenAccepted_alike o r p s (.next rfl)
  | abs =>
    exact .ite (.refused _) (.ite (.ite (.next rfl) (.next (absorbByte_alike o r p s)))
      (.next (endChunk_alike o r p s)))
  | pad1 => exact .ite (.next rfl) (.refused _)
  | ldw => exact execLdw_alike o r p s
  | exp => exact .ite (.ite (.next rfl) (.next rfl)) (.refused _)
  | rnd => exact .ite (.next rfl) (.next rfl)
  | fold => exact execFold_alike o r p s
  | padB => exact execPadB_alike o r p s
  | status | idle | padA | seed => exact .next rfl

/-! ### The step -/

theorem hostTick_withInspection :
    hostTick (withInspection o r p s) = withInspection o r p (hostTick s) := by
  cases hc : s.cmd with
  | nil => rw [hostTick_of_nil hc, hostTick_of_nil (s := withInspection o r p s) hc]
  | cons t ts => simp [hostTick, withInspection, hc]

theorem step_alike : AnswersAlike (step s) (step (withInspection o r p s)) := by
  have hirr : irregularity (withInspection o r p s) = irregularity s := rfl
  have hfetch : fetch (withInspection o r p s) = fetch s := rfl
  refine .ite (.next rfl) ?_
  rw [hirr, hfetch, hostTick_withInspection]
  cases irregularity s with
  | some e => exact .refused e
  | none =>
    cases fetch s with
    | run i => exact exec_alike o r p (hostTick s) i
    | illegal => exact acceptIllegal_alike o r p s
    | nothing => exact .refused _

end Alike

/-- Settles O51: a step selects what it runs without the three, and each meaning answers alike. -/
theorem inspectionInfluencesNothing : Obligations.InspectionInfluencesNothing := by
  unfold Obligations.InspectionInfluencesNothing
  intro s s' h
  have halike := step_alike s'.insp s'.tr s'.hpre s
  rw [withInspection, ← h] at halike
  exact ⟨fun t ht => (ht ▸ halike).of_next, fun f hf => (hf ▸ halike).of_fault,
    fun r hr => (hr ▸ halike).of_refused⟩

end Sys2Proof.Machine
end

section
/-! PROOFS. The faults of the machine: which step raises one, and what a pending one holds still
(60_exceptions.md R207 to R217). -/

namespace Sys2Proof.Machine

/-- The host's clock touches the command port and nothing else (log 4). -/
theorem exists_hostTick_eq (s : State) : ∃ c, hostTick s = { s with cmd := c } := by
  cases hcmd : s.cmd with
  | nil => exact ⟨s.cmd, hostTick_of_nil hcmd⟩
  | cons c cs => exact ⟨{ c with wait := c.wait - 1 } :: cs, by simp [hostTick, hcmd]⟩

/-- Settles O14: `ABORT` is accepted, and in `IDLE` taking a fault writes `ERR` alone. -/
theorem abortRaisesSourceAbort : Obligations.AbortRaisesSourceAbort := by
  unfold Obligations.AbortRaisesSourceAbort
  intro s hp he
  rw [exec, execAbort, whenAccepted_accepted hp he, raise_of_idle hp]
  rfl

/-! ### While a fault is pending (R217) -/

/-- With a fault pending `STATUS` is answered, and every other instruction an idle engine fetches,
`INIT` apart, does nothing or is taken off the port. -/
theorem Effect.of_pending {i : Instr} {s t : State} (e : Effect s i t) (hp : s.ph = phIdle)
    (he : s.err ≠ 0#4) (hi : i ≠ .init) (hu : i.format = .uop → i = .idle) :
    (i = .status ∧ t = takeCommand (respond (.status (statusWord s)) s)) ∨
    (i ≠ .status ∧ (t = s ∨ t = takeCommand s)) := by
  cases e with
  | status => exact .inl ⟨rfl, rfl⟩
  | idle => exact .inr ⟨by simp, .inl rfl⟩
  | ignored _ _ hs => exact .inr ⟨hs, .inr rfl⟩
  | held _ _ _ hb => exact absurd hp hb
  | init => exact absurd rfl hi
  | pushNotReading _ _ _ h0 | finalNotReading _ h0 | pushBadCount _ _ _ h0 | push _ _ _ h0
  | final _ h0 | digest _ h0 | digestNotReady _ h0 | abort _ h0 => exact absurd h0 he
  | _ => cases hu rfl

theorem acceptIllegal_of_pending {s t : State} (h : acceptIllegal s = .next t)
    (hp : s.ph = phIdle) (he : s.err ≠ 0#4) : t = takeCommand s :=
  (Host.Outcome.next.inj ((acceptIllegal_of_fault hp he).symm.trans h)).symm

/-- Settles O45: the invariant puts a pending fault in `IDLE`, where no micro-operation is fetched
and no command but `INIT` is executed. -/
theorem firstFaultIsKept : Obligations.FirstFaultIsKept := by
  unfold Obligations.FirstFaultIsKept
  intro s t hs he hr hi h
  have hp := hs.faultIdle he
  rcases step_next h with ⟨hr', -⟩ | ⟨-, -, i, hf, ht⟩ | ⟨-, -, hf, ht⟩
  · simp [hr] at hr'
  · obtain ⟨c, hc⟩ := exists_hostTick_eq s
    rw [hc] at ht
    rcases (exec_effect ht).of_pending hp he (fun h => hi (h ▸ hf)) (idle_of_fetch_uop hp hf) with
      ⟨rfl, rfl⟩ | ⟨hne, rfl | rfl⟩
    · exact ⟨rfl, fun _ => rfl, fun hn => absurd hf hn⟩
    · exact ⟨rfl, fun hst => absurd (Fetched.run.inj (hf.symm.trans hst)) hne, fun _ => rfl⟩
    · exact ⟨rfl, fun hst => absurd (Fetched.run.inj (hf.symm.trans hst)) hne, fun _ => rfl⟩
  · obtain rfl := acceptIllegal_of_pending ht hp he
    exact ⟨rfl, fun hst => by simp [hf] at hst, fun _ => rfl⟩

/-! ### Where a fault is raised (R207) -/

/-- The table of R207: `Raises s f c` says that in state `s` a step which finds `f` to do raises the
cause `c`. A command is accepted only with no fault pending (R161); `ABS` needs the invariant for
that. -/
inductive Raises (s : State) : Fetched → Cause → Prop where
  | illegal : s.err = 0#4 → Raises s .illegal .illegalCommand
  | push (l : Bool) (n : BitVec 7) : s.err = 0#4 → s.st ≠ .reading →
      Raises s (.run (.push l n)) .notReading
  | final : s.err = 0#4 → s.st ≠ .reading → Raises s (.run .final) .notReading
  | count (l : Bool) (n : BitVec 7) : s.err = 0#4 → s.st = .reading → 64 < n.toNat →
      Raises s (.run (.push l n)) .badCount
  | digest : s.err = 0#4 → s.st ≠ .done → Raises s (.run .digest) .digestNotReady
  | abort : s.err = 0#4 → Raises s (.run .abort) .sourceAbort
  | abs : s.pos < s.cnt → 2 ^ 64 ≤ s.len.toNat + 8 → Raises s (.run .abs) .lengthOverflow

/-- `t` is `s` after taking a fault from the table: apart from the command port nothing but `ERR`
and `PH` is written (R206, R215). -/
def Raised (s : State) (f : Fetched) (t : State) : Prop :=
  ∃ c cmd, Raises s f c ∧ t = { raise c s with cmd := cmd }

/-- An instruction that writes a cause into `ERR` does so by a row of the table, whatever the
command port holds after the host's clock. -/
theorem Effect.raised {i : Instr} {s t : State} {k : List Transfer}
    (e : Effect { s with cmd := k } i t) (hne : t.err ≠ s.err) (h0 : t.err ≠ 0#4) :
    Raised s (.run i) t := by
  cases e with
  | pushNotReading l n _ he hst => exact ⟨_, _, .push l n he hst, rfl⟩
  | finalNotReading _ he hst => exact ⟨_, _, .final he hst, rfl⟩
  | pushBadCount l n _ he hst hn => exact ⟨_, _, .count l n he hst hn, rfl⟩
  | digestNotReady _ he hst => exact ⟨_, _, .digest he hst, rfl⟩
  | abort _ he => exact ⟨_, _, .abort he, rfl⟩
  | absOverflow _ hp hl => exact ⟨_, _, .abs hp hl, rfl⟩
  | init => exact absurd rfl h0
  | _ => simp at hne

theorem acceptIllegal_raised {s t : State} (h : acceptIllegal s = .next t)
    (hne : t.err ≠ s.err) : Raised s .illegal t := by
  rcases acceptIllegal_next h with ⟨-, rfl⟩ | ⟨-, -, rfl⟩ | ⟨-, he, rfl⟩
  · exact absurd rfl hne
  · exact absurd rfl hne
  · exact ⟨_, _, .illegal he, rfl⟩

/-- A step that writes a cause into `ERR` does so by a row of the table. -/
theorem raised_of_step {s t : State} (h : step s = .next t) (hne : t.err ≠ s.err)
    (h0 : t.err ≠ 0#4) : Raised s (fetch s) t := by
  rcases step_next h with ⟨-, rfl⟩ | ⟨-, -, i, hf, ht⟩ | ⟨-, -, hf, ht⟩
  · exact absurd rfl h0
  · obtain ⟨k, hk⟩ := exists_hostTick_eq s
    rw [hk] at ht
    rw [hf]
    exact (exec_effect ht).raised hne h0
  · rw [hf]
    exact acceptIllegal_raised ht hne

/-- With `LEN` a multiple of 8 the overflow test fires at one value only (R213). -/
theorem len_eq_of_overflow {s : State} (hs : Inv s) (hl : 2 ^ 64 ≤ s.len.toNat + 8) :
    s.len.toNat = 2 ^ 64 - 8 := by
  have h8 := hs.lenBytes
  have hlt := s.len.isLt
  omega

/-- Only the first fault is raised: by acceptance for a command, by the invariant in `ABS`
(R217). -/
theorem Raises.err_zero {s : State} {f : Fetched} {c : Cause} (h : Raises s f c) (hs : Inv s)
    (hf : fetch s = f) : s.err = 0#4 := by
  cases h with
  | illegal he | push _ _ he | final he | count _ _ he | digest he | abort he => exact he
  | abs => exact err_zero_at hs (ph_of_fetch_uop hf rfl rfl) (by decide)

/-- Settles O46: row by row of the table; the invariant says at which `LEN` the test of `ABS`
fires. -/
theorem faultsAreRaisedWhereTheTableSays : Obligations.FaultsAreRaisedWhereTheTableSays := by
  unfold Obligations.FaultsAreRaisedWhereTheTableSays
  intro s t hs h hne h0
  obtain ⟨c, cmd, hrow, rfl⟩ := raised_of_step h hne h0
  refine ⟨hrow.err_zero hs rfl, rfl, rfl, rfl, ?_⟩
  generalize fetch s = f at hrow
  cases hrow with
  | illegal => exact .inl ⟨rfl, rfl⟩
  | push l n _ hst => exact .inr (.inl ⟨rfl, hst, l, n, .inl rfl⟩)
  | final _ hst => exact .inr (.inl ⟨rfl, hst, true, 0#7, .inr rfl⟩)
  | count l n _ hst hn => exact .inr (.inr (.inl ⟨rfl, hst, l, n, rfl, hn⟩))
  | digest _ hst => exact .inr (.inr (.inr (.inl ⟨rfl, hst, rfl⟩)))
  | abort => exact .inr (.inr (.inr (.inr (.inl ⟨rfl, rfl⟩))))
  | abs hp hl =>
    exact .inr (.inr (.inr (.inr (.inr ⟨rfl, rfl, hp, len_eq_of_overflow hs hl⟩))))

/-! ### The digest on the response port (R211, R222) -/

/-- Of all branches of the rules, only that of `DIGEST` in `DONE` responds a digest. -/
theorem Effect.digest_responded {i : Instr} {s t : State} {bs : List Byte} (e : Effect s i t)
    (h : t.rsp = s.rsp ++ [.digest bs]) :
    s.st = .done ∧ s.ph = phIdle ∧ s.err = 0#4 ∧ bs = octetBytes s.h := by
  cases e with
  | digest hp he hst => exact ⟨hst, hp, he, by simpa using h.symm⟩
  | _ => simp at h

theorem acceptIllegal_rsp {s t : State} (h : acceptIllegal s = .next t) : t.rsp = s.rsp := by
  rcases acceptIllegal_next h with ⟨-, rfl⟩ | ⟨-, -, rfl⟩ | ⟨-, -, rfl⟩ <;> rfl

/-- Settles O47: reset and an illegal word respond nothing, and of the instructions only `DIGEST` in
`DONE` responds a digest. -/
theorem noDigestBeforeDone : Obligations.NoDigestBeforeDone := by
  unfold Obligations.NoDigestBeforeDone
  intro s t bs h hrsp
  rcases step_next h with ⟨-, rfl⟩ | ⟨-, -, i, -, ht⟩ | ⟨-, -, -, ht⟩
  · simp [hardReset] at hrsp
  · simpa using (exec_effect ht).digest_responded (by rwa [hostTick_rsp])
  · simp [acceptIllegal_rsp ht] at hrsp

end Sys2Proof.Machine
end

section
/-! PROOFS. Hardware reset in any phase, and `INIT` right after it (70_reset_and_hazards.md R230,
R231; 10_state.md R40). -/

namespace Sys2Proof.Machine

theorem step_of_reset {s : State} (hr : s.rst = true) : step s = .next (hardReset s) := by
  simp [step, hr]

/-- A command that the host presents to a busy engine is held, unless it is `STATUS` (R161 case
2). -/
theorem holding_of_presented {s : State} {c : Transfer} (hc : presented s = some c)
    (hp : s.ph ≠ phIdle) (hw : c.word ≠ 0x4000#16) : holding s = true := by
  simp [holding, hc, hp, hw]

/-- Reset takes a held command off the port. -/
theorem hardReset_cmd_of_holding {s : State} (h : holding s = true) :
    (hardReset s).cmd = s.cmd.tail :=
  if_pos h

/-- Settles O52: the registers are fields of the literal `State.powerOn`, in which no byte of `BLK` is
written; the command that is abandoned is the one the port holds. -/
theorem resetInAnyPhase : Obligations.ResetInAnyPhase := by
  unfold Obligations.ResetInAnyPhase
  intro s hr
  refine ⟨hardReset s, step_of_reset hr, rfl, rfl, rfl, rfl, rfl, rfl, rfl, rfl, rfl, rfl, rfl, rfl,
    fun _ => rfl, rfl, rfl, ?_⟩
  intro c cs hcmd hwait hp hw
  have hheld : holding s = true := holding_of_presented (presented_of_head hcmd hwait) hp hw
  rw [hardReset_cmd_of_holding hheld, hcmd, List.tail_cons]

/-- The registers that `INIT` writes hold after reset what it writes to them (R40). -/
theorem startMessage_reset (cmd : List Transfer) :
    startMessage { State.reset with cmd := cmd } = { State.reset with cmd := cmd } := rfl

/-- Settles O54: the engine is idle after reset and accepts `INIT`, which has no register to
change. -/
theorem initAfterResetChangesNothing : Obligations.InitAfterResetChangesNothing := by
  unfold Obligations.InitAfterResetChangesNothing
  intro cmd
  rw [exec_init_of_idle rfl, startMessage_reset]
  rfl

end Sys2Proof.Machine
end
